-- ==== Sys2Proof/Word.lean ====
section
/-! DEFINITION. The word types of STEG-XE and their plainest arithmetic (R11, R24, R37, R47). -/

namespace Sys2Proof

/-- A register, a command word, a bus data word or a buffer entry: 64 bits (R24, R63). -/
abbrev Word := BitVec 64

/-- One byte of the aperture (R47). -/
abbrev Byte := BitVec 8

/-- An IEEE 754 binary64 bit pattern: bit 63 sign, bits 62:52 biased exponent, bits 51:0 fraction (R37). -/
abbrev F64 := BitVec 64

/-- `w[lo + width - 1 : lo]`, read as an unsigned integer (R11). -/
def bits (w : Word) (lo width : Nat) : Nat := w.toNat / 2 ^ lo % 2 ^ width

/-- `w[i]`, one bit (R11). -/
def bit (w : Word) (i : Nat) : Bool := bits w i 1 == 1

end Sys2Proof
end

