-- ==== Sys2Proof/Syntax.lean ====
section
/-! DEFINITION. The syntax of the command words: one constructor of `Instr` per row of spec/opcode_table.json
(R63 to R68, R70), with the selectors and the error codes the decoder names. -/

namespace Sys2Proof

/-- The algorithm selector ALG (R2, R65). -/
inductive Alg where
  | fft1d | fft2d | dct2d | fdct8 | fdctlee
  deriving DecidableEq, Repr

/-- The direction of a transform (R81, R82). -/
inductive Direction where
  | forward | inverse
  deriving DecidableEq, Repr

/-- POSSEL, the source of the coefficient position (R66). -/
inductive PosSel where
  | reg      -- POSSEL = 0: the POS register
  | static   -- POSSEL = 1: the static position of ALG
  deriving DecidableEq, Repr

/-- The error codes of STATUS.ERRCODE (R131); the codes 7 to 15 are reserved and never reported. -/
inductive ErrCode where
  | none | illegal | badAlg | badSize | badPos | badTol | numeric
  deriving DecidableEq, Repr

/-- The fields a decoded command other than NOP carries (R69). -/
structure CmdFields where
  alg    : Alg
  bit    : Bool
  possel : PosSel
  size   : Nat
  deriving DecidableEq, Repr

/-- The seven commands (R64). NOP ignores every field (R74), so it carries none. -/
inductive Instr where
  | nop
  | fwd (f : CmdFields)
  | inv (f : CmdFields)
  | setbit (f : CmdFields)
  | getbit (f : CmdFields)
  | embed (f : CmdFields)
  | extract (f : CmdFields)
  deriving DecidableEq, Repr

/-- The ALG code of an algorithm (R65). -/
def Alg.code : Alg → Nat
  | .fft1d => 0 | .fft2d => 1 | .dct2d => 2 | .fdct8 => 3 | .fdctlee => 4

/-- FFT1D and FFT2D read and write IM; the other three neither read nor write it (R36, R94). -/
def Alg.usesIm : Alg → Bool
  | .fft1d | .fft2d => true
  | .dct2d | .fdct8 | .fdctlee => false

/-- The POSSEL bit (R66). -/
def PosSel.code : PosSel → Nat
  | .reg => 0 | .static => 1

/-- The number STATUS.ERRCODE holds for an error code (R131). -/
def ErrCode.code : ErrCode → Nat
  | .none => 0 | .illegal => 1 | .badAlg => 2 | .badSize => 3 | .badPos => 4 | .badTol => 5 | .numeric => 6

/-- The OP code of a command (R64). -/
def Instr.op : Instr → Nat
  | .nop => 0 | .fwd _ => 1 | .inv _ => 2 | .setbit _ => 3 | .getbit _ => 4 | .embed _ => 5 | .extract _ => 6

/-- The fields of a command; NOP has none. -/
def Instr.fields : Instr → Option CmdFields
  | .nop => none
  | .fwd f | .inv f | .setbit f | .getbit f | .embed f | .extract f => some f

end Sys2Proof
end

