-- ==== Sys2Proof/WellFormed.lean ====
section
/-! DEFINITION. Which commands have a command word: SIZE is an eight-bit field (R63, R67, R76). Whether the
engine accepts a SIZE is not a matter of form but of the acceptance checks (R67, R133). -/

namespace Sys2Proof

/-- SIZE fits bits 23:16: "a SIZE above 255" has no word (R67, R76). -/
def CmdFields.wellFormed (f : CmdFields) : Bool := decide (f.size < 256)

/-- A command has a word when its fields fit theirs. -/
def Instr.wellFormed (i : Instr) : Bool :=
  match i with
  | .nop => true
  | .fwd f | .inv f | .setbit f | .getbit f | .embed f | .extract f => f.wellFormed

end Sys2Proof
end

