-- ==== Sys2Proof/Decode.lean ====
section
/-! DEFINITION. The decoder, total on all 2^64 command words (R69), and after it the encoder (R77), written from
the same field table (R63, R64, R65). -/

namespace Sys2Proof

/-- The decoder's verdict: a command, or the code of a fatal encoding error (R69). -/
inductive Verdict where
  | cmd (i : Instr)
  | fatal (code : ErrCode)
  deriving DecidableEq, Repr

/-- The algorithm of an ALG code; the codes 5 to 7 are reserved (R65, R73). -/
def algOfCode : Nat → Option Alg
  | 0 => some .fft1d
  | 1 => some .fft2d
  | 2 => some .dct2d
  | 3 => some .fdct8
  | 4 => some .fdctlee
  | _ => none

/-- The fields RSV0 (15:9), RSV1 (31:24) and RSV2 (63:32) are all 0 (R68). -/
def reservedZero (w : Word) : Bool :=
  bits w 32 32 == 0 && bits w 24 8 == 0 && bits w 9 7 == 0

/-- The command with OP code `op` and the fields `f`; the codes from 7 on are reserved (R64, R73). -/
def instrOfOp (op : Nat) (f : CmdFields) : Option Instr :=
  match op with
  | 0 => some .nop
  | 1 => some (.fwd f)
  | 2 => some (.inv f)
  | 3 => some (.setbit f)
  | 4 => some (.getbit f)
  | 5 => some (.embed f)
  | 6 => some (.extract f)
  | _ => none

/-- The fields of a command word whose ALG code has been read as `alg` (R63, R69). -/
def fieldsOf (w : Word) (alg : Alg) : CmdFields :=
  { alg := alg
    bit := bit w 7
    possel := if bit w 8 then .static else .reg
    size := bits w 16 8 }

/-- The decoder of R69: the first failing test decides, so an illegal reserved field or OP wins over a reserved ALG,
and a NOP is a NOP whatever its ALG, BIT, POSSEL and SIZE are (R74). -/
def decode (w : Word) : Verdict :=
  if !reservedZero w then .fatal .illegal
  else
    let op := bits w 0 4
    if 7 ≤ op then .fatal .illegal
    else if op = 0 then .cmd .nop
    else
      match algOfCode (bits w 4 3) with
      | none => .fatal .badAlg
      | some alg =>
        match instrOfOp op (fieldsOf w alg) with
        | some i => .cmd i
        | none => .fatal .illegal

/-- The instruction the decoder reads from an opcode-table word; the bits from `nbits` on are 0. -/
def decodeTableWord (nbits w : Nat) : Option Instr :=
  match decode (BitVec.ofNat 64 (w % 2 ^ nbits)) with
  | .cmd i => some i
  | .fatal _ => none

/-- `(ALG << 4) | (B << 7) | (POSSEL << 8) | (SIZE << 16)` of R77, its fields disjoint and so summed. -/
def encodeFields (f : CmdFields) : Nat :=
  f.alg.code * 16 + f.bit.toNat * 128 + f.possel.code * 256 + f.size * 65536

/-- The command word of an instruction (R77): OP, and for every command but NOP its fields. -/
def encode (i : Instr) : Word :=
  match i with
  | .nop => BitVec.ofNat 64 0
  | .fwd f => BitVec.ofNat 64 (1 + encodeFields f)
  | .inv f => BitVec.ofNat 64 (2 + encodeFields f)
  | .setbit f => BitVec.ofNat 64 (3 + encodeFields f)
  | .getbit f => BitVec.ofNat 64 (4 + encodeFields f)
  | .embed f => BitVec.ofNat 64 (5 + encodeFields f)
  | .extract f => BitVec.ofNat 64 (6 + encodeFields f)

end Sys2Proof
end

