-- ==== Sys2Proof/Config.lean ====
section
/-! DEFINITION. What an implementation of STEG-XE fixes (R7, R8) and the values the spec leaves free. The
configuration itself is plain data, held in `Machine.State.cfg`, so that a statement about every state is a statement
about every configuration; the free values are opaque constants, which no proof can evaluate. -/

namespace Sys2Proof

/-- XFORM_NUMERICS, the binary64 realization of the ten transforms (R8, R96): the reference realization REF of R99, or
the `k`-th other realization, of which nothing is known but the round-trip law (`Config.otherRealization`). -/
inductive Numerics where
  | reference
  | other (k : Nat)
  deriving DecidableEq, Repr

/-- The implementation parameters the engine's rules read (R7, R8). -/
structure Config where
  maxSize  : Nat
  numerics : Numerics
  deriving DecidableEq, Repr

/-- MAX_N = MAX_SIZE², the entries of each buffer (R7). -/
def Config.maxN (c : Config) : Nat := c.maxSize * c.maxSize

/-- The legal range of MAX_SIZE, 8 to 64 (R7). -/
def Config.legal (c : Config) : Bool := decide (8 ≤ c.maxSize) && decide (c.maxSize ≤ 64)

/-- The reference configuration: MAX_SIZE = 16 (R7) and XFORM_NUMERICS = REF (R99). -/
def Config.reference : Config := { maxSize := 16, numerics := .reference }

/-- The binary64 operations of R14, as tags for the NaN a result may be. -/
inductive FloatOp where
  | add | sub | mul | div
  deriving DecidableEq, Repr

/-- FREE VALUE (log entry 4): the sign and fraction bits of the NaN an operation gives on these operands; the spec says
only that the result is a NaN (R97). -/
opaque Config.nanBits (op : FloatOp) (a b : F64) : F64

end Sys2Proof
end

