-- ==== Sys2Proof/Machine/State.lean ====
section
/-! DEFINITION. The state of STEG-XE as plain data (10_state.md, 20_memory.md R45, R47), the reasons a step stops, and
the state after hardware reset in the reference configuration (R153, R7). -/

namespace Sys2Proof.Machine

/-- A buffer: the bytes the host or a command has written, by aperture offset, strictly rising. An unlisted byte is
UNKNOWN (R42): it has no value. -/
abbrev Memory := List Host.Cell

/-- The ENGINE state (R22). -/
inductive Fsm where
  | idle | busy | halted
  deriving DecidableEq, Repr

/-- The commands that become BUSY, so every command but NOP (R30, R122). -/
inductive BlockOp where
  | fwd | inv | setbit | getbit | embed | extract
  deriving DecidableEq, Repr

/-- `cur.*`, the hidden state latched at acceptance and held while BUSY (R23). -/
structure Current where
  op   : BlockOp
  alg  : Alg
  bit  : Bool
  size : Nat
  epos : BitVec 16
  tol  : F64
  deriving DecidableEq, Repr

/-- A bus request (R45): a byte offset from BASE, a size in bytes and, for a write, the data word. -/
inductive Request where
  | read (off size : Nat)
  | write (off size : Nat) (data : Word)
  deriving DecidableEq, Repr

/-- The port's response (R45): OKAY, with a data word for a read, or ERROR (the BusError of R13). -/
inductive Answer where
  | okayRead (data : Word)
  | okayWrite
  | error
  deriving DecidableEq, Repr

/-- What happens next at the engine (R17): a host access arrives, the ENGINE gets a turn, the reset input is asserted
and released (log entry 2). -/
inductive Event where
  | access (r : Request)
  | tick
  | hardwareReset
  deriving DecidableEq, Repr

/-- What an offset of the aperture names (R24, R50). -/
inductive Target where
  | id | cfg | ctrl | status | pos | tol | cmd | result
  | re (i : Nat)
  | im (i : Nat)
  deriving DecidableEq, Repr

/-- Why a step stops with a fault; both are demanded by R42 and both are safe, since the hardware goes on with some
pattern. -/
inductive Fault where
  /-- Raised by a host read of an RE or IM entry that is UNKNOWN (R42, R52). Safe. -/
  | hostReadUnknown
  /-- Raised at its completion by a command that reads an RE or IM entry that is UNKNOWN (R42, R156). Safe. -/
  | commandReadUnknown
  deriving DecidableEq, Repr

/-- Why a step has no meaning. -/
inductive Refusal where
  /-- Raised by an arm of `exec` for an instruction that has no meaning yet; no arm raises it. Safe. -/
  | notModelled (mnemonic : String)
  deriving DecidableEq, Repr

/-- The whole machine. STATUS.BUSY and STATUS.HALTED are views of `fsm` (R22), ID, the IRQ line and the reads of CTRL,
STATUS, CFG and RESULT are views of these fields (Machine/Flags.lean). -/
structure State where
  /-- The implementation parameters (R7, R8), CFG.MAX_SIZE among them (R28); no step changes them. -/
  cfg     : Config
  /-- The ENGINE state (R22). -/
  fsm     : Fsm
  /-- The hidden latches (R23). -/
  cur     : Current
  /-- CTRL.IRQ_EN (R29). -/
  irqEn   : Bool
  /-- STATUS.DONE (R30). -/
  done    : Bool
  /-- STATUS.ERR (R30). -/
  err     : Bool
  /-- STATUS.ERRCODE (R30, R131). -/
  errCode : ErrCode
  /-- POS.POS (R31). -/
  pos     : BitVec 16
  /-- TOL (R32). -/
  tol     : F64
  /-- RESULT.RBIT (R34). -/
  rbit    : Bool
  /-- RESULT.RVALID (R34). -/
  rvalid  : Bool
  /-- RESULT.EPOS (R34). -/
  epos    : BitVec 16
  /-- RE, the real buffer, at offsets 0x8000 + 8*i (R35). -/
  re      : Memory
  /-- IM, the imaginary buffer, at offsets 0x10000 + 8*i (R36). -/
  im      : Memory
  /-- The model's own: what is still to happen at the engine, first to come first (log entry 2). -/
  events  : List Event
  /-- The model's own: the port's response in the step just taken, if it answered an access (log entry 15). -/
  answer  : Option Answer
  deriving DecidableEq, Repr

/-- The hidden latches after reset are UNKNOWN and unread until the next acceptance (R41); the model names these
(DESIGN CHOICE, log entry 7). -/
def Current.reset : Current :=
  { op := .fwd, alg := .fft1d, bit := false, size := 0, epos := 0#16, tol := 0#64 }

/-- The state after hardware reset of an engine with configuration `c` (R153), nothing to come and nothing answered. -/
def State.resetOf (c : Config) : State :=
  { cfg := c, fsm := .idle, cur := Current.reset, irqEn := false, done := false, err := false, errCode := .none
    pos := 0#16, tol := 0#64, rbit := false, rvalid := false, epos := 0#16, re := [], im := []
    events := [], answer := none }

/-- The state after hardware reset of the reference configuration (R7, R99, R153). -/
def State.reset : State := State.resetOf Config.reference

end Sys2Proof.Machine
end

