-- ==== Sys2Proof/Machine/Flags.lean ====
section
/-! DEFINITION. The words the registers read as, the IRQ line, and the flag updates of acceptance, completion, errors
and W1C (R27 to R34, R39, R40, R126, R136, R137). -/

namespace Sys2Proof.Machine

/-- ID: MAGIC 0x5354_4547 and VERSION 1 (R27). -/
def idWord : Word := 0x0000000153544547#64

/-- CFG: MAX_SIZE in bits 7:0, ALGS = 0b11111 in bits 12:8 (R28). -/
def State.cfgWord (s : State) : Word := BitVec.ofNat 64 (s.cfg.maxSize % 256 + 31 * 256)

/-- CTRL: SRST reads 0, IRQ_EN in bit 1 (R29). -/
def State.ctrlWord (s : State) : Word := BitVec.ofNat 64 (s.irqEn.toNat * 2)

/-- STATUS.BUSY: 1 exactly while fsm = BUSY (R22, R30). -/
def State.busy (s : State) : Bool := s.fsm == .busy

/-- STATUS.HALTED: 1 exactly while fsm = HALTED (R22, R30). -/
def State.halted (s : State) : Bool := s.fsm == .halted

/-- STATUS: BUSY, DONE, ERR, HALTED in bits 0 to 3, ERRCODE in bits 11:8 (R30). -/
def State.statusWord (s : State) : Word :=
  BitVec.ofNat 64
    (s.busy.toNat + s.done.toNat * 2 + s.err.toNat * 4 + s.halted.toNat * 8 + s.errCode.code * 256)

/-- POS: bits 15:0, the rest reserved (R31). -/
def State.posWord (s : State) : Word := BitVec.ofNat 64 s.pos.toNat

/-- RESULT: RBIT, RVALID in bits 0 and 1, EPOS in bits 31:16 (R34). -/
def State.resultWord (s : State) : Word :=
  BitVec.ofNat 64 (s.rbit.toNat + s.rvalid.toNat * 2 + s.epos.toNat * 65536)

/-- The IRQ line: level-sensitive, `CTRL.IRQ_EN and (STATUS.DONE or STATUS.ERR)` (R40, R141). -/
def State.irq (s : State) : Bool := s.irqEn && (s.done || s.err)

/-- What every acceptance does first: DONE and RVALID are cleared (R39, R133). -/
def State.beginAcceptance (s : State) : State := { s with done := false, rvalid := false }

/-- Completion without error: BUSY clears and DONE is set (R164, R81). -/
def State.finish (s : State) : State := { s with fsm := .idle, done := true }

/-- `raise Error(code)`: the command ends, ERR is set and ERRCODE names the newest error (R13, R136, R139). -/
def State.raiseError (s : State) (code : ErrCode) : State := { s with fsm := .idle, err := true, errCode := code }

/-- `raise Fatal(code)`: the same, and the engine enters HALTED (R13, R137). -/
def State.raiseFatal (s : State) (code : ErrCode) : State := { s with fsm := .halted, err := true, errCode := code }

/-- `status_w1c(v)` (R126): bit 1 clears DONE in every state, bit 2 clears ERR and ERRCODE unless HALTED. -/
def State.statusW1C (s : State) (v : Word) : State :=
  let s1 := if bit v 1 then { s with done := false } else s
  if bit v 2 && !s.halted then { s1 with err := false, errCode := .none } else s1

end Sys2Proof.Machine
end

