-- ==== Sys2Proof/Machine/Float.lean ====
section
/-! DEFINITION. The numeric primitives of R14 on binary64 patterns (R37): a finite value is an exact integer multiple
of 2^-1074, so each operation is computed exactly on integers and rounded once by `roundMag`. -/

namespace Sys2Proof.Machine.Fp

/-- The sign bit, bit 63 (R37). -/
def sign (x : F64) : Bool := bit x 63

/-- The biased exponent, bits 62:52 (R37). -/
def expField (x : F64) : Nat := bits x 52 11

/-- The fraction, bits 51:0 (R37). -/
def fraction (x : F64) : Nat := bits x 0 52

/-- `finite(x)`: neither an infinity nor a NaN (R14). -/
def finite (x : F64) : Bool := expField x != 2047

/-- A NaN: all exponent bits 1 and a nonzero fraction. -/
def isNaN (x : F64) : Bool := expField x == 2047 && fraction x != 0

/-- An infinity: all exponent bits 1 and a zero fraction. -/
def isInf (x : F64) : Bool := expField x == 2047 && fraction x == 0

/-- 2^1074: the finite binary64 values are the integers below 2^2098 divided by this. -/
def unit : Nat := 2 ^ 1074

/-- `|x| * 2^1074`, an exact natural number for a finite x. -/
def mag (x : F64) : Nat :=
  if expField x = 0 then fraction x else (2 ^ 52 + fraction x) * 2 ^ (expField x - 1)

/-- `x * 2^1074`, an exact integer for a finite x. -/
def scaled (x : F64) : Int := if sign x then -(mag x : Int) else (mag x : Int)

/-- A zero of either sign. -/
def isZero (x : F64) : Bool := mag x == 0

/-- `|x|`: clears the sign bit, exact (R14). -/
def abs (x : F64) : F64 := BitVec.ofNat 64 (x.toNat % 2 ^ 63)

/-- A sign and a magnitude pattern (exponent and fraction) as one binary64 pattern (R37). -/
def pack (neg : Bool) (pattern : Nat) : F64 := BitVec.ofNat 64 (neg.toNat * 2 ^ 63 + pattern)

/-- The magnitude pattern of an infinity. -/
def infPattern : Nat := 2047 * 2 ^ 52

/-- Round to nearest, ties to even, of the quotient `n / d`. -/
def roundDiv (n d : Nat) : Nat :=
  let q := n / d
  let r := n % d
  if d < 2 * r ∨ (2 * r = d ∧ q % 2 = 1) then q + 1 else q

/-- The magnitude pattern of the binary64 nearest to `(n / d) * 2^-1074`, ties to even, overflow to infinity (R14).
With the unit in the last place `2^e` units, the pattern of `m * 2^e` is `e * 2^52 + m`: a carry to `m = 2^53` moves
into the exponent field by itself, and `e = 0` covers the subnormals. -/
def roundMag (n d : Nat) : Nat :=
  let e := (n / d).log2 - 52
  min (e * 2 ^ 52 + roundDiv n (d * 2 ^ e)) infPattern

/-- `fl(n / d)` for an integer `n` and a positive `d` (R14); a real zero gives +0.0. -/
def fl (n : Int) (d : Nat) : F64 := pack (decide (n < 0)) (roundMag (n.natAbs * unit) d)

/-- An infinity of a given sign. -/
def inf (neg : Bool) : F64 := pack neg infPattern

/-- The NaN an operation gives: some NaN, its sign and fraction free (R97, log entry 4). -/
def nan (op : FloatOp) (a b : F64) : F64 :=
  let free := Config.nanBits op a b
  pack (sign free) (infPattern + (if fraction free = 0 then 2 ^ 51 else fraction free))

/-- The sum of two finite values whose second sign is `sb`; an exact zero sum is +0.0 unless both signs are minus. -/
def addFinite (a b : F64) (sb : Bool) : F64 :=
  let s := scaled a + (if sb then -(mag b : Int) else (mag b : Int))
  if s = 0 then pack (sign a && sb) 0 else pack (decide (s < 0)) (roundMag s.natAbs 1)

/-- A sum with the second operand's sign given, so that `fadd` and `fsub` share it (R14). -/
def addSigned (op : FloatOp) (a b : F64) (sb : Bool) : F64 :=
  if isNaN a || isNaN b then nan op a b
  else if isInf a then (if isInf b && (sign a != sb) then nan op a b else inf (sign a))
  else if isInf b then inf sb
  else addFinite a b sb

/-- `fadd(a, b) = fl(a + b)` (R14). -/
def fadd (a b : F64) : F64 := addSigned .add a b (sign b)

/-- `fsub(a, b) = fl(a − b)` (R14). -/
def fsub (a b : F64) : F64 := addSigned .sub a b (!sign b)

/-- `fmul(a, b) = fl(a * b)` (R14). -/
def fmul (a b : F64) : F64 :=
  let neg := sign a != sign b
  if isNaN a || isNaN b then nan .mul a b
  else if isInf a || isInf b then (if isZero a || isZero b then nan .mul a b else inf neg)
  else pack neg (roundMag (mag a * mag b) unit)

/-- `fdiv(a, b) = fl(a / b)` (R14). -/
def fdiv (a b : F64) : F64 :=
  let neg := sign a != sign b
  if isNaN a || isNaN b then nan .div a b
  else if isInf a then (if isInf b then nan .div a b else inf neg)
  else if isInf b then pack neg 0
  else if isZero b then (if isZero a then nan .div a b else inf neg)
  else pack neg (roundMag (mag a * unit) (mag b))

/-- `floor(q)` as an integer, exact for a finite q (R14). -/
def floorInt (q : F64) : Int := scaled q / (unit : Int)

/-- `floor(q)` as a binary64: the floor of a zero is that zero, its sign kept (R107). -/
def floor (q : F64) : F64 := if isZero q then q else fl (floorInt q) 1

/-- `roundHalfUp(a) = floor(a + 1/2)`, exact in the reals (R14, R112). -/
def roundHalfUp (a : F64) : Int := (2 * scaled a + (unit : Int)) / (2 * (unit : Int))

/-- `odd(v)` for an integer-valued binary64, with the non-negative remainder (R14). -/
def odd (v : F64) : Bool := floorInt v % 2 == 1

/-- `|q| ≥ 2^53`; an infinity or a NaN counts as beyond the bound (R104). -/
def huge (q : F64) : Bool := decide (2 ^ 53 * unit ≤ mag q)

/-- 1.0. -/
def one : F64 := 0x3FF0000000000000#64

/-- `finite(t) and t ≥ 1.0` (R135). -/
def finiteAtLeastOne (t : F64) : Bool := finite t && decide ((unit : Int) ≤ scaled t)

end Sys2Proof.Machine.Fp
end

