-- ==== Sys2Proof/Machine/Operands.lean ====
section
/-! DEFINITION. The operands of a command and the acceptance checks on them: SIZE (R134), the effective position
(R102) and the tolerance (R135); and what an aperture offset names (R24, R50, R51). -/

namespace Sys2Proof.Machine

/-- A power of two from 2 to 64, the sizes of the FFTs (R134). -/
def powerOfTwo (size : Nat) : Bool :=
  size == 2 || size == 4 || size == 8 || size == 16 || size == 32 || size == 64

/-- What ALG asks of SIZE beside 2 ≤ SIZE ≤ MAX_SIZE (R65, R134). -/
def algAllows (alg : Alg) (size : Nat) : Bool :=
  match alg with
  | .fft1d | .fft2d => powerOfTwo size
  | .dct2d => true
  | .fdct8 | .fdctlee => size == 8

/-- `size_ok(alg, size)` (R134). -/
def sizeOk (maxSize : Nat) (alg : Alg) (size : Nat) : Bool :=
  decide (2 ≤ size) && decide (size ≤ maxSize) && algAllows alg size

/-- The static position of ALG (R65, R102): 0, SIZE² − 1, and none for FFT1D. -/
def staticPosition (alg : Alg) (size : Nat) : Option Nat :=
  match alg with
  | .fft1d => none
  | .fft2d | .dct2d => some 0
  | .fdct8 | .fdctlee => some (size * size - 1)

/-- The position POSSEL selects, before its range check (R66, R102). -/
def selectedPosition (f : CmdFields) (pos : BitVec 16) : Option Nat :=
  match f.possel with
  | .reg => some pos.toNat
  | .static => staticPosition f.alg f.size

/-- `effective_position(d)` (R102): none where R102 raises BAD_POS. -/
def effectivePosition (f : CmdFields) (pos : BitVec 16) : Option Nat :=
  match selectedPosition f pos with
  | none => none
  | some p => if p < f.size * f.size then some p else none

/-- The tolerance check: finite and at least 1.0 (R135). -/
def toleranceOk (t : F64) : Bool := Fp.finiteAtLeastOne t

/-- The commands that use POS and TOL (R70, R133). -/
def BlockOp.usesParity : BlockOp → Bool
  | .fwd | .inv => false
  | .setbit | .getbit | .embed | .extract => true

/-- The number of entries of the current command's block, N = SIZE² (R67). -/
def Current.entries (c : Current) : Nat := c.size * c.size

/-- The command in progress, from its latches; POSSEL is spent once `cur.epos` is latched. -/
def Current.instr (c : Current) : Instr :=
  let f : CmdFields := { alg := c.alg, bit := c.bit, possel := .reg, size := c.size }
  match c.op with
  | .fwd => .fwd f
  | .inv => .inv f
  | .setbit => .setbit f
  | .getbit => .getbit f
  | .embed => .embed f
  | .extract => .extract f

/-- The offset of RE[0] (R24). -/
def reBase : Nat := 0x8000

/-- The offset of IM[0] (R24). -/
def imBase : Nat := 0x10000

/-- The end of the aperture (R46). -/
def apertureSize : Nat := 0x18000

/-- The aperture offset of entry `i` of the buffer at `base` (R35, R36). -/
def entryOffset (base i : Nat) : Nat := base + 8 * i

/-- What the word at an aligned offset of the register window is (R24); none from 0x040 on (R51). -/
def registerAt (off : Nat) : Option Target :=
  match off / 8 with
  | 0 => some .id
  | 1 => some .cfg
  | 2 => some .ctrl
  | 3 => some .status
  | 4 => some .pos
  | 5 => some .tol
  | 6 => some .cmd
  | 7 => some .result
  | _ => none

/-- What an aligned offset names, for buffers of `maxN` entries (R50); none for an unmapped one (R51) and for one outside
the aperture (log entry 22). -/
def mapped (maxN off : Nat) : Option Target :=
  if off < reBase then registerAt off
  else if off < imBase then (if (off - reBase) / 8 < maxN then some (.re ((off - reBase) / 8)) else none)
  else if off < apertureSize then (if (off - imBase) / 8 < maxN then some (.im ((off - imBase) / 8)) else none)
  else none

/-- The target of a request of `size` bytes at `off`; none where R52 and R53 raise BusError: a size other than 8 (R48), a
misaligned offset (R49) or an unmapped one (R51). -/
def locate (maxN off size : Nat) : Option Target :=
  if size ≠ 8 ∨ off % 8 ≠ 0 then none else mapped maxN off

/-- POS, TOL, CMD, RE and IM stall while BUSY; ID, CFG, CTRL, STATUS and RESULT never do (R158). -/
def Target.stalls : Target → Bool
  | .pos | .tol | .cmd | .re _ | .im _ => true
  | .id | .cfg | .ctrl | .status | .result => false

/-- The target a request names, if any. -/
def Request.target (maxN : Nat) : Request → Option Target
  | .read off size => locate maxN off size
  | .write off size _ => locate maxN off size

end Sys2Proof.Machine
end

