-- ==== Sys2Proof/Machine/Realization.lean ====
section
/-! DEFINITION. What a realization of the ten transforms is (R8, R96) and the law that binds every one: the round trip of
R95 within the open bound RT_EPS of R9. The realizations other than REF are free beyond that law (log entries 3, 23). -/

namespace Sys2Proof.Machine

/-- The real and the imaginary buffer entries of one block. -/
abbrev Block := List F64 × List F64

/-- XFORM_NUMERICS as a function: algorithm, direction, size and input block to output block (R8, R96). -/
abbrev Realizer := Alg → Direction → Nat → Block → Block

/-- The exact value of a finite binary64 (R14, R37). -/
def Exact.value (x : F64) : ℚ := (Fp.scaled x : ℚ) / (Fp.unit : ℚ)

/-- The block an algorithm works on: a DCT has no imaginary part (R94). -/
def blockOf (alg : Alg) (x y : List F64) : Block := (x, if alg.usesIm then y else [])

/-- `out` comes back to `x` within a bound: the same number of entries, every one finite, and none farther from its
entry of `x` than the bound. -/
def BackWithin (bound : ℝ) (x out : List F64) : Prop :=
  out.length = x.length ∧
    ∀ i < x.length, Fp.finite (out.getD i 0#64) = true ∧
      |((Exact.value (out.getD i 0#64) - Exact.value (x.getD i 0#64) : ℚ) : ℝ)| ≤ bound

/-- The tolerance of R9 for one realization: `eps` is a non-negative real, and INV(FWD(x)) is within `eps * M * N` of
every block `x` of finite entries that are `allowed`, `M` being their largest magnitude and N = SIZE². -/
def RoundTripWithin (f : Realizer) (eps M : ℝ) (allowed : ℚ → Prop) : Prop :=
  0 ≤ eps ∧ ∀ (alg : Alg) (S : Nat) (x y : List F64), sizeOk 64 alg S = true →
    x.length = S * S → y.length = S * S → (∀ v ∈ x ++ y, Fp.finite v = true ∧ allowed (Exact.value v)) →
    let back := f alg .inverse S (f alg .forward S (blockOf alg x y))
    BackWithin (eps * M * (S * S : Nat)) x back.1 ∧
      (alg.usesIm = true → BackWithin (eps * M * (S * S : Nat)) y back.2)

/-- R9 in its own words, for inputs of magnitude at most `M`. -/
def ToleranceLaw (f : Realizer) (eps M : ℝ) : Prop := RoundTripWithin f eps M fun q => |((q : ℚ) : ℝ)| ≤ M

/-- The round-trip law R95 asks of every realization: the tolerance of R9 on inputs of byte range, 0 to 255, at every
size some MAX_SIZE allows. Log entry 23 says why it binds there and not at every magnitude. -/
def RoundTripLaw (f : Realizer) (eps : ℝ) : Prop := RoundTripWithin f eps 255 fun q => 0 ≤ q ∧ q ≤ 255

/-- What a realization writes, entry by entry, as a function of algorithm, direction, size and input block (R96). -/
abbrev EntryFunction := Alg → Direction → Nat → List F64 → List F64 → Nat → F64 × F64

/-- The output blocks of an entry function: N entries in RE and, for an FFT, N in IM (R81, R82, R94). -/
def EntryFunction.realizer (entry : EntryFunction) : Realizer := fun alg dir S z =>
  let out := (List.range (S * S)).map (entry alg dir S z.1 z.2)
  blockOf alg (out.map Prod.fst) (out.map Prod.snd)

/-- A realization of the transforms: its output entries, and that it obeys the round-trip law within some RT_EPS, a
non-negative real of its own (R8, R9, R95). -/
structure Realization where
  entry     : EntryFunction
  roundTrip : ∃ eps : ℝ, RoundTripLaw entry.realizer eps

/-- The realization's output blocks. -/
def Realization.realizer (r : Realization) : Realizer := r.entry.realizer

/-- RT_EPS of a realization (R9): an open number, of which nothing is known but the law it bounds. -/
noncomputable def Realization.rtEps (r : Realization) : ℝ := Classical.choose r.roundTrip

/-- R95 for every realization. -/
theorem Realization.obeys (r : Realization) : RoundTripLaw r.realizer r.rtEps := Classical.choose_spec r.roundTrip

/-- The entries of a block as they are. -/
def copyEntry : EntryFunction := fun _ _ _ re im i => (re.getD i 0#64, im.getD i 0#64)

theorem copyEntry_realizer (alg : Alg) (dir : Direction) (S : Nat) (x y : List F64) (hx : x.length = S * S)
    (hy : y.length = S * S) : copyEntry.realizer alg dir S (blockOf alg x y) = blockOf alg x y := by
  have h : ∀ z : List F64, z.length = S * S → (List.range (S * S)).map (fun i => z.getD i 0#64) = z := by
    intro z hz
    refine List.ext_getElem (by simp [hz]) fun i h1 h2 => ?_
    rw [List.getElem_map, List.getElem_range, List.getD_eq_getElem _ _ h2]
  cases ha : alg.usesIm <;>
    simp [EntryFunction.realizer, copyEntry, blockOf, ha, Function.comp_def, h x hx, h y hy, -List.getD_eq_getElem?_getD]

/-- The law has a realization that obeys it, so it can be asked of a free one without contradiction. -/
def Realization.copy : Realization where
  entry := copyEntry
  roundTrip := by
    refine ⟨0, le_refl 0, fun alg S x y _ hx hy hv => ?_⟩
    simp only [copyEntry_realizer alg _ S x y hx hy]
    have h : ∀ z : List F64, (∀ v ∈ z, Fp.finite v = true) → BackWithin (0 * 255 * (S * S : Nat)) z z := by
      refine fun z hz => ⟨rfl, fun i hi => ⟨?_, by simp⟩⟩
      rw [List.getD_eq_getElem _ _ hi]
      exact hz _ (List.getElem_mem hi)
    refine ⟨h x fun v hm => (hv v (by simp [hm])).1, fun ha => ?_⟩
    simpa [blockOf, ha] using h y fun v hm => (hv v (by simp [hm])).1

end Sys2Proof.Machine

namespace Sys2Proof

/-- FREE VALUE (log entry 3): the `k`-th realization other than REF. Nothing is known of it but what every realization
obeys; `dflt` only shows that there is one. -/
opaque Config.otherRealization (k : Nat) (dflt : Inhabited Machine.Realization) : Machine.Realization

end Sys2Proof

namespace Sys2Proof.Machine

/-- The `k`-th realization other than REF, as a function. -/
def otherXform (k : Nat) : Realizer := (Config.otherRealization k ⟨Realization.copy⟩).realizer

end Sys2Proof.Machine
end

