-- ==== Sys2Proof/Machine/Trig.lean ====
section
/-! DEFINITION. The constants of the reference realization (R99): "every constant is the exact real rounded once
with fl". Each real is computed in fixed point with 192 fraction bits and rounded once; log entry 8 says why the
rounding comes out as that of the exact real for every constant a legal command uses. -/

namespace Sys2Proof.Machine.Trig

/-- 2^192: a fixed-point number `c` stands for the real `c / scale`. -/
def scale : Nat := 2 ^ 192

/-- The integer part of `π * 2^192`. -/
def piFixed : Nat := 0x3243f6a8885a308d313198a2e03707344a4093822299f31d0

/-- `t - t x²/((2k+1)(2k+2)) + …`: `fuel` terms of the alternating cosine series from the term `t` of index `k` on,
`x2` being `x²`, all in fixed point. -/
def cosSeries (x2 : Nat) : Nat → Nat → Nat → Int
  | 0, _, _ => 0
  | fuel + 1, k, t => (t : Int) - cosSeries x2 fuel (k + 1) (t * x2 / (scale * ((2 * k + 1) * (2 * k + 2))))

/-- `cos(π p / q)` in fixed point for `p / q` in [0, 1/2]; thirty terms leave less than 2^-192. -/
def cosQuarter (p q : Nat) : Int :=
  let x := piFixed * p / q
  cosSeries (x * x / scale) 30 0 scale

/-- `cos(π p / q)` in fixed point, `q` positive: the angle is reduced exactly to the first quarter, so that the zeros
of the cosine are exact zeros. -/
def cosPi (p q : Nat) : Int :=
  let r := p % (2 * q)
  let r := if q < r then 2 * q - r else r
  if 2 * r = q then 0
  else if q < 2 * r then -cosQuarter (q - r) q
  else cosQuarter r q

/-- `sin(π p / q) = cos(π (2 p + 3 q) / (2 q))`. -/
def sinPi (p q : Nat) : Int := cosPi (2 * p + 3 * q) (2 * q)

/-- The integer square root of `n`, bit by bit: `b` bits below the ones already in `r`. -/
def isqrt (n : Nat) : Nat → Nat → Nat
  | 0, r => r
  | b + 1, r => isqrt n b (if (r + 2 ^ b) * (r + 2 ^ b) ≤ n then r + 2 ^ b else r)

/-- `√(n / d)` in fixed point, for `n / d` at most 1. -/
def sqrtFixed (n d : Nat) : Nat := isqrt (n * (scale * scale) / d) 193 0

/-- `fl(cos(2 π m / L))`, the twiddle `c` of R99. -/
def twiddleCos (L m : Nat) : F64 := Fp.fl (cosPi (2 * m) L) scale

/-- `fl(s * sin(2 π m / L))`, the twiddle `t` of R99: s = −1 forward, +1 inverse. -/
def twiddleSin (dir : Direction) (L m : Nat) : F64 :=
  match dir with
  | .forward => Fp.fl (-sinPi (2 * m) L) scale
  | .inverse => Fp.fl (sinPi (2 * m) L) scale

/-- `fl(C_S(k, n))` with `C_S(k, n) = α_S(k) cos(π (2 n + 1) k / (2 S))`, `α_S(0) = √(1/S)`, else `√(2/S)` (R88). -/
def dctCoeff (S k n : Nat) : F64 :=
  Fp.fl ((sqrtFixed (if k = 0 then 1 else 2) S : Int) * cosPi ((2 * n + 1) * k) (2 * S)) (scale * scale)

/-- `fl(cos(π (2 n + 1) k / 16))`, the unscaled kernel of FDCTLEE (R92, R99). -/
def leeForward (k n : Nat) : F64 := Fp.fl (cosPi ((2 * n + 1) * k) 16) scale

/-- `fl(λ(k) cos(π (2 n + 1) k / 16))`, `λ(0) = 1/8`, else `1/4` (R93, R99). -/
def leeInverse (k n : Nat) : F64 := Fp.fl (cosPi ((2 * n + 1) * k) 16) (scale * (if k = 0 then 8 else 4))

end Sys2Proof.Machine.Trig
end

