-- ==== Sys2Proof/Machine/Reference.lean ====
section
/-! DEFINITION. REF, the reference realization of the ten transforms (R99): direct summation in binary64, sums in
increasing index order from +0.0, rows before columns; and XFORM_NUMERICS as the configuration selects it (R8, R96). -/

namespace Sys2Proof.Machine

/-- One entry of a square block, element (r, c) at r*S + c (R12); the lists below always hold it. -/
def elem (S : Nat) (x : List F64) (r c : Nat) : F64 := x.getD (r * S + c) 0#64

/-- The inner loop of `dft1` for output `k`: from index `n` on, over what is left of `a` and `b` (R99). -/
def dftSum (L : Nat) (dir : Direction) (k : Nat) : Nat → List F64 → List F64 → F64 → F64 → F64 × F64
  | n, x :: a, y :: b, accR, accI =>
    let c := Trig.twiddleCos L (k * n % L)
    let t := Trig.twiddleSin dir L (k * n % L)
    dftSum L dir k (n + 1) a b
      (Fp.fadd accR (Fp.fsub (Fp.fmul x c) (Fp.fmul y t)))
      (Fp.fadd accI (Fp.fadd (Fp.fmul x t) (Fp.fmul y c)))
  | _, _, _, accR, accI => (accR, accI)

/-- `dft1(L, s, a, b)` of R99, unscaled. -/
def dft1 (L : Nat) (dir : Direction) (z : Block) : Block :=
  let out := (List.range L).map fun k => dftSum L dir k 0 z.1 z.2 0#64 0#64
  (out.map Prod.fst, out.map Prod.snd)

/-- A positive integer as a binary64, the divisor N or S of an inverse FFT (R99). -/
def natF64 (n : Nat) : F64 := Fp.fl n 1

/-- One 1-D FFT pass of R99: `dft1`, and for the inverse each component divided by the pass's length. -/
def fftPass (L : Nat) (dir : Direction) (z : Block) : Block :=
  let out := dft1 L dir z
  match dir with
  | .forward => out
  | .inverse => (out.1.map fun v => Fp.fdiv v (natF64 L), out.2.map fun v => Fp.fdiv v (natF64 L))

/-- The rows of a flattened S×S block. -/
def rows (S : Nat) (x : List F64) : List (List F64) :=
  (List.range S).map fun r => (List.range S).map fun c => elem S x r c

/-- The transpose of a flattened S×S block. -/
def transpose (S : Nat) (x : List F64) : List F64 :=
  (List.range S).flatMap fun c => (List.range S).map fun r => elem S x r c

/-- A 1-D FFT pass on each row. -/
def fftRows (S : Nat) (dir : Direction) (z : Block) : Block :=
  let out := (List.zip (rows S z.1) (rows S z.2)).map fun row => fftPass S dir row
  (out.flatMap Prod.fst, out.flatMap Prod.snd)

/-- FFT2D of R99: each row, then each column. -/
def fft2 (S : Nat) (dir : Direction) (z : Block) : Block :=
  let byRows := fftRows S dir z
  let byColumns := fftRows S dir (transpose S byRows.1, transpose S byRows.2)
  (transpose S byColumns.1, transpose S byColumns.2)

/-- A dot product in increasing index order from `acc`: `coeff n` times the `n`-th value (R99). -/
def dotFrom (coeff : Nat → F64) : Nat → List F64 → F64 → F64
  | _, [], acc => acc
  | n, x :: xs, acc => dotFrom coeff (n + 1) xs (Fp.fadd acc (Fp.fmul (coeff n) x))

/-- `pass(S, K, in)` of R99: out[k] sums fl(K(k, n)) in[n] over n. -/
def dctPass (S : Nat) (K : Nat → Nat → F64) (x : List F64) : List F64 :=
  (List.range S).map fun k => dotFrom (fun n => K k n) 0 x 0#64

/-- `ipass(S, K, in)` of R99, the transpose use: out[n] sums fl(K(k, n)) in[k] over k. -/
def dctInversePass (S : Nat) (K : Nat → Nat → F64) (x : List F64) : List F64 :=
  (List.range S).map fun n => dotFrom (fun k => K k n) 0 x 0#64

/-- A 1-D pass on each row, then on each column, of a flattened S×S block. -/
def rowsThenColumns (S : Nat) (pass : List F64 → List F64) (x : List F64) : List F64 :=
  let onRows := fun y => (rows S y).flatMap pass
  transpose S (onRows (transpose S (onRows x)))

/-- 128.0, the level shift of DCT2D (R88, R89). -/
def levelShift : F64 := 0x4060000000000000#64

/-- DCT2D under REF: the orthonormal kernel with the level shift before the forward and after the inverse (R99). -/
def refDct2d (dir : Direction) (S : Nat) (x : List F64) : List F64 :=
  match dir with
  | .forward => rowsThenColumns S (dctPass S (Trig.dctCoeff S)) (x.map fun v => Fp.fsub v levelShift)
  | .inverse => (rowsThenColumns S (dctInversePass S (Trig.dctCoeff S)) x).map fun v => Fp.fadd v levelShift

/-- FDCT8 under REF: as DCT2D with S = 8 and no shift (R99). -/
def refFdct8 (dir : Direction) (x : List F64) : List F64 :=
  match dir with
  | .forward => rowsThenColumns 8 (dctPass 8 (Trig.dctCoeff 8)) x
  | .inverse => rowsThenColumns 8 (dctInversePass 8 (Trig.dctCoeff 8)) x

/-- FDCTLEE under REF: the unscaled kernel forward, the λ-weighted one inverse (R99). -/
def refFdctlee (dir : Direction) (x : List F64) : List F64 :=
  match dir with
  | .forward => rowsThenColumns 8 (dctPass 8 Trig.leeForward) x
  | .inverse => rowsThenColumns 8 (dctInversePass 8 Trig.leeInverse) x

/-- REF (R99): the realization of the reference configuration, on one block of side `S`. -/
def refXform : Realizer := fun alg dir S z =>
  match alg with
  | .fft1d => fftPass (S * S) dir z
  | .fft2d => fft2 S dir z
  | .dct2d => (refDct2d dir S z.1, [])
  | .fdct8 => (refFdct8 dir z.1, [])
  | .fdctlee => (refFdctlee dir z.1, [])

/-- XFORM_NUMERICS (R8, R96): the configuration's realization, a function of algorithm, direction, size and input block
alone; a DCT algorithm has no imaginary output (R94). Another realization than REF is free but for the round-trip law
that binds every one (R95, log entry 3). -/
def xform (num : Numerics) : Realizer :=
  match num with
  | .reference => refXform
  | .other k => otherXform k

end Sys2Proof.Machine
end

