-- ==== Sys2Proof/Machine/Ops.lean ====
section
/-! DEFINITION. The shared operations: bytes and entries of the buffers (R35, R36, R47), acceptance and its errors
(R133, R136, R137), the phases of a command (R22, R164), and both resets (R124, R125, R151, R152). -/

namespace Sys2Proof.Machine

/-- The canonical form of a buffer: offsets strictly rising. -/
def Memory.wf : Memory → Bool
  | [] => true
  | [_] => true
  | a :: b :: m => decide (a.1 < b.1) && Memory.wf (b :: m)

/-- The byte at an aperture offset; none if it is UNKNOWN (R42). -/
def Memory.readByte : Memory → Nat → Option Byte
  | [], _ => none
  | c :: m, a => if c.1 = a then some c.2 else Memory.readByte m a

/-- Writing one byte, at its place in the rising order. -/
def Memory.writeByte : Memory → Nat → Byte → Memory
  | [], a, v => [(a, v)]
  | c :: m, a, v =>
    if a < c.1 then (a, v) :: c :: m
    else if a = c.1 then (a, v) :: m
    else c :: Memory.writeByte m a v

/-- Making one byte UNKNOWN again (R125). -/
def Memory.eraseByte : Memory → Nat → Memory
  | [], _ => []
  | c :: m, a => if c.1 = a then Memory.eraseByte m a else c :: Memory.eraseByte m a

/-- `n` bytes from `off` on as a little-endian number, none if one of them is UNKNOWN (R47). -/
def Memory.readBytes (m : Memory) (off : Nat) : Nat → Option Nat
  | 0 => some 0
  | n + 1 =>
    match m.readByte off, Memory.readBytes m (off + 1) n with
    | some b, some hi => some (b.toNat + 256 * hi)
    | _, _ => none

/-- The `n` low bytes of `v` to `off` on, little-endian (R47). -/
def Memory.writeBytes (m : Memory) (off v : Nat) : Nat → Memory
  | 0 => m
  | n + 1 => Memory.writeBytes (m.writeByte off (BitVec.ofNat 8 v)) (off + 1) (v / 256) n

/-- `n` bytes from `off` on become UNKNOWN. -/
def Memory.eraseBytes (m : Memory) (off : Nat) : Nat → Memory
  | 0 => m
  | n + 1 => Memory.eraseBytes (m.eraseByte off) (off + 1) n

/-- The 64-bit entry at an offset (R35, R47); none if it is UNKNOWN. -/
def Memory.readEntry (m : Memory) (off : Nat) : Option Word := (m.readBytes off 8).map (BitVec.ofNat 64)

/-- Writing a 64-bit entry, all of it at once (R47, R54). -/
def Memory.writeEntry (m : Memory) (off : Nat) (v : Word) : Memory := m.writeBytes off v.toNat 8

/-- `n` entries from `off` on; none if one of them is UNKNOWN. -/
def Memory.readEntries (m : Memory) (off : Nat) : Nat → Option (List Word)
  | 0 => some []
  | n + 1 =>
    match m.readEntry off, Memory.readEntries m (off + 8) n with
    | some v, some vs => some (v :: vs)
    | _, _ => none

/-- Writing entries from `off` on. -/
def Memory.writeEntries (m : Memory) (off : Nat) : List Word → Memory
  | [] => m
  | v :: vs => Memory.writeEntries (m.writeEntry off v) (off + 8) vs

/-- The entries `0 … n-1` of the buffer at `base` become UNKNOWN (R125). -/
def Memory.eraseEntries (m : Memory) (base n : Nat) : Memory := m.eraseBytes base (8 * n)

/-- `RE[i]` (R12); none if it is UNKNOWN. -/
def State.reEntry (s : State) (i : Nat) : Option F64 := s.re.readEntry (entryOffset reBase i)

/-- `IM[i]` (R12); none if it is UNKNOWN. -/
def State.imEntry (s : State) (i : Nat) : Option F64 := s.im.readEntry (entryOffset imBase i)

/-- `RE[i] <- v` (R12). -/
def State.setRe (s : State) (i : Nat) (v : F64) : State := { s with re := s.re.writeEntry (entryOffset reBase i) v }

/-- `IM[i] <- v` (R12). -/
def State.setIm (s : State) (i : Nat) (v : F64) : State := { s with im := s.im.writeEntry (entryOffset imBase i) v }

/-- The input block of a transform: RE[0..N−1] and, for the FFTs, IM[0..N−1] (R38, R94); none if an entry it reads is
UNKNOWN (R42). -/
def State.readBlock (s : State) (alg : Alg) (n : Nat) : Option Block :=
  match s.re.readEntries reBase n with
  | none => none
  | some re =>
    if alg.usesIm then
      match s.im.readEntries imBase n with
      | none => none
      | some im => some (re, im)
    else some (re, [])

/-- The output block of a transform: RE and, for the FFTs, IM (R94). -/
def State.writeBlock (s : State) (alg : Alg) (z : Block) : State :=
  { s with
    re := s.re.writeEntries reBase z.1
    im := if alg.usesIm then s.im.writeEntries imBase z.2 else s.im }

/-- How the body of a command, or of one phase of a compound one, ends: with a state to go on from, with NUMERIC
raised in a state (R110), or by reading an UNKNOWN entry (R42). -/
inductive BodyResult where
  | ok (s : State)
  | numeric (s : State)
  | unknown
  deriving DecidableEq, Repr

/-- The next phase of a compound command runs only where the one before went through (R114, R115). -/
def BodyResult.andThen (r : BodyResult) (next : State → BodyResult) : BodyResult :=
  match r with
  | .ok s => next s
  | .numeric s => .numeric s
  | .unknown => .unknown

/-- Completion (R164): BUSY clears, DONE is set, or NUMERIC is raised; an UNKNOWN entry read is a fault (R42). -/
def BodyResult.conclude : BodyResult → Host.Outcome State Fault Refusal
  | .ok s => .next s.finish
  | .numeric s => .next (s.raiseError .numeric)
  | .unknown => .fault .commandReadUnknown

/-- The latches of a command that passed every check, and BUSY (R133). -/
def State.latch (s : State) (op : BlockOp) (f : CmdFields) : State :=
  { s with fsm := .busy, cur := { s.cur with op := op, alg := f.alg, bit := f.bit, size := f.size } }

/-- `cur.epos <- epos; RESULT.EPOS <- epos; cur.tol <- TOL` (R133). -/
def State.latchParity (s : State) (p : Nat) : State :=
  { s with epos := BitVec.ofNat 16 p, cur := { s.cur with epos := BitVec.ofNat 16 p, tol := s.tol } }

/-- Acceptance of a decoded command other than NOP in IDLE, its checks in the order of R133. -/
def State.acceptBlock (s : State) (op : BlockOp) (f : CmdFields) : State :=
  let s := s.beginAcceptance
  if !sizeOk s.cfg.maxSize f.alg f.size then s.raiseError .badSize
  else if op.usesParity then
    match effectivePosition f s.pos with
    | none => s.raiseError .badPos
    | some p => if !toleranceOk s.tol then s.raiseError .badTol else (s.latchParity p).latch op f
  else s.latch op f

/-- The meaning of a block command by the engine's state: its acceptance in IDLE (R133), its completion in BUSY (R164),
nothing in HALTED (R138); log entry 1. -/
def State.byPhase (s : State) (op : BlockOp) (f : CmdFields) (body : State → BodyResult) :
    Host.Outcome State Fault Refusal :=
  match s.fsm with
  | .idle => .next (s.acceptBlock op f)
  | .busy => (body s).conclude
  | .halted => .next s

/-- Abort of a BUSY command (R125): its block becomes UNKNOWN, in IM only for the FFTs. -/
def State.abortCurrent (s : State) : State :=
  { s with
    re := s.re.eraseEntries reBase s.cur.entries
    im := if s.cur.alg.usesIm then s.im.eraseEntries imBase s.cur.entries else s.im }

/-- `soft_reset()` (R124): the registers as after reset, the buffers kept but for an aborted command's block. -/
def State.softReset (s : State) : State :=
  let s := if s.busy then s.abortCurrent else s
  { s with
    fsm := .idle, irqEn := false, done := false, err := false, errCode := .none
    rbit := false, rvalid := false, epos := 0#16, pos := 0#16, tol := 0#64 }

/-- Hardware reset (R151, R153): every field as after reset, the buffers UNKNOWN; the configuration is the same engine's,
and what is still to come stays so. -/
def State.hardwareReset (s : State) : State := { State.resetOf s.cfg with events := s.events }

end Sys2Proof.Machine
end

