-- ==== Sys2Proof/Machine/Control.lean ====
section
/-! DEFINITION. NOP and the CTRL write (42_control.md). -/

namespace Sys2Proof.Machine

/-- NOP (R122): at acceptance DONE and RVALID are cleared and DONE is set. It is never BUSY, so it has no completion, and
in HALTED it is ignored (R138). -/
def execNop (s : State) : Host.Outcome State Fault Refusal :=
  match s.fsm with
  | .idle => .next { s.beginAcceptance with done := true }
  | .busy | .halted => .next s

/-- A CTRL write (R29, R123, R124): soft reset if bit 0 is set, whatever bit 1 holds, else IRQ_EN from bit 1. -/
def State.writeCtrl (s : State) (v : Word) : State :=
  if bit v 0 then s.softReset else { s with irqEn := bit v 1 }

end Sys2Proof.Machine
end

