-- ==== Sys2Proof/Machine/Transform.lean ====
section
/-! DEFINITION. The transform commands FWD and INV (40_transform.md). -/

namespace Sys2Proof.Machine

/-- The body of one transform, on the latched ALG and SIZE (R81, R82): the input block is read entirely, XFORM_NUMERICS
applied, and the output block written in place (R83, R96). -/
def transformBody (dir : Direction) (s : State) : BodyResult :=
  match s.readBlock s.cur.alg s.cur.entries with
  | none => .unknown
  | some z => .ok (s.writeBlock s.cur.alg (xform s.cfg.numerics s.cur.alg dir s.cur.size z))

/-- FWD body (R81). -/
def forwardBody (s : State) : BodyResult := transformBody .forward s

/-- INV body (R82): no clamping, no rounding to integers (R98). -/
def inverseBody (s : State) : BodyResult := transformBody .inverse s

/-- FWD (R81). -/
def execFwd (f : CmdFields) (s : State) : Host.Outcome State Fault Refusal := s.byPhase .fwd f forwardBody

/-- INV (R82). -/
def execInv (f : CmdFields) (s : State) : Host.Outcome State Fault Refusal := s.byPhase .inv f inverseBody

end Sys2Proof.Machine
end

