-- ==== Sys2Proof/Machine/Embedder.lean ====
section
/-! DEFINITION. The parity commands SETBIT, GETBIT, EMBED and EXTRACT (41_embedder.md). -/

namespace Sys2Proof.Machine

/-- `bucket(x, t)` (R104): the floor of the once-rounded quotient; none where R104 raises NUMERIC. -/
def bucket (x t : F64) : Option F64 :=
  if !Fp.finite x then none
  else
    let q := Fp.fdiv x t
    if Fp.huge q then none else some (Fp.floor q)

/-- `v2` (R105): the integer next to `v` whose parity is `b`, above for 1 and below for 0; exact, since |v2| ≤ 2^53. -/
def withParity (b : Bool) (v : F64) : F64 :=
  if b then (if Fp.odd v then v else Fp.fadd v Fp.one)
  else (if Fp.odd v then Fp.fsub v Fp.one else v)

/-- The value SETBIT writes for a coefficient `x`; none where it raises NUMERIC (R105, R110). -/
def setParity (b : Bool) (x t : F64) : Option F64 :=
  match bucket x t with
  | none => none
  | some v =>
    let y := Fp.fmul (withParity b v) t
    if Fp.finite y then some y else none

/-- The parity GETBIT reads from a coefficient `x`; none where it raises NUMERIC (R110, R111). -/
def getParity (x t : F64) : Option Bool :=
  if !Fp.finite x then none
  else
    let a := Fp.fdiv (Fp.abs x) t
    if Fp.huge a then none else some (Fp.roundHalfUp a % 2 == 1)

/-- SETBIT body (R105) on the latched BIT, epos and tol: only RE[epos] is read and written (R103). -/
def setbitBody (s : State) : BodyResult :=
  match s.reEntry s.cur.epos.toNat with
  | none => .unknown
  | some x =>
    match setParity s.cur.bit x s.cur.tol with
    | none => .numeric s
    | some y => .ok (s.setRe s.cur.epos.toNat y)

/-- GETBIT body (R111) on the latched epos and tol: no buffer entry is written. -/
def getbitBody (s : State) : BodyResult :=
  match s.reEntry s.cur.epos.toNat with
  | none => .unknown
  | some x =>
    match getParity x s.cur.tol with
    | none => .numeric s
    | some b => .ok { s with rbit := b, rvalid := true }

/-- EMBED body (R114): phases F, S and I; NUMERIC in phase S leaves the block forward-transformed (R115). -/
def embedBody (s : State) : BodyResult := ((forwardBody s).andThen setbitBody).andThen inverseBody

/-- EXTRACT body (R117): phases F and G; the coefficients stay in the buffers (R118). -/
def extractBody (s : State) : BodyResult := (forwardBody s).andThen getbitBody

/-- SETBIT (R105). -/
def execSetbit (f : CmdFields) (s : State) : Host.Outcome State Fault Refusal := s.byPhase .setbit f setbitBody

/-- GETBIT (R111). -/
def execGetbit (f : CmdFields) (s : State) : Host.Outcome State Fault Refusal := s.byPhase .getbit f getbitBody

/-- EMBED (R114). -/
def execEmbed (f : CmdFields) (s : State) : Host.Outcome State Fault Refusal := s.byPhase .embed f embedBody

/-- EXTRACT (R117). -/
def execExtract (f : CmdFields) (s : State) : Host.Outcome State Fault Refusal := s.byPhase .extract f extractBody

end Sys2Proof.Machine
end

