-- ==== Sys2Proof/Machine/Dispatch.lean ====
section
/-! DEFINITION. One arm per command of spec/opcode_table.json. -/

namespace Sys2Proof.Machine

def exec (i : Instr) (s : State) : Host.Outcome State Fault Refusal :=
  match i with
  | .nop => Sys2Proof.Machine.execNop s
  | .fwd f => Sys2Proof.Machine.execFwd f s
  | .inv f => Sys2Proof.Machine.execInv f s
  | .setbit f => Sys2Proof.Machine.execSetbit f s
  | .getbit f => Sys2Proof.Machine.execGetbit f s
  | .embed f => Sys2Proof.Machine.execEmbed f s
  | .extract f => Sys2Proof.Machine.execExtract f s

end Sys2Proof.Machine
end

