-- ==== Sys2Proof/Machine/Bus.lean ====
section
/-! DEFINITION. The bus port: reads (R52), writes (R53) with the acceptance of a CMD write (R133), the stall rule (R158),
and what one event does (R17, R164). -/

namespace Sys2Proof.Machine

/-- The port's response in this step. -/
def State.answering (s : State) (a : Option Answer) : State := { s with answer := a }

/-- `accept(w)` (R133) outside BUSY: ignored in HALTED (R138), else the decoder's fatal verdict raised (R137) or the
decoded command's own acceptance. -/
def accept (w : Word) (s : State) : Host.Outcome State Fault Refusal :=
  if s.halted then .next s
  else
    match decode w with
    | .fatal code => .next (s.beginAcceptance.raiseFatal code)
    | .cmd i => exec i s

/-- An entry of a buffer as a read answers it; an UNKNOWN one is a fault (R42). -/
def answerEntry (s : State) (v : Option Word) : Host.Outcome State Fault Refusal :=
  match v with
  | none => .fault .hostReadUnknown
  | some d => .next (s.answering (some (.okayRead d)))

/-- The value a register reads as (R24, R52); CMD reads 0 (R25). Buffer entries are read by `readTarget`. -/
def registerWord (s : State) : Target → Word
  | .id => idWord
  | .cfg => s.cfgWord
  | .ctrl => s.ctrlWord
  | .status => s.statusWord
  | .pos => s.posWord
  | .tol => s.tol
  | .result => s.resultWord
  | .cmd | .re _ | .im _ => 0#64

/-- `MemRead` of a mapped offset (R52): no side effect. -/
def readTarget (t : Target) (s : State) : Host.Outcome State Fault Refusal :=
  match t with
  | .re i => answerEntry s (s.reEntry i)
  | .im i => answerEntry s (s.imEntry i)
  | .id | .cfg | .ctrl | .status | .pos | .tol | .cmd | .result =>
    .next (s.answering (some (.okayRead (registerWord s t))))

/-- `MemWrite` of a mapped offset (R53), answered OKAY; ID, CFG and RESULT are read-only (R25). -/
def writeTarget (t : Target) (v : Word) (s : State) : Host.Outcome State Fault Refusal :=
  let s := s.answering (some .okayWrite)
  match t with
  | .id | .cfg | .result => .next s
  | .ctrl => .next (s.writeCtrl v)
  | .status => .next (s.statusW1C v)
  | .pos => .next { s with pos := BitVec.ofNat 16 v.toNat }
  | .tol => .next { s with tol := v }
  | .cmd => accept v s
  | .re i => .next (s.setRe i v)
  | .im i => .next (s.setIm i v)

/-- The port serves a request that does not stall (R45); one that names no target is answered ERROR with no effect
(R48, R49, R51, R140). -/
def serve (r : Request) (s : State) : Host.Outcome State Fault Refusal :=
  match r.target s.cfg.maxN with
  | none => .next (s.answering (some .error))
  | some t =>
    match r with
    | .read _ _ => readTarget t s
    | .write _ _ v => writeTarget t v s

/-- The stall rule (R158): while BUSY, an access to POS, TOL, CMD, RE or IM waits for the completion. -/
def stalled (r : Request) (s : State) : Bool :=
  s.busy && (match r.target s.cfg.maxN with
    | none => false
    | some t => t.stalls)

/-- The ENGINE's turn (R164): it completes the command in progress; when not BUSY it has nothing to do. -/
def engineTurn (s : State) : Host.Outcome State Fault Refusal :=
  match s.fsm with
  | .busy => exec s.cur.instr s
  | .idle | .halted => .next s

/-- What happens next (log entry 2). A stalled access stays where it is and the ENGINE completes; with nothing to come
the ENGINE completes as well, so that no command stays BUSY for ever (R164). -/
def advance (s : State) : Host.Outcome State Fault Refusal :=
  match s.events with
  | [] => engineTurn (s.answering none)
  | .tick :: rest => engineTurn { s with events := rest, answer := none }
  | .hardwareReset :: rest => .next { s with events := rest }.hardwareReset
  | .access r :: rest =>
    if stalled r s then engineTurn (s.answering none)
    else serve r { s with events := rest, answer := none }

/-- The host's write of a command word to CMD (R33). -/
def cmdWrite (w : Word) : Event := .access (.write 0x030 8 w)

end Sys2Proof.Machine
end

