-- ==== Sys2Proof/Machine/Step.lean ====
section
/-! DEFINITION. One step of the machine, and where its next command comes from. -/

namespace Sys2Proof.Machine

/-- One step: the next event at the engine (Machine/Bus.lean). -/
def step (s : State) : Host.Outcome State Fault Refusal := advance s

/-- The word of an opcode-table row as the next CMD write, to an engine that takes commands (fsm = IDLE, R22); no
command is fetched or stored anywhere (R21, R60; log entry 13). -/
def State.withFetchWord (s : State) (nbits w : Nat) : State :=
  { s with fsm := .idle, events := cmdWrite (BitVec.ofNat 64 (w % 2 ^ nbits)) :: s.events }

end Sys2Proof.Machine
end

