-- ==== Sys2Proof/Machine/Assembler.lean ====
section
/-! DEFINITION. The assembler and the host-program notation (R76 to R79) as abstract syntax: a command becomes its word,
a program line becomes the accesses it stands for. Log entry 24 says what the notation's text is taken as. -/

namespace Sys2Proof.Machine

/-- `<OP>` (R76). -/
inductive Mnemonic where
  | nop | fwd | inv | setbit | getbit | embed | extract
  deriving DecidableEq, Repr

/-- `<OP>[.<ALG>] [S=<size>] [B=<0|1>] [P=<REG|STATIC>]` (R76); `none` is an omitted field. -/
structure AsmCommand where
  op     : Mnemonic
  alg    : Option Alg
  size   : Option Nat
  bit    : Option Bool
  possel : Option PosSel
  deriving DecidableEq, Repr

/-- BIT is used by SETBIT and EMBED (R70). -/
def Mnemonic.usesBit : Mnemonic → Bool
  | .setbit | .embed => true
  | .nop | .fwd | .inv | .getbit | .extract => false

/-- POSSEL is used by SETBIT, GETBIT, EMBED and EXTRACT (R70). -/
def Mnemonic.usesPossel : Mnemonic → Bool
  | .setbit | .getbit | .embed | .extract => true
  | .nop | .fwd | .inv => false

/-- The command of a mnemonic with its fields. -/
def Mnemonic.instr (op : Mnemonic) (f : CmdFields) : Instr :=
  match op with
  | .nop => .nop
  | .fwd => .fwd f
  | .inv => .inv f
  | .setbit => .setbit f
  | .getbit => .getbit f
  | .embed => .embed f
  | .extract => .extract f

/-- The assembler (R76): a field an OP ignores, a SIZE above 255 and a missing ALG are refused, NOP takes no operands,
and an omitted field is 0. -/
def assemble (c : AsmCommand) : Option Instr :=
  if c.op = .nop then
    (if c.alg.isNone && c.size.isNone && c.bit.isNone && c.possel.isNone then some .nop else none)
  else
    match c.alg with
    | none => none
    | some alg =>
      let f : CmdFields :=
        { alg := alg, bit := c.bit.getD false, possel := c.possel.getD .reg, size := c.size.getD 0 }
      if (c.bit.isSome && !c.op.usesBit) || (c.possel.isSome && !c.op.usesPossel) || !f.wellFormed then none
      else some (c.op.instr f)

/-- The command word of an assembled command (R77). -/
def assembleWord (c : AsmCommand) : Option Word := (assemble c).map encode

/-- The offset of a register or buffer entry named in a program (R24, R78). -/
def Target.offset : Target → Nat
  | .id => 0x000
  | .cfg => 0x008
  | .ctrl => 0x010
  | .status => 0x018
  | .pos => 0x020
  | .tol => 0x028
  | .cmd => 0x030
  | .result => 0x038
  | .re i => entryOffset reBase i
  | .im i => entryOffset imBase i

/-- A decimal of a program as the fraction it is. -/
structure Decimal where
  num : Int
  den : Nat
  deriving DecidableEq, Repr

/-- The binary64 encoding of a decimal, `fl` of it (R78). -/
def Decimal.toF64 (d : Decimal) : F64 := Fp.fl d.num d.den

/-- One line of a host program (R78, R79). DESIGN CHOICE (log entry 24): how many RD STATUS of a WAIT still read BUSY = 1
is open, since LATENCY is not specified (R10, R164). Each WAIT carries its own number, and so EMBEDS has one for each of
its three, EXTRACTS one for each of its two. -/
inductive HostLine where
  | wr (t : Target) (v : Word)
  | wrf (t : Target) (d : Decimal)
  | rd (t : Target)
  | cmd (c : AsmCommand)
  | wait (polls : Nat)
  | ldblkRe (values : List Decimal)
  | ldblkIm (values : List Decimal)
  | zeroIm (n : Nat)
  | rdblkRe (n : Nat)
  | rdblkIm (n : Nat)
  | clrst
  | srst
  | embeds (alg : Alg) (size : Nat) (bit : Bool) (possel : PosSel) (pollsFwd pollsSetbit pollsInv : Nat)
  | extracts (alg : Alg) (size : Nat) (possel : PosSel) (pollsFwd pollsGetbit : Nat)
  deriving DecidableEq, Repr

/-- `WR <reg>` (R78). -/
def writeEvent (t : Target) (v : Word) : Event := .access (.write t.offset 8 v)

/-- `RD <reg>` (R78). -/
def readEvent (t : Target) : Event := .access (.read t.offset 8)

/-- `WAIT` (R79): RD STATUS until BUSY reads 0; the ENGINE's turn comes after `polls` reads, an open number (log 24). -/
def waitEvents (polls : Nat) : List Event :=
  List.replicate polls (readEvent .status) ++ [.tick, readEvent .status]

/-- `CMD <command>` (R78). -/
def commandEvents (c : AsmCommand) : Option (List Event) :=
  match assembleWord c with
  | none => none
  | some w => some [cmdWrite w]

/-- A list of decimals written to consecutive entries, each named by `entry`. -/
def loadEvents (entry : Nat → Target) : Nat → List Decimal → List Event
  | _, [] => []
  | i, d :: ds => writeEvent (entry i) d.toF64 :: loadEvents entry (i + 1) ds

/-- A command followed by WAIT. -/
def commandAndWait (c : AsmCommand) (polls : Nat) : Option (List Event) :=
  match commandEvents c with
  | none => none
  | some es => some (es ++ waitEvents polls)

/-- Parts of an expansion one after the other; none if one of them does not assemble. -/
def joinAll : List (Option (List Event)) → Option (List Event)
  | [] => some []
  | none :: _ => none
  | some es :: rest =>
    match joinAll rest with
    | none => none
    | some more => some (es ++ more)

/-- The accesses a program line stands for (R78, R79), each WAIT with its own number of polls (log entry 24); none where
the assembler refuses its command. -/
def HostLine.expand (l : HostLine) : Option (List Event) :=
  match l with
  | .wr t v => some [writeEvent t v]
  | .wrf t d => some [writeEvent t d.toF64]
  | .rd t => some [readEvent t]
  | .cmd c => commandEvents c
  | .wait polls => some (waitEvents polls)
  | .ldblkRe values => some (loadEvents .re 0 values)
  | .ldblkIm values => some (loadEvents .im 0 values)
  | .zeroIm n => some ((List.range n).map fun i => writeEvent (.im i) 0#64)
  | .rdblkRe n => some ((List.range n).map fun i => readEvent (.re i))
  | .rdblkIm n => some ((List.range n).map fun i => readEvent (.im i))
  | .clrst => some [writeEvent .status 0x6#64]
  | .srst => some [writeEvent .ctrl 0x1#64]
  | .embeds alg size bit possel pollsFwd pollsSetbit pollsInv =>
    joinAll
      [ commandAndWait { op := .fwd, alg := some alg, size := some size, bit := none, possel := none } pollsFwd
      , commandAndWait { op := .setbit, alg := some alg, size := some size, bit := some bit, possel := some possel } pollsSetbit
      , commandAndWait { op := .inv, alg := some alg, size := some size, bit := none, possel := none } pollsInv ]
  | .extracts alg size possel pollsFwd pollsGetbit =>
    joinAll
      [ commandAndWait { op := .fwd, alg := some alg, size := some size, bit := none, possel := none } pollsFwd
      , commandAndWait { op := .getbit, alg := some alg, size := some size, bit := none, possel := some possel } pollsGetbit ]

/-- The accesses of a whole program, line by line. -/
def programEvents (p : List HostLine) : Option (List Event) := joinAll (p.map HostLine.expand)

end Sys2Proof.Machine
end

