-- ==== Sys2Proof/Machine/Exact.lean ====
section
/-! DEFINITION. The exact transforms over the reals (R83 to R93). The machine never computes with them: they say what
XFORM_NUMERICS approximates (R8, R95), and claims are stated in them. -/

namespace Sys2Proof.Machine.Exact

open Finset

noncomputable section

/-- FFT1D forward (R84). -/
def fft1dForward (N : ℕ) (z : ℕ → ℂ) (k : ℕ) : ℂ :=
  ∑ n ∈ range N, z n * Complex.exp (-(2 * Real.pi * Complex.I * k * n / N))

/-- FFT1D inverse (R85). -/
def fft1dInverse (N : ℕ) (Z : ℕ → ℂ) (n : ℕ) : ℂ :=
  (1 / N) * ∑ k ∈ range N, Z k * Complex.exp (2 * Real.pi * Complex.I * k * n / N)

/-- FFT2D forward (R86), element (r, c) at r*S + c and coefficient (u, v) at u*S + v (R83). -/
def fft2dForward (S : ℕ) (z : ℕ → ℂ) (e : ℕ) : ℂ :=
  ∑ r ∈ range S, ∑ c ∈ range S,
    z (r * S + c) * Complex.exp (-(2 * Real.pi * Complex.I * ((e / S : ℕ) * r + (e % S : ℕ) * c) / S))

/-- FFT2D inverse (R87). -/
def fft2dInverse (S : ℕ) (Z : ℕ → ℂ) (e : ℕ) : ℂ :=
  (1 / (S * S : ℕ)) * ∑ u ∈ range S, ∑ v ∈ range S,
    Z (u * S + v) * Complex.exp (2 * Real.pi * Complex.I * (u * (e / S : ℕ) + v * (e % S : ℕ)) / S)

/-- `α_S(k)` (R88). -/
def alpha (S k : ℕ) : ℝ := if k = 0 then Real.sqrt (1 / S) else Real.sqrt (2 / S)

/-- `C_S(k, n)`, the orthonormal DCT-II basis (R88). -/
def basis (S k n : ℕ) : ℝ := alpha S k * Real.cos (Real.pi * (2 * n + 1) * k / (2 * S))

/-- `cos(π (2 n + 1) k / 16)`, the kernel of FDCTLEE (R92). -/
def leeKernel (k n : ℕ) : ℝ := Real.cos (Real.pi * (2 * n + 1) * k / 16)

/-- `λ(k)` (R93). -/
def leeWeight (k : ℕ) : ℝ := if k = 0 then 1 / 8 else 1 / 4

/-- A separable forward transform with kernel `K` on a flattened S×S block. -/
def separable (S : ℕ) (K : ℕ → ℕ → ℝ) (x : ℕ → ℝ) (e : ℕ) : ℝ :=
  ∑ r ∈ range S, ∑ c ∈ range S, K (e / S) r * K (e % S) c * x (r * S + c)

/-- The transposed use of a kernel, for the inverses. -/
def separableInverse (S : ℕ) (K : ℕ → ℕ → ℝ) (X : ℕ → ℝ) (e : ℕ) : ℝ :=
  ∑ u ∈ range S, ∑ v ∈ range S, K u (e / S) * K v (e % S) * X (u * S + v)

/-- DCT2D forward with the −128 level shift (R88). -/
def dct2dForward (S : ℕ) (x : ℕ → ℝ) : ℕ → ℝ := separable S (basis S) fun i => x i - 128

/-- DCT2D inverse with the +128 level shift (R89). -/
def dct2dInverse (S : ℕ) (X : ℕ → ℝ) (e : ℕ) : ℝ := 128 + separableInverse S (basis S) X e

/-- FDCT8 forward (R90). -/
def fdct8Forward (x : ℕ → ℝ) : ℕ → ℝ := separable 8 (basis 8) x

/-- FDCT8 inverse (R91). -/
def fdct8Inverse (X : ℕ → ℝ) : ℕ → ℝ := separableInverse 8 (basis 8) X

/-- FDCTLEE forward (R92). -/
def fdctleeForward (x : ℕ → ℝ) : ℕ → ℝ := separable 8 leeKernel x

/-- FDCTLEE inverse (R93). -/
def fdctleeInverse (X : ℕ → ℝ) : ℕ → ℝ := separableInverse 8 (fun k n => leeWeight k * leeKernel k n) X

/-- The exact transform of an algorithm and direction on the real and imaginary parts of a block of side `S`; the DCT
algorithms leave the imaginary part as it is (R94). -/
def xform (alg : Alg) (dir : Direction) (S : ℕ) (z : ℕ → ℂ) (e : ℕ) : ℂ :=
  let onReal := fun (X : ℕ → ℝ) => (⟨X e, (z e).im⟩ : ℂ)
  match alg, dir with
  | .fft1d, .forward => fft1dForward (S * S) z e
  | .fft1d, .inverse => fft1dInverse (S * S) z e
  | .fft2d, .forward => fft2dForward S z e
  | .fft2d, .inverse => fft2dInverse S z e
  | .dct2d, .forward => onReal (dct2dForward S fun i => (z i).re)
  | .dct2d, .inverse => onReal (dct2dInverse S fun i => (z i).re)
  | .fdct8, .forward => onReal (fdct8Forward fun i => (z i).re)
  | .fdct8, .inverse => onReal (fdct8Inverse fun i => (z i).re)
  | .fdctlee, .forward => onReal (fdctleeForward fun i => (z i).re)
  | .fdctlee, .inverse => onReal (fdctleeInverse fun i => (z i).re)

end

end Sys2Proof.Machine.Exact
end

