-- ==== Sys2Proof/Safety.lean ====
section
/-! DEFINITION. What counts as a safe run: the invariant every step keeps, what a command reads, and a step that does
not stop (R22, R23, R30, R42). -/

namespace Sys2Proof.Machine

/-- Every entry of a buffer is known or UNKNOWN as a whole (R42, R54). -/
def Memory.wholeEntries (m : Memory) (base n : Nat) : Prop :=
  ∀ i < n, (∀ k < 8, m.readByte (entryOffset base i + k) = none) ∨
    (∀ k < 8, m.readByte (entryOffset base i + k) ≠ none)

/-- Nothing is listed outside the entries a buffer has (R51). -/
def Memory.within (m : Memory) (base n : Nat) : Prop := ∀ c ∈ m, base ≤ c.1 ∧ c.1 < base + 8 * n

/-- The two fatal codes (R131). -/
def isFatal : ErrCode → Bool
  | .illegal | .badAlg => true
  | .none | .badSize | .badPos | .badTol | .numeric => false

/-- The invariant of the machine. -/
structure MachineInv (s : State) : Prop where
  /-- MAX_SIZE is in its legal range (R7). -/
  cfgLegal : s.cfg.legal = true
  /-- The buffers are in canonical form, hold whole entries, and none beyond MAX_N (R35, R36, R42). -/
  reWf : s.re.wf = true
  imWf : s.im.wf = true
  reWhole : s.re.wholeEntries reBase s.cfg.maxN
  imWhole : s.im.wholeEntries imBase s.cfg.maxN
  reWithin : s.re.within reBase s.cfg.maxN
  imWithin : s.im.within imBase s.cfg.maxN
  /-- ERRCODE names an error exactly while ERR is set (R30). -/
  errNamed : s.err = true ↔ s.errCode ≠ .none
  /-- HALTED holds exactly while ERRCODE names a fatal error (R137). -/
  haltedFatal : s.fsm = .halted ↔ isFatal s.errCode = true
  /-- While BUSY, DONE and RVALID are 0 (R39). -/
  busyFlags : s.fsm = .busy → s.done = false ∧ s.rvalid = false
  /-- The command in progress passed the size check (R133). -/
  busySize : s.fsm = .busy → sizeOk s.cfg.maxSize s.cur.alg s.cur.size = true
  /-- While a parity command is BUSY, `cur.tol` is TOL and legal, and `cur.epos` is RESULT.EPOS and in range (R23, R133). -/
  busyParity : s.fsm = .busy → s.cur.op.usesParity = true →
    s.cur.tol = s.tol ∧ toleranceOk s.tol = true ∧ s.cur.epos = s.epos ∧ s.epos.toNat < s.cur.entries
  /-- RESULT.EPOS is a position of some legal block (R34, R102). -/
  eposRange : s.epos.toNat < s.cfg.maxN

/-- The command in progress reads no UNKNOWN entry (R42, R103, R156). -/
def State.inputsKnown (s : State) : Bool :=
  match s.cur.op with
  | .fwd | .inv | .embed | .extract => (s.readBlock s.cur.alg s.cur.entries).isSome
  | .setbit | .getbit => (s.reEntry s.cur.epos.toNat).isSome

/-- The entry a host read names is known; a read of anything else needs none (R42). -/
def State.readKnown (s : State) (r : Request) : Bool :=
  match r with
  | .write _ _ _ => true
  | .read off size =>
    match locate s.cfg.maxN off size with
    | some (.re i) => (s.reEntry i).isSome
    | some (.im i) => (s.imEntry i).isSome
    | _ => true

/-- A step that goes on. -/
def SafeStep (s : State) : Prop := ∃ t, step s = .next t

/-- A run of `k` steps that goes on. -/
def SafeRun (k : Nat) (s : State) : Prop := ∃ t, Sys2Proof.core.run k s = .next t

end Sys2Proof.Machine
end

