-- ==== Sys2Proof/Certificates/Slice0/Obligations.lean ====
section
/-! DEFINITION. The statements for the provers. Each docstring names the rule of spec/ it formalises; words shared by
several statements come first, under `Sys2Proof.Claims`. -/

open Sys2Proof Sys2Proof.Machine

namespace Sys2Proof.Claims

/-- R134 in its own words: at least 2, at most MAX_SIZE, a power of two for the FFTs, 8 for the fast DCTs. -/
def LegalSize (maxSize : Nat) (alg : Alg) (size : Nat) : Prop :=
  2 ≤ size ∧ size ≤ maxSize ∧
    (match alg with
      | .fft1d | .fft2d => ∃ k, size = 2 ^ k
      | .dct2d => True
      | .fdct8 | .fdctlee => size = 8)

/-- R135 in its own words: finite, and at least 1 as a rational number. -/
def LegalTolerance (t : F64) : Prop := Fp.finite t = true ∧ 1 ≤ Exact.value t

/-- R102 in its own words: `p` is the position the command selects, before its range check. -/
def SelectsPosition (f : CmdFields) (pos : BitVec 16) (p : Nat) : Prop :=
  match f.possel, f.alg with
  | .reg, _ => p = pos.toNat
  | .static, .fft2d | .static, .dct2d => p = 0
  | .static, .fdct8 | .static, .fdctlee => p = f.size * f.size - 1
  | .static, .fft1d => False

/-- The OP code of each mnemonic, as the table of R64 has it. -/
def opCode : Mnemonic → Nat
  | .nop => 0
  | .fwd => 1
  | .inv => 2
  | .setbit => 3
  | .getbit => 4
  | .embed => 5
  | .extract => 6

/-- The two transform commands, each with the operation it latches. -/
def transforms (f : CmdFields) : List (Instr × BlockOp) := [(.fwd f, .fwd), (.inv f, .inv)]

/-- The four commands that use POS and TOL, each with the operation it latches (R70). -/
def parityCommands (f : CmdFields) : List (Instr × BlockOp) :=
  [(.setbit f, .setbit), (.getbit f, .getbit), (.embed f, .embed), (.extract f, .extract)]

/-- The block of the command in progress is known: `x` in RE and, for an FFT, `y` in IM; a DCT reads no IM (R94). -/
def BlockIs (s : State) (x y : List F64) : Prop :=
  x.length = s.cur.entries ∧ (∀ i < s.cur.entries, s.reEntry i = x[i]?) ∧
    (if s.cur.alg.usesIm then y.length = s.cur.entries ∧ (∀ i < s.cur.entries, s.imEntry i = y[i]?) else y = [])

/-- Between `s` and `t` the block of the command in progress was written with `z`, and every other byte of both buffers
reads as before; a DCT writes no IM (R38, R94). -/
def BlockWritten (s t : State) (z : Block) : Prop :=
  (∀ i < s.cur.entries, ∃ v, z.1[i]? = some v ∧ t.reEntry i = some v) ∧
    (∀ a, a < reBase ∨ reBase + 8 * s.cur.entries ≤ a → t.re.readByte a = s.re.readByte a) ∧
    (if s.cur.alg.usesIm then
      (∀ i < s.cur.entries, ∃ v, z.2[i]? = some v ∧ t.imEntry i = some v) ∧
        (∀ a, a < imBase ∨ imBase + 8 * s.cur.entries ≤ a → t.im.readByte a = s.im.readByte a)
    else t.im = s.im)

/-- Between `s` and `t` entry `p` of RE was written with `y`, and every byte outside it reads as before. -/
def EntryWritten (s t : State) (p : Nat) (y : F64) : Prop :=
  t.reEntry p = some y ∧
    ∀ a, a < entryOffset reBase p ∨ entryOffset reBase p + 8 ≤ a → t.re.readByte a = s.re.readByte a

/-- R104: the coefficient is finite and its quotient is below 2^53 in magnitude. -/
def QuotientInRange (x t : F64) : Prop := Fp.finite x = true ∧ |Exact.value (Fp.fdiv x t)| < 2 ^ 53

/-- `v`, the floor of the once-rounded quotient, as an integer (R104). -/
def bucketOf (x t : F64) : Int := ⌊Exact.value (Fp.fdiv x t)⌋

/-- `v2` (R105). -/
def parityTarget (b : Bool) (v : Int) : Int :=
  if b then (if v % 2 = 1 then v else v + 1) else (if v % 2 = 1 then v - 1 else v)

/-- `y = fmul(v2, t)` (R105); a zero keeps the sign of `x` when `v` itself is the zero, and is +0.0 otherwise (R107). -/
def setbitValue (b : Bool) (x t : F64) : F64 :=
  let v := bucketOf x t
  let v2 := parityTarget b v
  if v2 = 0 then Fp.pack (Fp.sign x && decide (v = 0)) 0 else Fp.fmul (Fp.fl v2 1) t

/-- `roundHalfUp(a) mod 2` for the quotient GETBIT forms (R111, R112). -/
def getbitValue (x t : F64) : Bool := decide (⌊Exact.value (Fp.fdiv (Fp.abs x) t) + 1 / 2⌋ % 2 = 1)

/-- The offsets R50 maps, for 8-byte aligned accesses. -/
def Mapped (maxN off : Nat) : Prop :=
  off < 0x40 ∨ (0x8000 ≤ off ∧ off < 0x8000 + 8 * maxN) ∨ (0x10000 ≤ off ∧ off < 0x10000 + 8 * maxN)

/-- A well-formed access to a mapped offset (R48, R49, R51). -/
def Proper (maxN off size : Nat) : Prop := size = 8 ∧ off % 8 = 0 ∧ Mapped maxN off

/-- The offsets that stall while BUSY: POS, TOL, CMD and the buffers (R158). -/
def Stalling (maxN off : Nat) : Prop := Mapped maxN off ∧ (off = 0x20 ∨ off = 0x28 ∨ off = 0x30 ∨ 0x8000 ≤ off)

/-- The next event is a read of 8 bytes at `off`. -/
def NextRead (s : State) (off : Nat) (rest : List Event) : Prop := s.events = .access (.read off 8) :: rest

/-- The next event is a write of `v` to the 8 bytes at `off`. -/
def NextWrite (s : State) (off : Nat) (v : Word) (rest : List Event) : Prop :=
  s.events = .access (.write off 8 v) :: rest

/-- The next event hands the ENGINE its turn: nothing to come, a tick (after which `es` is left), or a stalled access. -/
def EngineNext (s : State) (es : List Event) : Prop :=
  (s.events = [] ∧ es = []) ∨ s.events = .tick :: es ∨
    (∃ r rest, s.events = .access r :: rest ∧ stalled r s = true ∧ es = s.events)

/-- `term 0, …, term (L − 1)` added to +0.0 in increasing index order (R99). -/
def orderedSum (L : Nat) (term : Nat → F64) : F64 := (List.range L).foldl (fun acc n => Fp.fadd acc (term n)) 0#64

/-- Output `k` of one FFT pass of length `L` as R99 writes it: the two sums of `dft1`, for the inverse divided by L. -/
def dftEntry (L : Nat) (dir : Direction) (a b : Nat → F64) (k : Nat) : F64 × F64 :=
  let c := fun n => Trig.twiddleCos L (k * n % L)
  let t := fun n => Trig.twiddleSin dir L (k * n % L)
  let re := orderedSum L fun n => Fp.fsub (Fp.fmul (a n) (c n)) (Fp.fmul (b n) (t n))
  let im := orderedSum L fun n => Fp.fadd (Fp.fmul (a n) (t n)) (Fp.fmul (b n) (c n))
  match dir with
  | .forward => (re, im)
  | .inverse => (Fp.fdiv re (Fp.fl L 1), Fp.fdiv im (Fp.fl L 1))

/-- Entry `e` of a 2-D DCT with the coefficients `K`, rows first and then columns, as R99 writes it. -/
def separableEntry (S : Nat) (K : Nat → Nat → F64) (x : Nat → F64) (e : Nat) : F64 :=
  orderedSum S fun r => Fp.fmul (K (e / S) r) (orderedSum S fun c => Fp.fmul (K (e % S) c) (x (r * S + c)))

/-- `x` is `r` rounded once: finite, and no finite binary64 is nearer to `r` (R14). -/
def NearestTo (x : F64) (r : ℝ) : Prop :=
  Fp.finite x = true ∧ ∀ z, Fp.finite z = true →
    |((Exact.value x : ℚ) : ℝ) - r| ≤ |((Exact.value z : ℚ) : ℝ) - r|

/-- One bit as a word, for the register layouts. -/
def flag (b : Bool) : BitVec 1 := BitVec.ofBool b

/-- Two buffers agree on the `n` entries from `base` on. -/
def AgreeOn (m m' : Memory) (base n : Nat) : Prop := ∀ a, base ≤ a → a < base + 8 * n → m.readByte a = m'.readByte a

end Sys2Proof.Claims

open Sys2Proof.Claims

/-! ### Encoding -/

/-- R80: each of the ten example commands assembles to its word, and the word decodes to the command. -/
def Obligations.ExampleWordsDecode : Prop :=
  ∀ x ∈ ([(⟨.nop, none, none, none, none⟩, 0x0000000000000000#64, .nop),
    (⟨.fwd, some .fft1d, some 2, none, none⟩, 0x0000000000020001#64, .fwd ⟨.fft1d, false, .reg, 2⟩),
    (⟨.fwd, some .fft2d, some 2, none, none⟩, 0x0000000000020011#64, .fwd ⟨.fft2d, false, .reg, 2⟩),
    (⟨.inv, some .fft2d, some 2, none, none⟩, 0x0000000000020012#64, .inv ⟨.fft2d, false, .reg, 2⟩),
    (⟨.fwd, some .dct2d, some 2, none, none⟩, 0x0000000000020021#64, .fwd ⟨.dct2d, false, .reg, 2⟩),
    (⟨.setbit, some .dct2d, some 2, some true, some .static⟩, 0x00000000000201A3#64,
      .setbit ⟨.dct2d, true, .static, 2⟩),
    (⟨.getbit, some .fft1d, some 2, none, some .reg⟩, 0x0000000000020004#64, .getbit ⟨.fft1d, false, .reg, 2⟩),
    (⟨.embed, some .fdct8, some 8, some true, some .static⟩, 0x00000000000801B5#64, .embed ⟨.fdct8, true, .static, 8⟩),
    (⟨.extract, some .fdctlee, some 8, none, some .static⟩, 0x0000000000080146#64,
      .extract ⟨.fdctlee, false, .static, 8⟩),
    (⟨.embed, some .fft2d, some 4, some false, some .static⟩, 0x0000000000040115#64,
      .embed ⟨.fft2d, false, .static, 4⟩)] : List (AsmCommand × Word × Instr)),
    assembleWord x.1 = some x.2.1 ∧ decode x.2.1 = .cmd x.2.2

/-- R69: the verdict on every one of the 2^64 words, with the fields as bit ranges of the word. -/
def Obligations.DecoderVerdict : Prop :=
  ∀ w : Word,
    let reserved := w.extractLsb' 32 32 ≠ 0#32 ∨ w.extractLsb' 24 8 ≠ 0#8 ∨ w.extractLsb' 9 7 ≠ 0#7
    let op := (w.extractLsb' 0 4).toNat
    let alg := (w.extractLsb' 4 3).toNat
    (reserved ∨ 7 ≤ op → decode w = .fatal .illegal) ∧
    (¬reserved → op = 0 → decode w = .cmd .nop) ∧
    (¬reserved → 1 ≤ op → op ≤ 6 → 5 ≤ alg → decode w = .fatal .badAlg) ∧
    (¬reserved → 1 ≤ op → op ≤ 6 → alg < 5 → ∃ i f, decode w = .cmd i ∧ i.op = op ∧ i.fields = some f ∧
      f.alg.code = alg ∧ f.bit = w.getLsbD 7 ∧ (f.possel = .static ↔ w.getLsbD 8 = true) ∧
      f.size = (w.extractLsb' 16 8).toNat)

/-- R77: the word of a well-formed command, built with shifts and ORs as the rule writes it; a NOP's is 0. -/
def Obligations.EncodedWordLayout : Prop :=
  encode .nop = 0#64 ∧ ∀ i f, i.wellFormed = true → i.fields = some f →
    encode i = BitVec.ofNat 64 i.op ||| (BitVec.ofNat 64 f.alg.code <<< 4) ||| (BitVec.ofNat 64 f.bit.toNat <<< 7) |||
      (BitVec.ofNat 64 f.possel.code <<< 8) ||| (BitVec.ofNat 64 f.size <<< 16)

/-- Decoding the word of any well-formed command gives the command back, with every field (R69, R77). -/
def Obligations.DecodeInvertsEncode : Prop := ∀ i : Instr, i.wellFormed = true → decode (encode i) = .cmd i

/-- Every accepted word but a NOP's is the word of the command it decodes to, which is well-formed (R69, R74, R77). -/
def Obligations.EncodeInvertsDecode : Prop :=
  ∀ (w : Word) (i : Instr), decode w = .cmd i → i.wellFormed = true ∧ (i ≠ .nop → encode i = w)

/-- R76, R77: exactly when the assembler takes a command; and a command it takes becomes the instruction with the OP code
of its mnemonic, the written fields, and 0 for the omitted ones, has a word, and that word decodes to it. -/
def Obligations.AssemblerAccepts : Prop :=
  ∀ c : AsmCommand,
    ((assemble c).isSome = true ↔
      (c.op = .nop ∧ c.alg = none ∧ c.size = none ∧ c.bit = none ∧ c.possel = none) ∨
      (c.op ≠ .nop ∧ c.alg ≠ none ∧ c.size.getD 0 ≤ 255 ∧
        (c.bit ≠ none → c.op = .setbit ∨ c.op = .embed) ∧
        (c.possel ≠ none → c.op ≠ .fwd ∧ c.op ≠ .inv))) ∧
    (∀ i, assemble c = some i → i.op = opCode c.op ∧ (∃ w, assembleWord c = some w ∧ decode w = .cmd i) ∧
      (∀ f, i.fields = some f → c.alg = some f.alg ∧ f.size = c.size.getD 0 ∧ f.bit = c.bit.getD false ∧
        f.possel = c.possel.getD .reg))

/-! ### Reset -/

/-- R153: a hardware reset, in any state, and the registers' words after it; every RE and IM entry is UNKNOWN and IRQ is
low. Of the hidden latches, UNKNOWN in R153, it says only that the next step reads none of them. -/
def Obligations.HardwareResetValues : Prop :=
  ∀ s rest, s.events = .hardwareReset :: rest → ∃ t, step s = .next t ∧
    t.fsm = .idle ∧ registerWord t .id = 0x0000000153544547#64 ∧
    registerWord t .cfg = 0#51 ++ 31#5 ++ BitVec.ofNat 8 s.cfg.maxSize ∧
    registerWord t .ctrl = 0#64 ∧ registerWord t .status = 0#64 ∧ registerWord t .pos = 0#64 ∧
    registerWord t .tol = 0#64 ∧ registerWord t .cmd = 0#64 ∧ registerWord t .result = 0#64 ∧
    (∀ i, t.reEntry i = none ∧ t.imEntry i = none) ∧ t.irq = false ∧ t.cfg = s.cfg ∧ t.events = rest ∧
    ∀ c u, step { t with cur := c } = .next u → ∃ v, step t = .next v ∧ u = { v with cur := u.cur }

/-- The invariant holds after reset in every legal configuration. -/
def Obligations.ResetHasInvariant : Prop := ∀ c : Config, c.legal = true → MachineInv (State.resetOf c)

/-! ### The step and the invariant -/

/-- R33: in IDLE the next CMD write whose word decodes to a command runs it; around `exec` the step takes the event away
and answers the write OKAY. -/
def Obligations.StepRunsCommandWrite : Prop :=
  ∀ s w rest i, s.fsm = .idle → NextWrite s 0x30 w rest → decode w = .cmd i →
    step s = exec i { s with events := rest, answer := some .okayWrite }

/-- R164: a BUSY engine that gets its turn completes the command its latches hold. -/
def Obligations.StepCompletesCommand : Prop :=
  ∀ s es, s.fsm = .busy → EngineNext s es → step s = exec s.cur.instr { s with events := es, answer := none }

/-- Every step keeps the invariant, from every state that has it. -/
def Obligations.StepKeepsInvariant : Prop := ∀ s t, MachineInv s → step s = .next t → MachineInv t

/-- R22: the only ways the ENGINE state changes. -/
def Obligations.EngineTransitions : Prop :=
  ∀ s t, step s = .next t →
    (s.fsm = .idle → t.fsm = .busy → ∃ w rest i, NextWrite s 0x30 w rest ∧ decode w = .cmd i ∧ i ≠ .nop ∧
      t.err = s.err) ∧
    (s.fsm = .idle → t.fsm = .halted → ∃ w rest c, NextWrite s 0x30 w rest ∧ decode w = .fatal c ∧ t.err = true) ∧
    (s.fsm = .busy → t.fsm ≠ .halted) ∧
    (s.fsm = .busy → t.fsm = .idle → (∃ es, EngineNext s es) ∨ (∃ rest, s.events = .hardwareReset :: rest) ∨
      (∃ v rest, NextWrite s 0x10 v rest ∧ v.getLsbD 0 = true)) ∧
    (s.fsm = .halted → t.fsm ≠ .halted → t.fsm = .idle ∧ ((∃ rest, s.events = .hardwareReset :: rest) ∨
      (∃ v rest, NextWrite s 0x10 v rest ∧ v.getLsbD 0 = true)))

/-- R39, R30: ERR, once set, is cleared only by a reset or by a W1C of bit 2 outside HALTED. -/
def Obligations.ErrorIsSticky : Prop :=
  ∀ s t, step s = .next t → s.err = true → t.err = false →
    (∃ rest, s.events = .hardwareReset :: rest) ∨ (∃ v rest, NextWrite s 0x10 v rest ∧ v.getLsbD 0 = true) ∨
      (∃ v rest, NextWrite s 0x18 v rest ∧ v.getLsbD 2 = true ∧ s.fsm ≠ .halted)

/-- R139: a step that is neither a reset nor a W1C of ERR either leaves ERR and ERRCODE, and does so whatever they are; or
it raises an error, and then it ends in the same state, with the same new code, whatever ERR and ERRCODE were before. An
acceptance that raises one leaves DONE clear, and a completion that does raises NUMERIC; so a step that sets DONE is of
the first kind. -/
def Obligations.NewestErrorWins : Prop :=
  ∀ s t, step s = .next t → (∀ rest, s.events ≠ .hardwareReset :: rest) →
    (∀ v rest, NextWrite s 0x10 v rest → v.getLsbD 0 = false) →
    (∀ v rest, NextWrite s 0x18 v rest → v.getLsbD 2 = false) →
    ((t.err = s.err ∧ t.errCode = s.errCode ∧
        ∀ e c, ∃ u, step { s with err := e, errCode := c } = .next u ∧
          u = { t with err := e, errCode := c, answer := u.answer }) ∨
      (t.err = true ∧ t.errCode ≠ .none ∧
        (t.done = false ∨ (s.fsm = .busy ∧ t.errCode = .numeric ∧ t.done = s.done)) ∧
        ∀ e c, step { s with err := e, errCode := c } = .next t)) ∧
    (s.done = false → t.done = true → t.err = s.err ∧ t.errCode = s.errCode)

/-- R28: no step changes the configuration. -/
def Obligations.ConfigurationIsConstant : Prop := ∀ s t, step s = .next t → t.cfg = s.cfg

/-- R23, R153: outside BUSY no step reads the hidden latches: with any others it does the same to every other field, and a
command it accepts finds the same latches it will use. -/
def Obligations.LatchesUnreadOutsideBusy : Prop :=
  ∀ s c, s.fsm ≠ .busy →
    (∀ u, step { s with cur := c } = .next u → ∃ v, step s = .next v ∧ u = { v with cur := u.cur } ∧
      (u.fsm = .busy → u.cur.op = v.cur.op ∧ u.cur.alg = v.cur.alg ∧ u.cur.bit = v.cur.bit ∧
        u.cur.size = v.cur.size ∧ (v.cur.op.usesParity = true → u.cur.epos = v.cur.epos ∧ u.cur.tol = v.cur.tol))) ∧
    (∀ e, step { s with cur := c } = .fault e → step s = .fault e)

/-- R56, R158: as long as a command stays BUSY, no step changes the buffers, POS, TOL, the latches or RESULT. -/
def Obligations.BusyKeepsOperands : Prop :=
  ∀ s t, s.fsm = .busy → step s = .next t → t.fsm = .busy →
    t.re = s.re ∧ t.im = s.im ∧ t.pos = s.pos ∧ t.tol = s.tol ∧ t.cur = s.cur ∧ t.epos = s.epos ∧
      t.rbit = s.rbit ∧ t.rvalid = s.rvalid

/-- R164: a BUSY command is over after at most one step more than there are events to come, unless it stops on an UNKNOWN
entry. -/
def Obligations.BusyEnds : Prop :=
  ∀ s, s.fsm = .busy → ∃ k ≤ s.events.length + 1,
    (∃ t, Sys2Proof.core.run k s = .next t ∧ t.fsm ≠ .busy) ∨ (∃ r, Sys2Proof.core.run k s = .fault r)

/-- R42: from a state with the invariant a step stops exactly when a command completes on an UNKNOWN entry it reads, or
the port serves a host read of one; and no step is ever refused. -/
def Obligations.StopsExactlyOnUnknown : Prop :=
  ∀ s, MachineInv s →
    ((∃ e, step s = .fault e) ↔
      (s.fsm = .busy ∧ (∃ es, EngineNext s es) ∧ s.inputsKnown = false) ∨
      (∃ r rest, s.events = .access r :: rest ∧ stalled r s = false ∧ s.readKnown r = false)) ∧
    ∀ e, step s ≠ .refused e

/-- R141: whenever a command ends, the IRQ line follows IRQ_EN. -/
def Obligations.CommandEndRaisesIrq : Prop :=
  ∀ s t, s.fsm = .busy → step s = .next t → t.fsm ≠ .busy → t.irq = t.irqEn

/-! ### Acceptance -/

/-- R122, R74: a word with OP = 0 and zero reserved fields, whatever its other bits, in each ENGINE state: done at once in
IDLE, held back in BUSY, ignored in HALTED; and with a nonzero reserved field it is ILLEGAL. That the command in progress
completes in the very step in which the write is held back is the model's choice (log entry 2). -/
def Obligations.NopEffect : Prop :=
  ∀ s w rest, NextWrite s 0x30 w rest → w.extractLsb' 0 4 = 0#4 →
    (w &&& 0xFFFFFFFFFF00FE00#64 = 0#64 →
      (s.fsm = .idle → exec .nop s = .next { s with done := true, rvalid := false } ∧
        step s = .next { s with done := true, rvalid := false, events := rest, answer := some .okayWrite }) ∧
      (s.fsm = .busy → ∀ t, step s = .next t → t.events = s.events ∧ t.answer = none ∧ t.fsm = .idle) ∧
      (s.fsm = .halted → step s = .next { s with events := rest, answer := some .okayWrite })) ∧
    (w &&& 0xFFFFFFFFFF00FE00#64 ≠ 0#64 → s.fsm = .idle → ∃ t, step s = .next t ∧ t.fsm = .halted ∧
      t.errCode = .illegal)

/-- FWD and INV in IDLE with a legal size are accepted (R133). -/
def Obligations.TransformAccepted : Prop :=
  ∀ s f i op, (i, op) ∈ transforms f → s.fsm = .idle → s.cfg.legal = true →
    LegalSize s.cfg.maxSize f.alg f.size →
    exec i s = .next
      { s with
        fsm := .busy, done := false, rvalid := false
        cur := { s.cur with op := op, alg := f.alg, bit := f.bit, size := f.size } }

/-- SETBIT, GETBIT, EMBED and EXTRACT in IDLE with a legal size, a position in the block and a legal tolerance are
accepted; without a position in the block they end with BAD_POS (R102, R133). -/
def Obligations.PositionCheckedAndLatched : Prop :=
  ∀ s f i op, (i, op) ∈ parityCommands f → s.fsm = .idle → s.cfg.legal = true →
    LegalSize s.cfg.maxSize f.alg f.size →
    ((¬∃ p, SelectsPosition f s.pos p ∧ p < f.size * f.size) →
      exec i s = .next { s with done := false, rvalid := false, err := true, errCode := .badPos }) ∧
    (∀ p, SelectsPosition f s.pos p → p < f.size * f.size → LegalTolerance s.tol →
      exec i s = .next
        { s with
          fsm := .busy, done := false, rvalid := false, epos := BitVec.ofNat 16 p
          cur := { op := op, alg := f.alg, bit := f.bit, size := f.size, epos := BitVec.ofNat 16 p, tol := s.tol } })

/-- R135: with a legal size and position, a command that uses TOL ends with BAD_TOL exactly when TOL is not a finite
number of at least 1. -/
def Obligations.ToleranceChecked : Prop :=
  ∀ s f i op p, (i, op) ∈ parityCommands f → s.fsm = .idle → s.cfg.legal = true →
    LegalSize s.cfg.maxSize f.alg f.size → SelectsPosition f s.pos p → p < f.size * f.size →
    (¬LegalTolerance s.tol →
      exec i s = .next { s with done := false, rvalid := false, err := true, errCode := .badTol }) ∧
    (LegalTolerance s.tol → ∀ t, exec i s = .next t → t.fsm = .busy ∧ t.err = s.err ∧ t.errCode = s.errCode)

/-- R134: every command but NOP ends with BAD_SIZE on a size that is not legal for its ALG, whatever POS and TOL hold, and
on a legal size it is accepted or ends with BAD_POS or BAD_TOL. -/
def Obligations.SizeChecked : Prop :=
  ∀ s f i op, (i, op) ∈ transforms f ++ parityCommands f → s.fsm = .idle → s.cfg.legal = true →
    (¬LegalSize s.cfg.maxSize f.alg f.size →
      exec i s = .next { s with done := false, rvalid := false, err := true, errCode := .badSize }) ∧
    (LegalSize s.cfg.maxSize f.alg f.size → ∃ t, exec i s = .next t ∧
      (t.fsm = .busy ∨ t.fsm = .idle ∧ (t.errCode = .badPos ∨ t.errCode = .badTol)))

/-- R136: a command but NOP that is not accepted changes nothing but DONE, ERR, ERRCODE and RVALID. -/
def Obligations.FailedCheckLeavesRest : Prop :=
  ∀ s i t, i ≠ .nop → s.fsm = .idle → exec i s = .next t → t.fsm ≠ .busy →
    ∃ c, (c = .badSize ∨ c = .badPos ∨ c = .badTol) ∧
      t = { s with done := false, rvalid := false, err := true, errCode := c }

/-- R137: a word the decoder finds fatal, written to CMD in IDLE, halts the engine and changes nothing else but DONE and
RVALID; CMD writes in HALTED change nothing (R138), and every buffer entry, POS and TOL reads in HALTED as it stands. -/
def Obligations.FatalErrorHalts : Prop :=
  (∀ s w rest c, s.fsm = .idle → NextWrite s 0x30 w rest → decode w = .fatal c →
    step s = .next
      { s with
        fsm := .halted, done := false, rvalid := false, err := true, errCode := c
        events := rest, answer := some .okayWrite }) ∧
  (∀ s w rest, s.fsm = .halted → NextWrite s 0x30 w rest →
    step s = .next { s with events := rest, answer := some .okayWrite }) ∧
  (∀ s rest i v, s.fsm = .halted → s.cfg.legal = true → i < s.cfg.maxN →
    (NextRead s (0x8000 + 8 * i) rest → s.reEntry i = some v →
      step s = .next { s with events := rest, answer := some (.okayRead v) }) ∧
    (NextRead s (0x10000 + 8 * i) rest → s.imEntry i = some v →
      step s = .next { s with events := rest, answer := some (.okayRead v) }) ∧
    (NextRead s 0x20 rest → step s = .next { s with events := rest, answer := some (.okayRead (0#48 ++ s.pos)) }) ∧
    (NextRead s 0x28 rest → step s = .next { s with events := rest, answer := some (.okayRead s.tol) })) ∧
  (∀ s t, s.fsm = .halted → step s = .next t → t.fsm ≠ .halted →
    (∃ rest, s.events = .hardwareReset :: rest) ∨ (∃ v rest, NextWrite s 0x10 v rest ∧ v.getLsbD 0 = true))

/-! ### Completion -/

/-- FWD completes (R81, R96): on a known block of legal size, the block becomes XFORM_NUMERICS of it, BUSY clears, DONE
is set, and nothing else changes. -/
def Obligations.ForwardCompletes : Prop :=
  ∀ s f x y, s.fsm = .busy → s.cfg.legal = true → LegalSize s.cfg.maxSize s.cur.alg s.cur.size → BlockIs s x y →
    ∃ t, exec (.fwd f) s = .next t ∧ t = { s with re := t.re, im := t.im, fsm := .idle, done := true } ∧
      BlockWritten s t (xform s.cfg.numerics s.cur.alg .forward s.cur.size (x, y))

/-- INV completes (R82, R96), as FWD with the inverse transform. -/
def Obligations.InverseCompletes : Prop :=
  ∀ s f x y, s.fsm = .busy → s.cfg.legal = true → LegalSize s.cfg.maxSize s.cur.alg s.cur.size → BlockIs s x y →
    ∃ t, exec (.inv f) s = .next t ∧ t = { s with re := t.re, im := t.im, fsm := .idle, done := true } ∧
      BlockWritten s t (xform s.cfg.numerics s.cur.alg .inverse s.cur.size (x, y))

/-- SETBIT completes (R105): RE[epos] becomes fmul(v2, t), every other byte and field is unchanged but BUSY and DONE. -/
def Obligations.SetbitCompletes : Prop :=
  ∀ s f x, s.fsm = .busy → LegalTolerance s.cur.tol → s.reEntry s.cur.epos.toNat = some x →
    QuotientInRange x s.cur.tol → Fp.finite (setbitValue s.cur.bit x s.cur.tol) = true →
    ∃ t, exec (.setbit f) s = .next t ∧ t = { s with re := t.re, fsm := .idle, done := true } ∧
      EntryWritten s t s.cur.epos.toNat (setbitValue s.cur.bit x s.cur.tol)

/-- SETBIT raises NUMERIC, and changes no buffer (R105, R110). -/
def Obligations.SetbitNumeric : Prop :=
  ∀ s f x, s.fsm = .busy → LegalTolerance s.cur.tol → s.reEntry s.cur.epos.toNat = some x →
    (¬QuotientInRange x s.cur.tol ∨ Fp.finite (setbitValue s.cur.bit x s.cur.tol) = false) →
    exec (.setbit f) s = .next { s with fsm := .idle, err := true, errCode := .numeric }

/-- GETBIT completes (R111, R112): RBIT is the parity of the rounded quotient, RVALID is set, no buffer changes. -/
def Obligations.GetbitCompletes : Prop :=
  ∀ s f x, s.fsm = .busy → LegalTolerance s.cur.tol → s.reEntry s.cur.epos.toNat = some x →
    QuotientInRange (Fp.abs x) s.cur.tol →
    exec (.getbit f) s = .next
      { s with rbit := getbitValue x s.cur.tol, rvalid := true, fsm := .idle, done := true }

/-- GETBIT raises NUMERIC; RVALID and RBIT keep their values (R110, R111). -/
def Obligations.GetbitNumeric : Prop :=
  ∀ s f x, s.fsm = .busy → LegalTolerance s.cur.tol → s.reEntry s.cur.epos.toNat = some x →
    ¬QuotientInRange (Fp.abs x) s.cur.tol →
    exec (.getbit f) s = .next { s with fsm := .idle, err := true, errCode := .numeric }

/-- EMBED completes (R114): the forward transform, SETBIT's value at epos, the inverse transform, as one command. -/
def Obligations.EmbedCompletes : Prop :=
  ∀ s f x y c, s.fsm = .busy → s.cfg.legal = true → LegalSize s.cfg.maxSize s.cur.alg s.cur.size → BlockIs s x y →
    LegalTolerance s.cur.tol → s.cur.epos.toNat < s.cur.entries →
    (xform s.cfg.numerics s.cur.alg .forward s.cur.size (x, y)).1[s.cur.epos.toNat]? = some c →
    QuotientInRange c s.cur.tol → Fp.finite (setbitValue s.cur.bit c s.cur.tol) = true →
    let z := xform s.cfg.numerics s.cur.alg .forward s.cur.size (x, y)
    let marked := (z.1.set s.cur.epos.toNat (setbitValue s.cur.bit c s.cur.tol), z.2)
    ∃ t, exec (.embed f) s = .next t ∧ t = { s with re := t.re, im := t.im, fsm := .idle, done := true } ∧
      BlockWritten s t (xform s.cfg.numerics s.cur.alg .inverse s.cur.size marked)

/-- R115: NUMERIC in phase S stops EMBED after phase F. -/
def Obligations.EmbedNumericStopsAfterForward : Prop :=
  ∀ s f x y c, s.fsm = .busy → s.done = false → s.cfg.legal = true →
    LegalSize s.cfg.maxSize s.cur.alg s.cur.size → BlockIs s x y →
    LegalTolerance s.cur.tol → s.cur.epos.toNat < s.cur.entries →
    (xform s.cfg.numerics s.cur.alg .forward s.cur.size (x, y)).1[s.cur.epos.toNat]? = some c →
    (¬QuotientInRange c s.cur.tol ∨ Fp.finite (setbitValue s.cur.bit c s.cur.tol) = false) →
    ∃ t, exec (.embed f) s = .next t ∧
      t = { s with re := t.re, im := t.im, fsm := .idle, err := true, errCode := .numeric } ∧ t.done = false ∧
      BlockWritten s t (xform s.cfg.numerics s.cur.alg .forward s.cur.size (x, y))

/-- EXTRACT completes (R117, R118): the block stays forward-transformed, RBIT is the parity of the carrier. -/
def Obligations.ExtractCompletes : Prop :=
  ∀ s f x y c, s.fsm = .busy → s.cfg.legal = true → LegalSize s.cfg.maxSize s.cur.alg s.cur.size → BlockIs s x y →
    LegalTolerance s.cur.tol → s.cur.epos.toNat < s.cur.entries →
    (xform s.cfg.numerics s.cur.alg .forward s.cur.size (x, y)).1[s.cur.epos.toNat]? = some c →
    QuotientInRange (Fp.abs c) s.cur.tol →
    ∃ t, exec (.extract f) s = .next t ∧
      t = { s with
        re := t.re, im := t.im, rbit := getbitValue c s.cur.tol, rvalid := true, fsm := .idle, done := true } ∧
      BlockWritten s t (xform s.cfg.numerics s.cur.alg .forward s.cur.size (x, y))

/-- EXTRACT raises NUMERIC in phase G: the block is forward-transformed, RVALID and RBIT keep their values (R117). -/
def Obligations.ExtractNumeric : Prop :=
  ∀ s f x y c, s.fsm = .busy → s.cfg.legal = true → LegalSize s.cfg.maxSize s.cur.alg s.cur.size → BlockIs s x y →
    LegalTolerance s.cur.tol → s.cur.epos.toNat < s.cur.entries →
    (xform s.cfg.numerics s.cur.alg .forward s.cur.size (x, y)).1[s.cur.epos.toNat]? = some c →
    ¬QuotientInRange (Fp.abs c) s.cur.tol →
    ∃ t, exec (.extract f) s = .next t ∧
      t = { s with re := t.re, im := t.im, fsm := .idle, err := true, errCode := .numeric } ∧
      BlockWritten s t (xform s.cfg.numerics s.cur.alg .forward s.cur.size (x, y))

/-- R42: a command whose block includes an UNKNOWN entry it reads stops with the model's fault. -/
def Obligations.UnknownEntryFaults : Prop :=
  ∀ s f, s.fsm = .busy →
    ((∃ j < s.cur.entries, s.reEntry j = none ∨ (s.cur.alg.usesIm = true ∧ s.imEntry j = none)) →
      exec (.fwd f) s = .fault .commandReadUnknown ∧ exec (.inv f) s = .fault .commandReadUnknown ∧
      exec (.embed f) s = .fault .commandReadUnknown ∧ exec (.extract f) s = .fault .commandReadUnknown) ∧
    (s.reEntry s.cur.epos.toNat = none →
      exec (.setbit f) s = .fault .commandReadUnknown ∧ exec (.getbit f) s = .fault .commandReadUnknown)

/-! ### Whole-command laws -/

/-- R108: SETBIT with bit b, then GETBIT with the same tolerance and position, reads b, if |v2| is below 2^50. -/
def Obligations.ReadAfterSet : Prop :=
  ∀ s f g x t, s.fsm = .busy → LegalTolerance s.cur.tol → s.reEntry s.cur.epos.toNat = some x →
    QuotientInRange x s.cur.tol → Fp.finite (setbitValue s.cur.bit x s.cur.tol) = true →
    |parityTarget s.cur.bit (bucketOf x s.cur.tol)| < 2 ^ 50 → exec (.setbit f) s = .next t →
    ∃ u, exec (.getbit g) { t with fsm := .busy } = .next u ∧ u.rbit = s.cur.bit ∧ u.rvalid = true

/-- R106: v2 has parity BIT, and lies where the table puts it. -/
def Obligations.SetbitOutcomeTable : Prop :=
  ∀ b x t q, LegalTolerance t → QuotientInRange x t → q = Exact.value (Fp.fdiv x t) →
    let v := bucketOf x t
    let v2 := parityTarget b v
    let change := (v2 : ℚ) - q
    (v2 % 2 = 1 ↔ b = true) ∧
    (b = true → v % 2 = 1 → v2 = v ∧ -1 < change ∧ change ≤ 0) ∧
    (b = true → v % 2 = 0 → v2 = v + 1 ∧ 0 < change ∧ change ≤ 1) ∧
    (b = false → v % 2 = 1 → v2 = v - 1 ∧ -2 < change ∧ change ≤ -1) ∧
    (b = false → v % 2 = 0 → v2 = v ∧ -1 < change ∧ change ≤ 0) ∧
    Exact.value (withParity b (Fp.floor (Fp.fdiv x t))) = (v2 : ℚ)

/-- R116: EMBED as one command leaves RE, IM and RESULT.EPOS as FWD, SETBIT, INV with the same fields do, and EXTRACT
leaves RE, IM and RESULT as FWD, GETBIT do, when no error occurs. -/
def Obligations.CompoundCommandsEqualSteps : Prop :=
  ∀ (s : State) (f : CmdFields), s.fsm = .idle → f.wellFormed = true →
    (∀ t, Sys2Proof.core.run 2 { s with events := [cmdWrite (encode (.embed f)), .tick] } = .next t → t.done = true →
      ∃ u, Sys2Proof.core.run 6
          { s with
            events := [cmdWrite (encode (.fwd f)), .tick, cmdWrite (encode (.setbit f)), .tick,
              cmdWrite (encode (.inv f)), .tick] } = .next u ∧
        u.done = true ∧ u.re = t.re ∧ u.im = t.im ∧ u.epos = t.epos) ∧
    (∀ t, Sys2Proof.core.run 2 { s with events := [cmdWrite (encode (.extract f)), .tick] } = .next t → t.done = true →
      ∃ u, Sys2Proof.core.run 4
          { s with
            events := [cmdWrite (encode (.fwd f)), .tick, cmdWrite (encode (.getbit f)), .tick] } = .next u ∧
        u.done = true ∧ u.re = t.re ∧ u.im = t.im ∧ u.epos = t.epos ∧ u.rbit = t.rbit ∧ u.rvalid = t.rvalid)

/-- R94: a DCT2D, FDCT8 or FDCTLEE command neither reads nor writes IM: with any other IM it does the same, and leaves
that IM as it is. SETBIT and GETBIT do so for every ALG (R103). -/
def Obligations.ImaginaryBufferUntouched : Prop :=
  ∀ s f i op m, (i, op) ∈ transforms f ++ parityCommands f → s.fsm = .busy →
    (s.cur.alg.usesIm = false ∨ op = .setbit ∨ op = .getbit) →
    (∀ t, exec i s = .next t → t.im = s.im ∧ exec i { s with im := m } = .next { t with im := m }) ∧
    (∀ e, exec i s = .fault e → exec i { s with im := m } = .fault e)

/-- R38: a command reads and writes only its block, in RE and, for the FFTs, in IM: with buffers that agree there it does
the same to the block, and every byte outside it stays. -/
def Obligations.OnlyTheBlockMatters : Prop :=
  ∀ s f i op m n t, (i, op) ∈ transforms f ++ parityCommands f → s.fsm = .busy → s.cfg.legal = true →
    LegalSize s.cfg.maxSize s.cur.alg s.cur.size → s.cur.epos.toNat < s.cur.entries →
    AgreeOn s.re m reBase s.cur.entries → (s.cur.alg.usesIm = true → AgreeOn s.im n imBase s.cur.entries) →
    exec i s = .next t →
    ∃ u, exec i { s with re := m, im := n } = .next u ∧ u = { t with re := u.re, im := u.im } ∧
      AgreeOn t.re u.re reBase s.cur.entries ∧
      (∀ a, a < reBase ∨ reBase + 8 * s.cur.entries ≤ a →
        u.re.readByte a = m.readByte a ∧ t.re.readByte a = s.re.readByte a) ∧
      (if s.cur.alg.usesIm then AgreeOn t.im u.im imBase s.cur.entries ∧
        ∀ a, a < imBase ∨ imBase + 8 * s.cur.entries ≤ a →
          u.im.readByte a = n.readByte a ∧ t.im.readByte a = s.im.readByte a
      else t.im = s.im ∧ u.im = n)

/-! ### The bus -/

/-- R48, R49, R51, R140: an access in the aperture of a size other than 8, misaligned or unmapped is answered ERROR at once
in every ENGINE state and changes nothing; no other access is answered ERROR. -/
def Obligations.BusErrors : Prop :=
  ∀ s r rest off size v, s.cfg.legal = true → s.events = .access r :: rest →
    (r = .read off size ∨ r = .write off size v) → off < 0x18000 →
    (¬Proper s.cfg.maxN off size → step s = .next { s with events := rest, answer := some .error }) ∧
    (Proper s.cfg.maxN off size → ∀ t, step s = .next t → t.answer ≠ some .error)

/-- R158: while BUSY a proper access to a stalling offset is not answered, stays next, and the ENGINE completes; a proper
access to ID, CFG, CTRL, STATUS or RESULT is answered at once. -/
def Obligations.StallRule : Prop :=
  ∀ s r rest off v, s.cfg.legal = true → s.fsm = .busy → s.events = .access r :: rest →
    (r = .read off 8 ∨ r = .write off 8 v) → off % 8 = 0 → Mapped s.cfg.maxN off →
    (Stalling s.cfg.maxN off → step s = exec s.cur.instr { s with answer := none } ∧
      ∀ t, step s = .next t → t.fsm = .idle ∧ t.events = s.events ∧ t.answer = none) ∧
    (¬Stalling s.cfg.maxN off → ∃ t, step s = .next t ∧ t.events = rest ∧ t.answer ≠ none)

/-- R27, R28: ID and CFG read as their constants in every ENGINE state, and writes to them change nothing. -/
def Obligations.IdentificationReads : Prop :=
  ∀ s rest v, s.cfg.legal = true →
    (NextRead s 0x00 rest → step s = .next { s with events := rest, answer := some (.okayRead
      (0#16 ++ 0x0001#16 ++ 0x53544547#32)) }) ∧
    (NextRead s 0x08 rest → step s = .next { s with events := rest, answer := some (.okayRead
      (0#51 ++ 0b11111#5 ++ BitVec.ofNat 8 s.cfg.maxSize)) }) ∧
    (NextWrite s 0x00 v rest ∨ NextWrite s 0x08 v rest ∨ NextWrite s 0x38 v rest →
      step s = .next { s with events := rest, answer := some .okayWrite })

/-- R29, R30, R34: CTRL, STATUS and RESULT read as their fields with reserved bits 0, in every ENGINE state, and a read
changes nothing (R52, R127). -/
def Obligations.StatusReads : Prop :=
  ∀ s rest, s.cfg.legal = true →
    (NextRead s 0x10 rest → step s = .next { s with events := rest, answer := some (.okayRead
      (0#62 ++ flag s.irqEn ++ 0#1)) }) ∧
    (NextRead s 0x18 rest → step s = .next { s with events := rest, answer := some (.okayRead
      (0#52 ++ BitVec.ofNat 4 s.errCode.code ++ 0#4 ++ flag (decide (s.fsm = .halted)) ++ flag s.err ++ flag s.done ++
        flag (decide (s.fsm = .busy)))) }) ∧
    (NextRead s 0x38 rest → step s = .next { s with events := rest, answer := some (.okayRead
      (0#32 ++ s.epos ++ 0#14 ++ flag s.rvalid ++ flag s.rbit)) })

/-- R31, R32, R33: outside BUSY, POS keeps bits 15:0 of what is written and reads them back, TOL keeps and reads all 64
bits, CMD reads 0. -/
def Obligations.OperandRegisters : Prop :=
  ∀ s rest v, s.fsm ≠ .busy → s.cfg.legal = true →
    (NextWrite s 0x20 v rest → step s = .next
      { s with pos := v.extractLsb' 0 16, events := rest, answer := some .okayWrite }) ∧
    (NextRead s 0x20 rest → step s = .next { s with events := rest, answer := some (.okayRead (0#48 ++ s.pos)) }) ∧
    (NextWrite s 0x28 v rest → step s = .next { s with tol := v, events := rest, answer := some .okayWrite }) ∧
    (NextRead s 0x28 rest → step s = .next { s with events := rest, answer := some (.okayRead s.tol) }) ∧
    (NextRead s 0x30 rest → step s = .next { s with events := rest, answer := some (.okayRead 0#64) })

/-- R35, R36, R47: outside BUSY a host write of a buffer entry stores the word, little-endian, in that entry's eight bytes
and changes no other byte and no other field. -/
def Obligations.EntryWrites : Prop :=
  ∀ s rest i v, s.fsm ≠ .busy → s.cfg.legal = true → i < s.cfg.maxN →
    (NextWrite s (0x8000 + 8 * i) v rest → ∃ t, step s = .next t ∧
      t = { s with re := t.re, events := rest, answer := some .okayWrite } ∧ t.reEntry i = some v ∧
      (∀ k < 8, t.re.readByte (0x8000 + 8 * i + k) = some (v.extractLsb' (8 * k) 8)) ∧
      (∀ a, a < 0x8000 + 8 * i ∨ 0x8000 + 8 * i + 8 ≤ a → t.re.readByte a = s.re.readByte a)) ∧
    (NextWrite s (0x10000 + 8 * i) v rest → ∃ t, step s = .next t ∧
      t = { s with im := t.im, events := rest, answer := some .okayWrite } ∧ t.imEntry i = some v ∧
      (∀ k < 8, t.im.readByte (0x10000 + 8 * i + k) = some (v.extractLsb' (8 * k) 8)) ∧
      (∀ a, a < 0x10000 + 8 * i ∨ 0x10000 + 8 * i + 8 ≤ a → t.im.readByte a = s.im.readByte a))

/-- R35, R36, R42, R52: outside BUSY a host read of a known entry returns it and changes nothing; of an UNKNOWN one it
stops with the model's fault. -/
def Obligations.EntryReads : Prop :=
  ∀ s rest i, s.fsm ≠ .busy → s.cfg.legal = true → i < s.cfg.maxN →
    (NextRead s (0x8000 + 8 * i) rest → step s =
      (match s.reEntry i with
        | some v => .next { s with events := rest, answer := some (.okayRead v) }
        | none => .fault .hostReadUnknown)) ∧
    (NextRead s (0x10000 + 8 * i) rest → step s =
      (match s.imEntry i with
        | some v => .next { s with events := rest, answer := some (.okayRead v) }
        | none => .fault .hostReadUnknown))

/-- R126: a STATUS write in every ENGINE state: bit 1 clears DONE, bit 2 clears ERR and ERRCODE outside HALTED, and
nothing else changes. -/
def Obligations.StatusWriteOneToClear : Prop :=
  ∀ s v rest, s.cfg.legal = true → NextWrite s 0x18 v rest →
    step s = .next
      { s with
        done := s.done && !v.getLsbD 1
        err := s.err && !(v.getLsbD 2 && decide (s.fsm ≠ .halted))
        errCode := if v.getLsbD 2 = true ∧ s.fsm ≠ .halted then .none else s.errCode
        events := rest, answer := some .okayWrite }

/-- R123: a CTRL write with bit 0 = 0, in every ENGINE state, sets IRQ_EN from bit 1 and nothing else, and the IRQ line
follows at once. -/
def Obligations.InterruptEnableWrite : Prop :=
  ∀ s v rest, s.cfg.legal = true → NextWrite s 0x10 v rest → v.getLsbD 0 = false →
    ∃ t, step s = .next t ∧ t = { s with irqEn := v.getLsbD 1, events := rest, answer := some .okayWrite } ∧
      t.irq = (v.getLsbD 1 && (s.done || s.err))

/-- R125, R152: a CTRL write with bit 0 = 1, in every ENGINE state: the registers as after reset; the buffers kept, but for
the block of a BUSY command, which becomes UNKNOWN, in IM only for an FFT. Nothing is said of the hidden latches. -/
def Obligations.SoftReset : Prop :=
  ∀ s v rest, s.cfg.legal = true → NextWrite s 0x10 v rest → v.getLsbD 0 = true →
    ∃ t, step s = .next t ∧
      t = { s with
        fsm := .idle, irqEn := false, done := false, err := false, errCode := .none, pos := 0#16, tol := 0#64
        rbit := false, rvalid := false, epos := 0#16, re := t.re, im := t.im, cur := t.cur
        events := rest, answer := some .okayWrite } ∧ t.irq = false ∧
      (s.fsm ≠ .busy → t.re = s.re ∧ t.im = s.im) ∧
      (s.fsm = .busy →
        (∀ j < s.cur.entries, t.reEntry j = none ∧ (s.cur.alg.usesIm = true → t.imEntry j = none)) ∧
        (∀ a, a < reBase ∨ reBase + 8 * s.cur.entries ≤ a → t.re.readByte a = s.re.readByte a) ∧
        (∀ a, a < imBase ∨ imBase + 8 * s.cur.entries ≤ a → t.im.readByte a = s.im.readByte a) ∧
        (s.cur.alg.usesIm = false → t.im = s.im))

/-! ### Arithmetic and the transforms -/

/-- R14: `fl` gives the nearest binary64, ties to the even fraction, and an infinity from 2^1024 − 2^970 on. -/
def Obligations.RoundsToNearestEven : Prop :=
  ∀ (n : Int) (d : Nat), 0 < d →
    let r : ℚ := n / d
    let x := Fp.fl n d
    (|r| < 2 ^ 1024 - 2 ^ 970 → Fp.finite x = true ∧ ∀ z, Fp.finite z = true →
      |Exact.value x - r| ≤ |Exact.value z - r| ∧
      (|Exact.value x - r| = |Exact.value z - r| → Exact.value z ≠ Exact.value x → Fp.fraction x % 2 = 0)) ∧
    (2 ^ 1024 - 2 ^ 970 ≤ |r| → x = Fp.inf (decide (n < 0)))

/-- R14: the four operations on finite values are `fl` of the exact result, where that is not zero. -/
def Obligations.OperationsRoundOnce : Prop :=
  ∀ a b, Fp.finite a = true → Fp.finite b = true →
    (Fp.scaled a + Fp.scaled b ≠ 0 → Fp.fadd a b = Fp.fl (Fp.scaled a + Fp.scaled b) Fp.unit) ∧
    (Fp.scaled a - Fp.scaled b ≠ 0 → Fp.fsub a b = Fp.fl (Fp.scaled a - Fp.scaled b) Fp.unit) ∧
    (Fp.scaled a * Fp.scaled b ≠ 0 → Fp.fmul a b = Fp.fl (Fp.scaled a * Fp.scaled b) (Fp.unit * Fp.unit)) ∧
    (Fp.scaled a ≠ 0 → Fp.scaled b ≠ 0 →
      Fp.fdiv a b = Fp.fl (Fp.scaled a * (Fp.scaled b).sign) (Fp.scaled b).natAbs)

/-- R99, R100: REF's constants against the exact reals. The twiddles of a pass of length 2 or 4 are exact; the 8-point
coefficients of DCT2D, FDCT8 and FDCTLEE are the reals rounded once; and at every legal size every twiddle and every
coefficient is within 2^-52 of its real. -/
def Obligations.ReferenceConstants : Prop :=
  (∀ L m : Nat, (L = 2 ∨ L = 4) → m < L →
    ((Exact.value (Trig.twiddleCos L m) : ℚ) : ℝ) = Real.cos (2 * Real.pi * m / L) ∧
    ((Exact.value (Trig.twiddleSin .forward L m) : ℚ) : ℝ) = -Real.sin (2 * Real.pi * m / L) ∧
    ((Exact.value (Trig.twiddleSin .inverse L m) : ℚ) : ℝ) = Real.sin (2 * Real.pi * m / L)) ∧
  (∀ k n : Nat, k < 8 → n < 8 →
    NearestTo (Trig.dctCoeff 8 k n) (Exact.basis 8 k n) ∧ NearestTo (Trig.leeForward k n) (Exact.leeKernel k n) ∧
    NearestTo (Trig.leeInverse k n) (Exact.leeWeight k * Exact.leeKernel k n)) ∧
  (∀ L m : Nat, 0 < L → L ≤ 4096 → m < L →
    |((Exact.value (Trig.twiddleCos L m) : ℚ) : ℝ) - Real.cos (2 * Real.pi * m / L)| ≤ 1 / 2 ^ 52 ∧
    |((Exact.value (Trig.twiddleSin .forward L m) : ℚ) : ℝ) + Real.sin (2 * Real.pi * m / L)| ≤ 1 / 2 ^ 52 ∧
    |((Exact.value (Trig.twiddleSin .inverse L m) : ℚ) : ℝ) - Real.sin (2 * Real.pi * m / L)| ≤ 1 / 2 ^ 52) ∧
  (∀ S k n : Nat, 2 ≤ S → S ≤ 64 → k < S → n < S →
    |((Exact.value (Trig.dctCoeff S k n) : ℚ) : ℝ) - Exact.basis S k n| ≤ 1 / 2 ^ 52)

/-- R100: under REF, FFT1D of side 2 and FFT2D of side 2 or 4 on integers up to 2^40 in magnitude give exactly the
transform over the reals, in both directions: dividing by 4 or by 2 is exact in binary64. -/
def Obligations.SmallTransformsExact : Prop :=
  ∀ (alg : Alg) (dir : Direction) (S : Nat) (x y : List F64),
    (alg = .fft1d ∧ S = 2) ∨ (alg = .fft2d ∧ (S = 2 ∨ S = 4)) →
    x.length = S * S → y.length = S * S →
    (∀ v ∈ x ++ y, Fp.finite v = true ∧ ∃ n : Int, Exact.value v = n ∧ |n| ≤ 2 ^ 40) →
    let out := refXform alg dir S (x, y)
    let z := fun i => (⟨((Exact.value (x.getD i 0#64) : ℚ) : ℝ), ((Exact.value (y.getD i 0#64) : ℚ) : ℝ)⟩ : ℂ)
    ∀ i < S * S,
      Fp.finite (out.1.getD i 0#64) = true ∧ Fp.finite (out.2.getD i 0#64) = true ∧
      (((Exact.value (out.1.getD i 0#64) : ℚ) : ℝ) = (Exact.xform alg dir S z i).re) ∧
      (((Exact.value (out.2.getD i 0#64) : ℚ) : ℝ) = (Exact.xform alg dir S z i).im)

/-- R99: every output entry of REF, in both directions, is the sum the rule writes: the FFTs with the twiddles of the
pass's length, FFT2D and the DCTs on rows first and then on columns, DCT2D with its level shift, the inverse FFTs divided
once a pass; and a DCT has no imaginary output (R94). -/
def Obligations.ReferenceEntries : Prop :=
  ∀ (dir : Direction) (S : Nat) (x y : List F64) (e : Nat), x.length = S * S → y.length = S * S → e < S * S →
    let a := fun i => x.getD i 0#64
    let b := fun i => y.getD i 0#64
    let fft1d := refXform .fft1d dir S (x, y)
    let fft2d := refXform .fft2d dir S (x, y)
    let row := fun r c => dftEntry S dir (fun i => a (r * S + i)) (fun i => b (r * S + i)) c
    let twice := dftEntry S dir (fun r => (row r (e % S)).1) (fun r => (row r (e % S)).2) (e / S)
    (fft1d.1[e]? = some (dftEntry (S * S) dir a b e).1 ∧ fft1d.2[e]? = some (dftEntry (S * S) dir a b e).2) ∧
    (fft2d.1[e]? = some twice.1 ∧ fft2d.2[e]? = some twice.2) ∧
    (refXform .dct2d dir S (x, y)).1[e]? = some
      (match dir with
        | .forward => separableEntry S (Trig.dctCoeff S) (fun i => Fp.fsub (a i) 0x4060000000000000#64) e
        | .inverse => Fp.fadd (separableEntry S (fun n k => Trig.dctCoeff S k n) a e) 0x4060000000000000#64) ∧
    (S = 8 → (refXform .fdct8 dir 8 (x, y)).1[e]? = some
      (match dir with
        | .forward => separableEntry 8 (Trig.dctCoeff 8) a e
        | .inverse => separableEntry 8 (fun n k => Trig.dctCoeff 8 k n) a e)) ∧
    (S = 8 → (refXform .fdctlee dir 8 (x, y)).1[e]? = some
      (match dir with
        | .forward => separableEntry 8 Trig.leeForward a e
        | .inverse => separableEntry 8 (fun n k => Trig.leeInverse k n) a e)) ∧
    (∀ alg : Alg, alg.usesIm = false → (refXform alg dir S (x, y)).2 = [])

/-- R95: over the reals, INV after FWD gives the block back, for every algorithm and legal size. -/
def Obligations.ExactRoundTrip : Prop :=
  ∀ (alg : Alg) (S : Nat) (z : ℕ → ℂ) (i : ℕ), LegalSize 64 alg S → i < S * S →
    Exact.xform alg .inverse S (Exact.xform alg .forward S z) i = z i

/-- R101: what adding δ to the carrier coefficient adds to every sample after the exact inverse transform. -/
def Obligations.CarrierChangesSamples : Prop :=
  ∀ (S : Nat) (Z : ℕ → ℂ) (δ : ℝ) (e p : ℕ), 2 ≤ S → e < S * S →
    let changed := fun p => Function.update Z p (Z p + δ)
    let w := fun n : ℕ => Real.cos (Real.pi * (2 * n + 1) * 7 / 16)
    Exact.xform .fft2d .inverse S (changed 0) e = Exact.xform .fft2d .inverse S Z e + (δ / (S * S : ℕ) : ℝ) ∧
    Exact.xform .dct2d .inverse S (changed 0) e = Exact.xform .dct2d .inverse S Z e + (δ / S : ℝ) ∧
    (S = 8 → Exact.xform .fdct8 .inverse S (changed 63) e =
      Exact.xform .fdct8 .inverse S Z e + (δ * (1 / 4) * w (e / 8) * w (e % 8) : ℝ)) ∧
    (S = 8 → Exact.xform .fdctlee .inverse S (changed 63) e =
      Exact.xform .fdctlee .inverse S Z e + (δ * (1 / 16) * w (e / 8) * w (e % 8) : ℝ)) ∧
    (p < S * S → Exact.xform .fft1d .inverse S (changed p) e = Exact.xform .fft1d .inverse S Z e +
      (⟨δ / (S * S : ℕ) * Real.cos (2 * Real.pi * p * e / (S * S : ℕ)),
        δ / (S * S : ℕ) * Real.sin (2 * Real.pi * p * e / (S * S : ℕ))⟩ : ℂ))
end

