-- ==== Sys2Proof/Laws/Bits.lean ====
section
/-! SUPPORT. The bit fields of a word (R11) as bit-vector operations. -/

namespace Sys2Proof

/-- `bits` is the field of the word, read as an unsigned integer. -/
theorem bits_eq_extractLsb' (w : Word) (lo width : Nat) : bits w lo width = (w.extractLsb' lo width).toNat := by
  simp [bits, BitVec.extractLsb'_toNat, Nat.shiftRight_eq_div_pow]

/-- `bit` is one bit of the word. -/
theorem bit_eq_getLsbD (w : Word) (i : Nat) : bit w i = w.getLsbD i := by
  rw [bit, bits, BitVec.getLsbD, Nat.testBit_eq_decide_div_mod_eq]
  rw [Bool.eq_iff_iff]
  simp

theorem bits_lt (w : Word) (lo width : Nat) : bits w lo width < 2 ^ width :=
  Nat.mod_lt _ (Nat.two_pow_pos width)

/-- The decoder raises only the two fatal codes (R69, R131). -/
theorem decode_fatal {w : Word} {c : ErrCode} (h : decode w = .fatal c) : c = .illegal ∨ c = .badAlg := by
  unfold decode at h
  dsimp only at h
  split_ifs at h
  · cases h; exact .inl rfl
  · cases h; exact .inl rfl
  · split at h
    · cases h; exact .inr rfl
    · split at h <;> cases h
      exact .inl rfl

end Sys2Proof
end

