-- ==== Sys2Proof/Laws/Memory.lean ====
section
/-! SUPPORT. The buffers: what a byte and an entry read as after each operation, and that every operation keeps the
canonical form. -/

namespace Sys2Proof.Machine

/-! ### Canonical form -/

theorem Memory.wf_cons {c : Host.Cell} {m : Memory} :
    Memory.wf (c :: m) = true ↔ (∀ d ∈ m, c.1 < d.1) ∧ m.wf = true := by
  induction m generalizing c with
  | nil => simp [Memory.wf]
  | cons b m ih =>
    simp only [Memory.wf, Bool.and_eq_true, decide_eq_true_eq, List.mem_cons, forall_eq_or_imp]
    constructor
    · rintro ⟨h1, h2⟩
      exact ⟨⟨h1, fun d hd => h1.trans ((ih.mp h2).1 d hd)⟩, h2⟩
    · rintro ⟨⟨h1, -⟩, h2⟩
      exact ⟨h1, h2⟩

theorem Memory.mem_writeByte {m : Memory} {a : Nat} {v : Byte} {c : Host.Cell} (h : c ∈ m.writeByte a v) :
    c = (a, v) ∨ c ∈ m := by
  induction m with
  | nil => simpa [Memory.writeByte] using h
  | cons b m ih =>
    simp only [Memory.writeByte] at h
    split_ifs at h with h1 h2
    · simpa using h
    · rcases List.mem_cons.mp h with h | h
      · exact .inl h
      · exact .inr (List.mem_cons_of_mem _ h)
    · rcases List.mem_cons.mp h with h | h
      · exact .inr (by simp [h])
      · exact (ih h).imp_right (List.mem_cons_of_mem _)

theorem Memory.wf_writeByte {m : Memory} (h : m.wf = true) (a : Nat) (v : Byte) : (m.writeByte a v).wf = true := by
  induction m with
  | nil => rfl
  | cons b m ih =>
    obtain ⟨hb, hm⟩ := Memory.wf_cons.mp h
    simp only [Memory.writeByte]
    split_ifs with h1 h2
    · refine Memory.wf_cons.mpr ⟨fun d hd => ?_, h⟩
      rcases List.mem_cons.mp hd with rfl | hd
      · exact h1
      · exact h1.trans (hb d hd)
    · exact Memory.wf_cons.mpr ⟨fun d hd => h2 ▸ hb d hd, hm⟩
    · refine Memory.wf_cons.mpr ⟨fun d hd => ?_, ih hm⟩
      rcases Memory.mem_writeByte hd with rfl | hd
      · simp only; omega
      · exact hb d hd

theorem Memory.mem_eraseByte {m : Memory} {a : Nat} {c : Host.Cell} (h : c ∈ m.eraseByte a) : c ∈ m := by
  induction m with
  | nil => simp [Memory.eraseByte] at h
  | cons b m ih =>
    simp only [Memory.eraseByte] at h
    split_ifs at h
    · exact List.mem_cons_of_mem _ (ih h)
    · rcases List.mem_cons.mp h with h | h
      · simp [h]
      · exact List.mem_cons_of_mem _ (ih h)

theorem Memory.wf_eraseByte {m : Memory} (h : m.wf = true) (a : Nat) : (m.eraseByte a).wf = true := by
  induction m with
  | nil => rfl
  | cons b m ih =>
    obtain ⟨hb, hm⟩ := Memory.wf_cons.mp h
    simp only [Memory.eraseByte]
    split_ifs
    · exact ih hm
    · exact Memory.wf_cons.mpr ⟨fun d hd => hb d (Memory.mem_eraseByte hd), ih hm⟩

theorem Memory.wf_writeBytes {m : Memory} (h : m.wf = true) (off v n : Nat) : (m.writeBytes off v n).wf = true := by
  induction n generalizing m off v with
  | zero => exact h
  | succ n ih => exact ih (Memory.wf_writeByte h _ _) _ _

theorem Memory.wf_writeEntry {m : Memory} (h : m.wf = true) (off : Nat) (v : Word) :
    (m.writeEntry off v).wf = true := Memory.wf_writeBytes h _ _ _

theorem Memory.wf_writeEntries {m : Memory} (h : m.wf = true) (off : Nat) (vs : List Word) :
    (m.writeEntries off vs).wf = true := by
  induction vs generalizing m off with
  | nil => exact h
  | cons v vs ih => exact ih (Memory.wf_writeEntry h _ _) _

theorem Memory.wf_eraseBytes {m : Memory} (h : m.wf = true) (off n : Nat) : (m.eraseBytes off n).wf = true := by
  induction n generalizing m off with
  | zero => exact h
  | succ n ih => exact ih (Memory.wf_eraseByte h _) _

theorem Memory.wf_eraseEntries {m : Memory} (h : m.wf = true) (base n : Nat) : (m.eraseEntries base n).wf = true :=
  Memory.wf_eraseBytes h _ _

/-! ### Bytes -/

@[simp] theorem Memory.readByte_writeByte (m : Memory) (a b : Nat) (v : Byte) :
    (m.writeByte a v).readByte b = if b = a then some v else m.readByte b := by
  induction m with
  | nil => simp [Memory.writeByte, Memory.readByte, eq_comm]
  | cons c m ih =>
    simp only [Memory.writeByte]
    split_ifs with h1 h2 h3 <;> simp_all [Memory.readByte]
    all_goals grind

@[simp] theorem Memory.readByte_eraseByte (m : Memory) (a b : Nat) :
    (m.eraseByte a).readByte b = if b = a then none else m.readByte b := by
  induction m with
  | nil => simp [Memory.eraseByte, Memory.readByte]
  | cons c m ih =>
    simp only [Memory.eraseByte]
    split_ifs <;> simp_all [Memory.readByte]
    all_goals grind

/-- A byte after a multi-byte write: the byte of `v` at its place, and elsewhere as before (R47). -/
theorem Memory.readByte_writeBytes (m : Memory) (off v n b : Nat) :
    (m.writeBytes off v n).readByte b =
      if off ≤ b ∧ b < off + n then some (BitVec.ofNat 8 (v / 256 ^ (b - off))) else m.readByte b := by
  induction n generalizing m off v with
  | zero => simp [Memory.writeBytes]
  | succ n ih =>
    rw [Memory.writeBytes, ih, Memory.readByte_writeByte]
    by_cases hb : b = off
    · subst hb; simp
    · by_cases h : off + 1 ≤ b ∧ b < off + 1 + n
      · obtain ⟨k, rfl⟩ : ∃ k, b = off + 1 + k := ⟨b - (off + 1), by omega⟩
        have h1 : off + 1 + k - (off + 1) = k := by omega
        have h2 : off + 1 + k - off = k + 1 := by omega
        rw [if_pos h, if_pos (by omega), h1, h2, pow_succ', Nat.div_div_eq_div_mul]
      · rw [if_neg h, if_neg hb, if_neg (by omega)]

theorem Memory.readByte_eraseBytes (m : Memory) (off n b : Nat) :
    (m.eraseBytes off n).readByte b = if off ≤ b ∧ b < off + n then none else m.readByte b := by
  induction n generalizing m off with
  | zero => simp [Memory.eraseBytes]
  | succ n ih =>
    rw [Memory.eraseBytes, ih, Memory.readByte_eraseByte]
    by_cases hb : b = off
    · subst hb; simp
    · by_cases h : off + 1 ≤ b ∧ b < off + 1 + n
      · rw [if_pos h, if_pos (by omega)]
      · rw [if_neg h, if_neg hb, if_neg (by omega)]

/-! ### Entries -/

/-- A multi-byte read depends on its own bytes alone. -/
theorem Memory.readBytes_congr {m m' : Memory} {off n : Nat}
    (h : ∀ b, off ≤ b → b < off + n → m.readByte b = m'.readByte b) : m.readBytes off n = m'.readBytes off n := by
  induction n generalizing off with
  | zero => rfl
  | succ n ih =>
    rw [Memory.readBytes, Memory.readBytes, h off le_rfl (by omega), ih fun b h1 h2 => h b (by omega) (by omega)]

theorem Memory.readBytes_writeBytes (m : Memory) (off v n : Nat) :
    (m.writeBytes off v n).readBytes off n = some (v % 256 ^ n) := by
  induction n generalizing m off v with
  | zero => simp [Memory.readBytes, Nat.mod_one]
  | succ n ih =>
    rw [Memory.readBytes, Memory.writeBytes, ih, Memory.readByte_writeBytes, if_neg (by omega),
      Memory.readByte_writeByte, if_pos rfl]
    have h : v % 256 ^ (n + 1) = v % 256 + 256 * (v / 256 % 256 ^ n) := by
      rw [pow_succ', Nat.mod_mul]
    simp [h]

/-- An entry depends on its own eight bytes alone. -/
theorem Memory.readEntry_congr {m m' : Memory} {off : Nat}
    (h : ∀ b, off ≤ b → b < off + 8 → m.readByte b = m'.readByte b) : m.readEntry off = m'.readEntry off := by
  rw [Memory.readEntry, Memory.readEntry, Memory.readBytes_congr h]

/-- An entry just written reads as written (R35). -/
@[simp] theorem Memory.readEntry_writeEntry_same (m : Memory) (off : Nat) (v : Word) :
    (m.writeEntry off v).readEntry off = some v := by
  have hv : v.toNat < 256 ^ 8 := by have := v.isLt; norm_num; omega
  rw [Memory.readEntry, Memory.writeEntry, Memory.readBytes_writeBytes, Nat.mod_eq_of_lt hv]
  simp

/-- Writing an entry leaves the bytes outside it alone. -/
theorem Memory.readByte_writeEntry_outside (m : Memory) (off b : Nat) (v : Word) (h : b < off ∨ off + 8 ≤ b) :
    (m.writeEntry off v).readByte b = m.readByte b := by
  rw [Memory.writeEntry, Memory.readByte_writeBytes, if_neg (by omega)]

/-- Writing an entry leaves every disjoint entry alone. -/
theorem Memory.readEntry_writeEntry_other (m : Memory) (off off' : Nat) (v : Word)
    (h : off' + 8 ≤ off ∨ off + 8 ≤ off') : (m.writeEntry off v).readEntry off' = m.readEntry off' :=
  Memory.readEntry_congr fun _ _ _ => Memory.readByte_writeEntry_outside _ _ _ _ (by omega)

/-- Writing entries leaves the bytes outside them alone. -/
theorem Memory.readByte_writeEntries_outside (m : Memory) (off b : Nat) (vs : List Word)
    (h : b < off ∨ off + 8 * vs.length ≤ b) : (m.writeEntries off vs).readByte b = m.readByte b := by
  induction vs generalizing m off with
  | nil => rfl
  | cons v vs ih =>
    simp only [List.length_cons] at h
    rw [Memory.writeEntries, ih _ _ (by omega), Memory.readByte_writeEntry_outside _ _ _ _ (by omega)]

/-- Every entry of a block just written reads as written. -/
theorem Memory.readEntry_writeEntries (m : Memory) (off i : Nat) (vs : List Word) (h : i < vs.length) :
    (m.writeEntries off vs).readEntry (off + 8 * i) = some vs[i] := by
  induction vs generalizing m off i with
  | nil => simp at h
  | cons v vs ih =>
    rw [Memory.writeEntries]
    cases i with
    | zero =>
      have hsame : ((m.writeEntry off v).writeEntries (off + 8) vs).readEntry off = (m.writeEntry off v).readEntry off :=
        Memory.readEntry_congr fun b h1 h2 => Memory.readByte_writeEntries_outside _ _ _ _ (by omega)
      simpa using hsame.trans (Memory.readEntry_writeEntry_same m off v)
    | succ i =>
      have := ih (m.writeEntry off v) (off + 8) i (by simpa using h)
      rw [show off + 8 * (i + 1) = off + 8 + 8 * i by omega, this]
      simp

/-- Reading entries succeeds exactly with the list of what each reads as. -/
theorem Memory.readEntries_eq_some {m : Memory} {off n : Nat} {vs : List Word} :
    m.readEntries off n = some vs ↔ vs.length = n ∧ ∀ i (h : i < vs.length), m.readEntry (off + 8 * i) = some vs[i] := by
  induction n generalizing off vs with
  | zero =>
    simp only [Memory.readEntries, Option.some.injEq]
    constructor
    · rintro rfl; simp
    · rintro ⟨h, -⟩; exact (List.length_eq_zero_iff.mp h).symm
  | succ n ih =>
    constructor
    · intro h
      rw [Memory.readEntries] at h
      split at h
      · next v ws hv hws =>
        cases h
        obtain ⟨hl, hr⟩ := ih.mp hws
        refine ⟨by simp [hl], fun i hi => ?_⟩
        cases i with
        | zero => simpa using hv
        | succ i =>
          rw [show off + 8 * (i + 1) = off + 8 + 8 * i by omega]
          simpa using hr i (by simpa using hi)
      · cases h
    · rintro ⟨hl, hr⟩
      cases vs with
      | nil => simp at hl
      | cons v ws =>
        have hv : m.readEntry off = some v := hr 0 (by simp)
        have hws : m.readEntries (off + 8) n = some ws := ih.mpr ⟨by simpa using hl, fun i hi => by
          have := hr (i + 1) (by simpa using hi)
          rw [show off + 8 * (i + 1) = off + 8 + 8 * i by omega] at this
          simpa using this⟩
        rw [Memory.readEntries, hv, hws]

/-- An entry of an erased block is UNKNOWN (R125). -/
theorem Memory.readEntry_eraseEntries (m : Memory) (base n i : Nat) (h : i < n) :
    (m.eraseEntries base n).readEntry (base + 8 * i) = none := by
  rw [Memory.readEntry, Memory.readBytes, Memory.eraseEntries, Memory.readByte_eraseBytes, if_pos (by omega)]
  simp

/-- Erasing a block leaves the bytes outside it alone. -/
theorem Memory.readByte_eraseEntries_outside (m : Memory) (base n b : Nat) (h : b < base ∨ base + 8 * n ≤ b) :
    (m.eraseEntries base n).readByte b = m.readByte b := by
  rw [Memory.eraseEntries, Memory.readByte_eraseBytes, if_neg (by omega)]

end Sys2Proof.Machine
end

