-- ==== Sys2Proof/Laws/State.lean ====
section
/-! SUPPORT. What each named update of the state leaves in each field: one lemma per field per update, so that no later
proof unfolds a record update. -/

namespace Sys2Proof.Machine

@[simp] theorem State.beginAcceptance_cfg (s : State) : (s.beginAcceptance).cfg = s.cfg := rfl
@[simp] theorem State.beginAcceptance_fsm (s : State) : (s.beginAcceptance).fsm = s.fsm := rfl
@[simp] theorem State.beginAcceptance_cur (s : State) : (s.beginAcceptance).cur = s.cur := rfl
@[simp] theorem State.beginAcceptance_irqEn (s : State) : (s.beginAcceptance).irqEn = s.irqEn := rfl
@[simp] theorem State.beginAcceptance_done (s : State) : (s.beginAcceptance).done = false := rfl
@[simp] theorem State.beginAcceptance_err (s : State) : (s.beginAcceptance).err = s.err := rfl
@[simp] theorem State.beginAcceptance_errCode (s : State) : (s.beginAcceptance).errCode = s.errCode := rfl
@[simp] theorem State.beginAcceptance_pos (s : State) : (s.beginAcceptance).pos = s.pos := rfl
@[simp] theorem State.beginAcceptance_tol (s : State) : (s.beginAcceptance).tol = s.tol := rfl
@[simp] theorem State.beginAcceptance_rbit (s : State) : (s.beginAcceptance).rbit = s.rbit := rfl
@[simp] theorem State.beginAcceptance_rvalid (s : State) : (s.beginAcceptance).rvalid = false := rfl
@[simp] theorem State.beginAcceptance_epos (s : State) : (s.beginAcceptance).epos = s.epos := rfl
@[simp] theorem State.beginAcceptance_re (s : State) : (s.beginAcceptance).re = s.re := rfl
@[simp] theorem State.beginAcceptance_im (s : State) : (s.beginAcceptance).im = s.im := rfl
@[simp] theorem State.beginAcceptance_events (s : State) : (s.beginAcceptance).events = s.events := rfl
@[simp] theorem State.beginAcceptance_answer (s : State) : (s.beginAcceptance).answer = s.answer := rfl

@[simp] theorem State.finish_cfg (s : State) : (s.finish).cfg = s.cfg := rfl
@[simp] theorem State.finish_fsm (s : State) : (s.finish).fsm = .idle := rfl
@[simp] theorem State.finish_cur (s : State) : (s.finish).cur = s.cur := rfl
@[simp] theorem State.finish_irqEn (s : State) : (s.finish).irqEn = s.irqEn := rfl
@[simp] theorem State.finish_done (s : State) : (s.finish).done = true := rfl
@[simp] theorem State.finish_err (s : State) : (s.finish).err = s.err := rfl
@[simp] theorem State.finish_errCode (s : State) : (s.finish).errCode = s.errCode := rfl
@[simp] theorem State.finish_pos (s : State) : (s.finish).pos = s.pos := rfl
@[simp] theorem State.finish_tol (s : State) : (s.finish).tol = s.tol := rfl
@[simp] theorem State.finish_rbit (s : State) : (s.finish).rbit = s.rbit := rfl
@[simp] theorem State.finish_rvalid (s : State) : (s.finish).rvalid = s.rvalid := rfl
@[simp] theorem State.finish_epos (s : State) : (s.finish).epos = s.epos := rfl
@[simp] theorem State.finish_re (s : State) : (s.finish).re = s.re := rfl
@[simp] theorem State.finish_im (s : State) : (s.finish).im = s.im := rfl
@[simp] theorem State.finish_events (s : State) : (s.finish).events = s.events := rfl
@[simp] theorem State.finish_answer (s : State) : (s.finish).answer = s.answer := rfl

@[simp] theorem State.raiseError_cfg (s : State) (c : ErrCode) : (s.raiseError c).cfg = s.cfg := rfl
@[simp] theorem State.raiseError_fsm (s : State) (c : ErrCode) : (s.raiseError c).fsm = .idle := rfl
@[simp] theorem State.raiseError_cur (s : State) (c : ErrCode) : (s.raiseError c).cur = s.cur := rfl
@[simp] theorem State.raiseError_irqEn (s : State) (c : ErrCode) : (s.raiseError c).irqEn = s.irqEn := rfl
@[simp] theorem State.raiseError_done (s : State) (c : ErrCode) : (s.raiseError c).done = s.done := rfl
@[simp] theorem State.raiseError_err (s : State) (c : ErrCode) : (s.raiseError c).err = true := rfl
@[simp] theorem State.raiseError_errCode (s : State) (c : ErrCode) : (s.raiseError c).errCode = c := rfl
@[simp] theorem State.raiseError_pos (s : State) (c : ErrCode) : (s.raiseError c).pos = s.pos := rfl
@[simp] theorem State.raiseError_tol (s : State) (c : ErrCode) : (s.raiseError c).tol = s.tol := rfl
@[simp] theorem State.raiseError_rbit (s : State) (c : ErrCode) : (s.raiseError c).rbit = s.rbit := rfl
@[simp] theorem State.raiseError_rvalid (s : State) (c : ErrCode) : (s.raiseError c).rvalid = s.rvalid := rfl
@[simp] theorem State.raiseError_epos (s : State) (c : ErrCode) : (s.raiseError c).epos = s.epos := rfl
@[simp] theorem State.raiseError_re (s : State) (c : ErrCode) : (s.raiseError c).re = s.re := rfl
@[simp] theorem State.raiseError_im (s : State) (c : ErrCode) : (s.raiseError c).im = s.im := rfl
@[simp] theorem State.raiseError_events (s : State) (c : ErrCode) : (s.raiseError c).events = s.events := rfl
@[simp] theorem State.raiseError_answer (s : State) (c : ErrCode) : (s.raiseError c).answer = s.answer := rfl

@[simp] theorem State.raiseFatal_cfg (s : State) (c : ErrCode) : (s.raiseFatal c).cfg = s.cfg := rfl
@[simp] theorem State.raiseFatal_fsm (s : State) (c : ErrCode) : (s.raiseFatal c).fsm = .halted := rfl
@[simp] theorem State.raiseFatal_cur (s : State) (c : ErrCode) : (s.raiseFatal c).cur = s.cur := rfl
@[simp] theorem State.raiseFatal_irqEn (s : State) (c : ErrCode) : (s.raiseFatal c).irqEn = s.irqEn := rfl
@[simp] theorem State.raiseFatal_done (s : State) (c : ErrCode) : (s.raiseFatal c).done = s.done := rfl
@[simp] theorem State.raiseFatal_err (s : State) (c : ErrCode) : (s.raiseFatal c).err = true := rfl
@[simp] theorem State.raiseFatal_errCode (s : State) (c : ErrCode) : (s.raiseFatal c).errCode = c := rfl
@[simp] theorem State.raiseFatal_pos (s : State) (c : ErrCode) : (s.raiseFatal c).pos = s.pos := rfl
@[simp] theorem State.raiseFatal_tol (s : State) (c : ErrCode) : (s.raiseFatal c).tol = s.tol := rfl
@[simp] theorem State.raiseFatal_rbit (s : State) (c : ErrCode) : (s.raiseFatal c).rbit = s.rbit := rfl
@[simp] theorem State.raiseFatal_rvalid (s : State) (c : ErrCode) : (s.raiseFatal c).rvalid = s.rvalid := rfl
@[simp] theorem State.raiseFatal_epos (s : State) (c : ErrCode) : (s.raiseFatal c).epos = s.epos := rfl
@[simp] theorem State.raiseFatal_re (s : State) (c : ErrCode) : (s.raiseFatal c).re = s.re := rfl
@[simp] theorem State.raiseFatal_im (s : State) (c : ErrCode) : (s.raiseFatal c).im = s.im := rfl
@[simp] theorem State.raiseFatal_events (s : State) (c : ErrCode) : (s.raiseFatal c).events = s.events := rfl
@[simp] theorem State.raiseFatal_answer (s : State) (c : ErrCode) : (s.raiseFatal c).answer = s.answer := rfl

@[simp] theorem State.setRe_cfg (s : State) (i : Nat) (v : F64) : (s.setRe i v).cfg = s.cfg := rfl
@[simp] theorem State.setRe_fsm (s : State) (i : Nat) (v : F64) : (s.setRe i v).fsm = s.fsm := rfl
@[simp] theorem State.setRe_cur (s : State) (i : Nat) (v : F64) : (s.setRe i v).cur = s.cur := rfl
@[simp] theorem State.setRe_irqEn (s : State) (i : Nat) (v : F64) : (s.setRe i v).irqEn = s.irqEn := rfl
@[simp] theorem State.setRe_done (s : State) (i : Nat) (v : F64) : (s.setRe i v).done = s.done := rfl
@[simp] theorem State.setRe_err (s : State) (i : Nat) (v : F64) : (s.setRe i v).err = s.err := rfl
@[simp] theorem State.setRe_errCode (s : State) (i : Nat) (v : F64) : (s.setRe i v).errCode = s.errCode := rfl
@[simp] theorem State.setRe_pos (s : State) (i : Nat) (v : F64) : (s.setRe i v).pos = s.pos := rfl
@[simp] theorem State.setRe_tol (s : State) (i : Nat) (v : F64) : (s.setRe i v).tol = s.tol := rfl
@[simp] theorem State.setRe_rbit (s : State) (i : Nat) (v : F64) : (s.setRe i v).rbit = s.rbit := rfl
@[simp] theorem State.setRe_rvalid (s : State) (i : Nat) (v : F64) : (s.setRe i v).rvalid = s.rvalid := rfl
@[simp] theorem State.setRe_epos (s : State) (i : Nat) (v : F64) : (s.setRe i v).epos = s.epos := rfl
@[simp] theorem State.setRe_re (s : State) (i : Nat) (v : F64) : (s.setRe i v).re = s.re.writeEntry (entryOffset reBase i) v := rfl
@[simp] theorem State.setRe_im (s : State) (i : Nat) (v : F64) : (s.setRe i v).im = s.im := rfl
@[simp] theorem State.setRe_events (s : State) (i : Nat) (v : F64) : (s.setRe i v).events = s.events := rfl
@[simp] theorem State.setRe_answer (s : State) (i : Nat) (v : F64) : (s.setRe i v).answer = s.answer := rfl

@[simp] theorem State.setIm_cfg (s : State) (i : Nat) (v : F64) : (s.setIm i v).cfg = s.cfg := rfl
@[simp] theorem State.setIm_fsm (s : State) (i : Nat) (v : F64) : (s.setIm i v).fsm = s.fsm := rfl
@[simp] theorem State.setIm_cur (s : State) (i : Nat) (v : F64) : (s.setIm i v).cur = s.cur := rfl
@[simp] theorem State.setIm_irqEn (s : State) (i : Nat) (v : F64) : (s.setIm i v).irqEn = s.irqEn := rfl
@[simp] theorem State.setIm_done (s : State) (i : Nat) (v : F64) : (s.setIm i v).done = s.done := rfl
@[simp] theorem State.setIm_err (s : State) (i : Nat) (v : F64) : (s.setIm i v).err = s.err := rfl
@[simp] theorem State.setIm_errCode (s : State) (i : Nat) (v : F64) : (s.setIm i v).errCode = s.errCode := rfl
@[simp] theorem State.setIm_pos (s : State) (i : Nat) (v : F64) : (s.setIm i v).pos = s.pos := rfl
@[simp] theorem State.setIm_tol (s : State) (i : Nat) (v : F64) : (s.setIm i v).tol = s.tol := rfl
@[simp] theorem State.setIm_rbit (s : State) (i : Nat) (v : F64) : (s.setIm i v).rbit = s.rbit := rfl
@[simp] theorem State.setIm_rvalid (s : State) (i : Nat) (v : F64) : (s.setIm i v).rvalid = s.rvalid := rfl
@[simp] theorem State.setIm_epos (s : State) (i : Nat) (v : F64) : (s.setIm i v).epos = s.epos := rfl
@[simp] theorem State.setIm_re (s : State) (i : Nat) (v : F64) : (s.setIm i v).re = s.re := rfl
@[simp] theorem State.setIm_im (s : State) (i : Nat) (v : F64) : (s.setIm i v).im = s.im.writeEntry (entryOffset imBase i) v := rfl
@[simp] theorem State.setIm_events (s : State) (i : Nat) (v : F64) : (s.setIm i v).events = s.events := rfl
@[simp] theorem State.setIm_answer (s : State) (i : Nat) (v : F64) : (s.setIm i v).answer = s.answer := rfl

@[simp] theorem State.writeBlock_cfg (s : State) (alg : Alg) (z : Block) : (s.writeBlock alg z).cfg = s.cfg := rfl
@[simp] theorem State.writeBlock_fsm (s : State) (alg : Alg) (z : Block) : (s.writeBlock alg z).fsm = s.fsm := rfl
@[simp] theorem State.writeBlock_cur (s : State) (alg : Alg) (z : Block) : (s.writeBlock alg z).cur = s.cur := rfl
@[simp] theorem State.writeBlock_irqEn (s : State) (alg : Alg) (z : Block) : (s.writeBlock alg z).irqEn = s.irqEn := rfl
@[simp] theorem State.writeBlock_done (s : State) (alg : Alg) (z : Block) : (s.writeBlock alg z).done = s.done := rfl
@[simp] theorem State.writeBlock_err (s : State) (alg : Alg) (z : Block) : (s.writeBlock alg z).err = s.err := rfl
@[simp] theorem State.writeBlock_errCode (s : State) (alg : Alg) (z : Block) : (s.writeBlock alg z).errCode = s.errCode := rfl
@[simp] theorem State.writeBlock_pos (s : State) (alg : Alg) (z : Block) : (s.writeBlock alg z).pos = s.pos := rfl
@[simp] theorem State.writeBlock_tol (s : State) (alg : Alg) (z : Block) : (s.writeBlock alg z).tol = s.tol := rfl
@[simp] theorem State.writeBlock_rbit (s : State) (alg : Alg) (z : Block) : (s.writeBlock alg z).rbit = s.rbit := rfl
@[simp] theorem State.writeBlock_rvalid (s : State) (alg : Alg) (z : Block) : (s.writeBlock alg z).rvalid = s.rvalid := rfl
@[simp] theorem State.writeBlock_epos (s : State) (alg : Alg) (z : Block) : (s.writeBlock alg z).epos = s.epos := rfl
@[simp] theorem State.writeBlock_re (s : State) (alg : Alg) (z : Block) : (s.writeBlock alg z).re = s.re.writeEntries reBase z.1 := rfl
@[simp] theorem State.writeBlock_im (s : State) (alg : Alg) (z : Block) : (s.writeBlock alg z).im = (if alg.usesIm then s.im.writeEntries imBase z.2 else s.im) := rfl
@[simp] theorem State.writeBlock_events (s : State) (alg : Alg) (z : Block) : (s.writeBlock alg z).events = s.events := rfl
@[simp] theorem State.writeBlock_answer (s : State) (alg : Alg) (z : Block) : (s.writeBlock alg z).answer = s.answer := rfl

@[simp] theorem State.latch_cfg (s : State) (op : BlockOp) (f : CmdFields) : (s.latch op f).cfg = s.cfg := rfl
@[simp] theorem State.latch_fsm (s : State) (op : BlockOp) (f : CmdFields) : (s.latch op f).fsm = .busy := rfl
@[simp] theorem State.latch_cur (s : State) (op : BlockOp) (f : CmdFields) : (s.latch op f).cur = { s.cur with op := op, alg := f.alg, bit := f.bit, size := f.size } := rfl
@[simp] theorem State.latch_irqEn (s : State) (op : BlockOp) (f : CmdFields) : (s.latch op f).irqEn = s.irqEn := rfl
@[simp] theorem State.latch_done (s : State) (op : BlockOp) (f : CmdFields) : (s.latch op f).done = s.done := rfl
@[simp] theorem State.latch_err (s : State) (op : BlockOp) (f : CmdFields) : (s.latch op f).err = s.err := rfl
@[simp] theorem State.latch_errCode (s : State) (op : BlockOp) (f : CmdFields) : (s.latch op f).errCode = s.errCode := rfl
@[simp] theorem State.latch_pos (s : State) (op : BlockOp) (f : CmdFields) : (s.latch op f).pos = s.pos := rfl
@[simp] theorem State.latch_tol (s : State) (op : BlockOp) (f : CmdFields) : (s.latch op f).tol = s.tol := rfl
@[simp] theorem State.latch_rbit (s : State) (op : BlockOp) (f : CmdFields) : (s.latch op f).rbit = s.rbit := rfl
@[simp] theorem State.latch_rvalid (s : State) (op : BlockOp) (f : CmdFields) : (s.latch op f).rvalid = s.rvalid := rfl
@[simp] theorem State.latch_epos (s : State) (op : BlockOp) (f : CmdFields) : (s.latch op f).epos = s.epos := rfl
@[simp] theorem State.latch_re (s : State) (op : BlockOp) (f : CmdFields) : (s.latch op f).re = s.re := rfl
@[simp] theorem State.latch_im (s : State) (op : BlockOp) (f : CmdFields) : (s.latch op f).im = s.im := rfl
@[simp] theorem State.latch_events (s : State) (op : BlockOp) (f : CmdFields) : (s.latch op f).events = s.events := rfl
@[simp] theorem State.latch_answer (s : State) (op : BlockOp) (f : CmdFields) : (s.latch op f).answer = s.answer := rfl

@[simp] theorem State.latchParity_cfg (s : State) (p : Nat) : (s.latchParity p).cfg = s.cfg := rfl
@[simp] theorem State.latchParity_fsm (s : State) (p : Nat) : (s.latchParity p).fsm = s.fsm := rfl
@[simp] theorem State.latchParity_cur (s : State) (p : Nat) : (s.latchParity p).cur = { s.cur with epos := BitVec.ofNat 16 p, tol := s.tol } := rfl
@[simp] theorem State.latchParity_irqEn (s : State) (p : Nat) : (s.latchParity p).irqEn = s.irqEn := rfl
@[simp] theorem State.latchParity_done (s : State) (p : Nat) : (s.latchParity p).done = s.done := rfl
@[simp] theorem State.latchParity_err (s : State) (p : Nat) : (s.latchParity p).err = s.err := rfl
@[simp] theorem State.latchParity_errCode (s : State) (p : Nat) : (s.latchParity p).errCode = s.errCode := rfl
@[simp] theorem State.latchParity_pos (s : State) (p : Nat) : (s.latchParity p).pos = s.pos := rfl
@[simp] theorem State.latchParity_tol (s : State) (p : Nat) : (s.latchParity p).tol = s.tol := rfl
@[simp] theorem State.latchParity_rbit (s : State) (p : Nat) : (s.latchParity p).rbit = s.rbit := rfl
@[simp] theorem State.latchParity_rvalid (s : State) (p : Nat) : (s.latchParity p).rvalid = s.rvalid := rfl
@[simp] theorem State.latchParity_epos (s : State) (p : Nat) : (s.latchParity p).epos = BitVec.ofNat 16 p := rfl
@[simp] theorem State.latchParity_re (s : State) (p : Nat) : (s.latchParity p).re = s.re := rfl
@[simp] theorem State.latchParity_im (s : State) (p : Nat) : (s.latchParity p).im = s.im := rfl
@[simp] theorem State.latchParity_events (s : State) (p : Nat) : (s.latchParity p).events = s.events := rfl
@[simp] theorem State.latchParity_answer (s : State) (p : Nat) : (s.latchParity p).answer = s.answer := rfl

@[simp] theorem State.abortCurrent_cfg (s : State) : (s.abortCurrent).cfg = s.cfg := rfl
@[simp] theorem State.abortCurrent_fsm (s : State) : (s.abortCurrent).fsm = s.fsm := rfl
@[simp] theorem State.abortCurrent_cur (s : State) : (s.abortCurrent).cur = s.cur := rfl
@[simp] theorem State.abortCurrent_irqEn (s : State) : (s.abortCurrent).irqEn = s.irqEn := rfl
@[simp] theorem State.abortCurrent_done (s : State) : (s.abortCurrent).done = s.done := rfl
@[simp] theorem State.abortCurrent_err (s : State) : (s.abortCurrent).err = s.err := rfl
@[simp] theorem State.abortCurrent_errCode (s : State) : (s.abortCurrent).errCode = s.errCode := rfl
@[simp] theorem State.abortCurrent_pos (s : State) : (s.abortCurrent).pos = s.pos := rfl
@[simp] theorem State.abortCurrent_tol (s : State) : (s.abortCurrent).tol = s.tol := rfl
@[simp] theorem State.abortCurrent_rbit (s : State) : (s.abortCurrent).rbit = s.rbit := rfl
@[simp] theorem State.abortCurrent_rvalid (s : State) : (s.abortCurrent).rvalid = s.rvalid := rfl
@[simp] theorem State.abortCurrent_epos (s : State) : (s.abortCurrent).epos = s.epos := rfl
@[simp] theorem State.abortCurrent_re (s : State) : (s.abortCurrent).re = s.re.eraseEntries reBase s.cur.entries := rfl
@[simp] theorem State.abortCurrent_im (s : State) : (s.abortCurrent).im = (if s.cur.alg.usesIm then s.im.eraseEntries imBase s.cur.entries else s.im) := rfl
@[simp] theorem State.abortCurrent_events (s : State) : (s.abortCurrent).events = s.events := rfl
@[simp] theorem State.abortCurrent_answer (s : State) : (s.abortCurrent).answer = s.answer := rfl

@[simp] theorem State.answering_cfg (s : State) (a : Option Answer) : (s.answering a).cfg = s.cfg := rfl
@[simp] theorem State.answering_fsm (s : State) (a : Option Answer) : (s.answering a).fsm = s.fsm := rfl
@[simp] theorem State.answering_cur (s : State) (a : Option Answer) : (s.answering a).cur = s.cur := rfl
@[simp] theorem State.answering_irqEn (s : State) (a : Option Answer) : (s.answering a).irqEn = s.irqEn := rfl
@[simp] theorem State.answering_done (s : State) (a : Option Answer) : (s.answering a).done = s.done := rfl
@[simp] theorem State.answering_err (s : State) (a : Option Answer) : (s.answering a).err = s.err := rfl
@[simp] theorem State.answering_errCode (s : State) (a : Option Answer) : (s.answering a).errCode = s.errCode := rfl
@[simp] theorem State.answering_pos (s : State) (a : Option Answer) : (s.answering a).pos = s.pos := rfl
@[simp] theorem State.answering_tol (s : State) (a : Option Answer) : (s.answering a).tol = s.tol := rfl
@[simp] theorem State.answering_rbit (s : State) (a : Option Answer) : (s.answering a).rbit = s.rbit := rfl
@[simp] theorem State.answering_rvalid (s : State) (a : Option Answer) : (s.answering a).rvalid = s.rvalid := rfl
@[simp] theorem State.answering_epos (s : State) (a : Option Answer) : (s.answering a).epos = s.epos := rfl
@[simp] theorem State.answering_re (s : State) (a : Option Answer) : (s.answering a).re = s.re := rfl
@[simp] theorem State.answering_im (s : State) (a : Option Answer) : (s.answering a).im = s.im := rfl
@[simp] theorem State.answering_events (s : State) (a : Option Answer) : (s.answering a).events = s.events := rfl
@[simp] theorem State.answering_answer (s : State) (a : Option Answer) : (s.answering a).answer = a := rfl

@[simp] theorem State.softReset_cfg (s : State) : (s.softReset).cfg = s.cfg := by
  unfold State.softReset
  cases s.busy <;> rfl
@[simp] theorem State.softReset_fsm (s : State) : (s.softReset).fsm = .idle := rfl
@[simp] theorem State.softReset_cur (s : State) : (s.softReset).cur = s.cur := by
  unfold State.softReset
  cases s.busy <;> rfl
@[simp] theorem State.softReset_irqEn (s : State) : (s.softReset).irqEn = false := rfl
@[simp] theorem State.softReset_done (s : State) : (s.softReset).done = false := rfl
@[simp] theorem State.softReset_err (s : State) : (s.softReset).err = false := rfl
@[simp] theorem State.softReset_errCode (s : State) : (s.softReset).errCode = .none := rfl
@[simp] theorem State.softReset_pos (s : State) : (s.softReset).pos = 0#16 := rfl
@[simp] theorem State.softReset_tol (s : State) : (s.softReset).tol = 0#64 := rfl
@[simp] theorem State.softReset_rbit (s : State) : (s.softReset).rbit = false := rfl
@[simp] theorem State.softReset_rvalid (s : State) : (s.softReset).rvalid = false := rfl
@[simp] theorem State.softReset_epos (s : State) : (s.softReset).epos = 0#16 := rfl
@[simp] theorem State.softReset_re (s : State) : (s.softReset).re = (if s.busy then s.re.eraseEntries reBase s.cur.entries else s.re) := by
  unfold State.softReset
  cases s.busy <;> rfl
@[simp] theorem State.softReset_im (s : State) : (s.softReset).im = (if s.busy && s.cur.alg.usesIm then s.im.eraseEntries imBase s.cur.entries else s.im) := by
  unfold State.softReset
  cases s.busy <;> rfl
@[simp] theorem State.softReset_events (s : State) : (s.softReset).events = s.events := by
  unfold State.softReset
  cases s.busy <;> rfl
@[simp] theorem State.softReset_answer (s : State) : (s.softReset).answer = s.answer := by
  unfold State.softReset
  cases s.busy <;> rfl

@[simp] theorem State.hardwareReset_cfg (s : State) : (s.hardwareReset).cfg = s.cfg := rfl
@[simp] theorem State.hardwareReset_fsm (s : State) : (s.hardwareReset).fsm = .idle := rfl
@[simp] theorem State.hardwareReset_cur (s : State) : (s.hardwareReset).cur = Current.reset := rfl
@[simp] theorem State.hardwareReset_irqEn (s : State) : (s.hardwareReset).irqEn = false := rfl
@[simp] theorem State.hardwareReset_done (s : State) : (s.hardwareReset).done = false := rfl
@[simp] theorem State.hardwareReset_err (s : State) : (s.hardwareReset).err = false := rfl
@[simp] theorem State.hardwareReset_errCode (s : State) : (s.hardwareReset).errCode = .none := rfl
@[simp] theorem State.hardwareReset_pos (s : State) : (s.hardwareReset).pos = 0#16 := rfl
@[simp] theorem State.hardwareReset_tol (s : State) : (s.hardwareReset).tol = 0#64 := rfl
@[simp] theorem State.hardwareReset_rbit (s : State) : (s.hardwareReset).rbit = false := rfl
@[simp] theorem State.hardwareReset_rvalid (s : State) : (s.hardwareReset).rvalid = false := rfl
@[simp] theorem State.hardwareReset_epos (s : State) : (s.hardwareReset).epos = 0#16 := rfl
@[simp] theorem State.hardwareReset_re (s : State) : (s.hardwareReset).re = [] := rfl
@[simp] theorem State.hardwareReset_im (s : State) : (s.hardwareReset).im = [] := rfl
@[simp] theorem State.hardwareReset_events (s : State) : (s.hardwareReset).events = s.events := rfl
@[simp] theorem State.hardwareReset_answer (s : State) : (s.hardwareReset).answer = none := rfl

@[simp] theorem State.statusW1C_cfg (s : State) (v : Word) : (s.statusW1C v).cfg = s.cfg := by
  unfold State.statusW1C
  cases bit v 1 <;> cases bit v 2 <;> cases s.halted <;> rfl
@[simp] theorem State.statusW1C_fsm (s : State) (v : Word) : (s.statusW1C v).fsm = s.fsm := by
  unfold State.statusW1C
  cases bit v 1 <;> cases bit v 2 <;> cases s.halted <;> rfl
@[simp] theorem State.statusW1C_cur (s : State) (v : Word) : (s.statusW1C v).cur = s.cur := by
  unfold State.statusW1C
  cases bit v 1 <;> cases bit v 2 <;> cases s.halted <;> rfl
@[simp] theorem State.statusW1C_irqEn (s : State) (v : Word) : (s.statusW1C v).irqEn = s.irqEn := by
  unfold State.statusW1C
  cases bit v 1 <;> cases bit v 2 <;> cases s.halted <;> rfl
@[simp] theorem State.statusW1C_done (s : State) (v : Word) : (s.statusW1C v).done = (!bit v 1 && s.done) := by
  unfold State.statusW1C
  cases bit v 1 <;> cases bit v 2 <;> cases s.halted <;> rfl
@[simp] theorem State.statusW1C_err (s : State) (v : Word) : (s.statusW1C v).err = (!(bit v 2 && !s.halted) && s.err) := by
  unfold State.statusW1C
  cases bit v 1 <;> cases bit v 2 <;> cases s.halted <;> rfl
@[simp] theorem State.statusW1C_errCode (s : State) (v : Word) : (s.statusW1C v).errCode = (if bit v 2 && !s.halted then .none else s.errCode) := by
  unfold State.statusW1C
  cases bit v 1 <;> cases bit v 2 <;> cases s.halted <;> rfl
@[simp] theorem State.statusW1C_pos (s : State) (v : Word) : (s.statusW1C v).pos = s.pos := by
  unfold State.statusW1C
  cases bit v 1 <;> cases bit v 2 <;> cases s.halted <;> rfl
@[simp] theorem State.statusW1C_tol (s : State) (v : Word) : (s.statusW1C v).tol = s.tol := by
  unfold State.statusW1C
  cases bit v 1 <;> cases bit v 2 <;> cases s.halted <;> rfl
@[simp] theorem State.statusW1C_rbit (s : State) (v : Word) : (s.statusW1C v).rbit = s.rbit := by
  unfold State.statusW1C
  cases bit v 1 <;> cases bit v 2 <;> cases s.halted <;> rfl
@[simp] theorem State.statusW1C_rvalid (s : State) (v : Word) : (s.statusW1C v).rvalid = s.rvalid := by
  unfold State.statusW1C
  cases bit v 1 <;> cases bit v 2 <;> cases s.halted <;> rfl
@[simp] theorem State.statusW1C_epos (s : State) (v : Word) : (s.statusW1C v).epos = s.epos := by
  unfold State.statusW1C
  cases bit v 1 <;> cases bit v 2 <;> cases s.halted <;> rfl
@[simp] theorem State.statusW1C_re (s : State) (v : Word) : (s.statusW1C v).re = s.re := by
  unfold State.statusW1C
  cases bit v 1 <;> cases bit v 2 <;> cases s.halted <;> rfl
@[simp] theorem State.statusW1C_im (s : State) (v : Word) : (s.statusW1C v).im = s.im := by
  unfold State.statusW1C
  cases bit v 1 <;> cases bit v 2 <;> cases s.halted <;> rfl
@[simp] theorem State.statusW1C_events (s : State) (v : Word) : (s.statusW1C v).events = s.events := by
  unfold State.statusW1C
  cases bit v 1 <;> cases bit v 2 <;> cases s.halted <;> rfl
@[simp] theorem State.statusW1C_answer (s : State) (v : Word) : (s.statusW1C v).answer = s.answer := by
  unfold State.statusW1C
  cases bit v 1 <;> cases bit v 2 <;> cases s.halted <;> rfl

@[simp] theorem State.withFetchWord_cfg (s : State) (n w : Nat) : (s.withFetchWord n w).cfg = s.cfg := rfl
@[simp] theorem State.withFetchWord_fsm (s : State) (n w : Nat) : (s.withFetchWord n w).fsm = .idle := rfl
@[simp] theorem State.withFetchWord_cur (s : State) (n w : Nat) : (s.withFetchWord n w).cur = s.cur := rfl
@[simp] theorem State.withFetchWord_irqEn (s : State) (n w : Nat) : (s.withFetchWord n w).irqEn = s.irqEn := rfl
@[simp] theorem State.withFetchWord_done (s : State) (n w : Nat) : (s.withFetchWord n w).done = s.done := rfl
@[simp] theorem State.withFetchWord_err (s : State) (n w : Nat) : (s.withFetchWord n w).err = s.err := rfl
@[simp] theorem State.withFetchWord_errCode (s : State) (n w : Nat) : (s.withFetchWord n w).errCode = s.errCode := rfl
@[simp] theorem State.withFetchWord_pos (s : State) (n w : Nat) : (s.withFetchWord n w).pos = s.pos := rfl
@[simp] theorem State.withFetchWord_tol (s : State) (n w : Nat) : (s.withFetchWord n w).tol = s.tol := rfl
@[simp] theorem State.withFetchWord_rbit (s : State) (n w : Nat) : (s.withFetchWord n w).rbit = s.rbit := rfl
@[simp] theorem State.withFetchWord_rvalid (s : State) (n w : Nat) : (s.withFetchWord n w).rvalid = s.rvalid := rfl
@[simp] theorem State.withFetchWord_epos (s : State) (n w : Nat) : (s.withFetchWord n w).epos = s.epos := rfl
@[simp] theorem State.withFetchWord_re (s : State) (n w : Nat) : (s.withFetchWord n w).re = s.re := rfl
@[simp] theorem State.withFetchWord_im (s : State) (n w : Nat) : (s.withFetchWord n w).im = s.im := rfl
@[simp] theorem State.withFetchWord_events (s : State) (n w : Nat) : (s.withFetchWord n w).events = cmdWrite (BitVec.ofNat 64 (w % 2 ^ n)) :: s.events := rfl
@[simp] theorem State.withFetchWord_answer (s : State) (n w : Nat) : (s.withFetchWord n w).answer = s.answer := rfl

end Sys2Proof.Machine
end

