-- ==== Sys2Proof/Laws/Xform.lean ====
section
/-! SUPPORT. The transforms write exactly one block: their outputs have N = SIZE² entries (R38, R81). -/

namespace Sys2Proof.Machine

@[simp] theorem length_dft1 (L : Nat) (dir : Direction) (z : Block) :
    (dft1 L dir z).1.length = L ∧ (dft1 L dir z).2.length = L := by simp [dft1]

@[simp] theorem length_fftPass (L : Nat) (dir : Direction) (z : Block) :
    (fftPass L dir z).1.length = L ∧ (fftPass L dir z).2.length = L := by
  cases dir <;> simp [fftPass]

theorem length_flatMap_const {α β : Type} (xs : List α) (f : α → List β) (n : Nat) (h : ∀ x ∈ xs, (f x).length = n) :
    (xs.flatMap f).length = xs.length * n := by
  induction xs with
  | nil => simp
  | cons x xs ih =>
    rw [List.flatMap_cons, List.length_append, h x (by simp), ih fun y hy => h y (by simp [hy]), List.length_cons]
    ring

@[simp] theorem length_transpose (S : Nat) (x : List F64) : (transpose S x).length = S * S := by
  rw [transpose, length_flatMap_const _ _ S] <;> simp

theorem length_fft2 (S : Nat) (dir : Direction) (z : Block) :
    (fft2 S dir z).1.length = S * S ∧ (fft2 S dir z).2.length = S * S := by simp [fft2]

@[simp] theorem length_rowsThenColumns (S : Nat) (pass : List F64 → List F64) (x : List F64) :
    (rowsThenColumns S pass x).length = S * S := by simp [rowsThenColumns]

/-- REF's real output has one entry per block entry; the fast DCTs run at SIZE = 8 alone (R90, R134). -/
theorem length_refXform (alg : Alg) (dir : Direction) (S : Nat) (z : Block) (h : algAllows alg S = true) :
    (refXform alg dir S z).1.length = S * S := by
  cases alg <;> cases dir <;>
    simp_all [refXform, refDct2d, refFdct8, refFdctlee, algAllows, length_fft2]

/-- What a realization other than REF writes has N entries in RE and, for an FFT, in IM (R81, R82, R94). -/
@[simp] theorem length_otherXform (k : Nat) (alg : Alg) (dir : Direction) (S : Nat) (z : Block) :
    (otherXform k alg dir S z).1.length = S * S ∧
      (otherXform k alg dir S z).2.length = if alg.usesIm then S * S else 0 := by
  cases h : alg.usesIm <;> simp [otherXform, Realization.realizer, EntryFunction.realizer, blockOf, h]

/-- The real output of XFORM_NUMERICS has N entries. -/
theorem length_xform_re (num : Numerics) (alg : Alg) (dir : Direction) (S : Nat) (z : Block)
    (h : algAllows alg S = true) : (xform num alg dir S z).1.length = S * S := by
  cases num with
  | reference => exact length_refXform alg dir S z h
  | other k => simp [xform]

/-- The imaginary output of an FFT has N entries. -/
theorem length_xform_im (num : Numerics) (alg : Alg) (dir : Direction) (S : Nat) (z : Block)
    (h : alg.usesIm = true) : (xform num alg dir S z).2.length = S * S := by
  cases num with
  | reference => cases alg <;> simp_all [xform, refXform, Alg.usesIm, length_fft2]
  | other k => simp [xform, h]

end Sys2Proof.Machine
end

