-- ==== Sys2Proof/Laws/Ops.lean ====
section
/-! SUPPORT. What each shared operation can do, said once: acceptance, the phases, the bodies of the commands and what
they leave unchanged. -/

namespace Sys2Proof.Machine

/-! ### Phases -/

theorem State.byPhase_idle {s : State} (h : s.fsm = .idle) (op : BlockOp) (f : CmdFields) (b : State → BodyResult) :
    s.byPhase op f b = .next (s.acceptBlock op f) := by simp [State.byPhase, h]

theorem State.byPhase_busy {s : State} (h : s.fsm = .busy) (op : BlockOp) (f : CmdFields) (b : State → BodyResult) :
    s.byPhase op f b = (b s).conclude := by simp [State.byPhase, h]

theorem State.byPhase_halted {s : State} (h : s.fsm = .halted) (op : BlockOp) (f : CmdFields)
    (b : State → BodyResult) : s.byPhase op f b = .next s := by simp [State.byPhase, h]

/-- The only two ways a body leads to a next state. -/
theorem BodyResult.conclude_next {r : BodyResult} {t : State} (h : r.conclude = .next t) :
    (∃ u, r = .ok u ∧ t = u.finish) ∨ (∃ u, r = .numeric u ∧ t = u.raiseError .numeric) := by
  cases r <;> simp_all [BodyResult.conclude]

/-- A body faults only on an UNKNOWN entry. -/
theorem BodyResult.conclude_fault {r : BodyResult} {e : Fault} (h : r.conclude = .fault e) :
    r = .unknown ∧ e = .commandReadUnknown := by
  cases r <;> simp_all [BodyResult.conclude]

theorem BodyResult.conclude_not_refused (r : BodyResult) (e : Refusal) : r.conclude ≠ .refused e := by
  cases r <;> simp [BodyResult.conclude]

/-! ### Acceptance -/

/-- The state an accepted block command leaves (R133). -/
theorem State.acceptBlock_transform {s : State} {op : BlockOp} {f : CmdFields} (hop : op.usesParity = false)
    (hs : sizeOk s.cfg.maxSize f.alg f.size = true) : s.acceptBlock op f = s.beginAcceptance.latch op f := by
  simp [State.acceptBlock, hs, hop]

theorem State.acceptBlock_parity {s : State} {op : BlockOp} {f : CmdFields} {p : Nat} (hop : op.usesParity = true)
    (hs : sizeOk s.cfg.maxSize f.alg f.size = true) (hp : effectivePosition f s.pos = some p)
    (ht : toleranceOk s.tol = true) :
    s.acceptBlock op f = (s.beginAcceptance.latchParity p).latch op f := by
  simp [State.acceptBlock, hs, hop, hp, ht]

/-- Everything acceptance can do (R133): one of the three errors, or the latches. -/
theorem State.acceptBlock_cases (s : State) (op : BlockOp) (f : CmdFields) :
    (sizeOk s.cfg.maxSize f.alg f.size = false ∧ s.acceptBlock op f = s.beginAcceptance.raiseError .badSize) ∨
    (sizeOk s.cfg.maxSize f.alg f.size = true ∧ op.usesParity = false ∧
      s.acceptBlock op f = s.beginAcceptance.latch op f) ∨
    (sizeOk s.cfg.maxSize f.alg f.size = true ∧ op.usesParity = true ∧
      ((effectivePosition f s.pos = none ∧ s.acceptBlock op f = s.beginAcceptance.raiseError .badPos) ∨
       (∃ p, effectivePosition f s.pos = some p ∧
         ((toleranceOk s.tol = false ∧ s.acceptBlock op f = s.beginAcceptance.raiseError .badTol) ∨
          (toleranceOk s.tol = true ∧
            s.acceptBlock op f = (s.beginAcceptance.latchParity p).latch op f))))) := by
  cases hs : sizeOk s.cfg.maxSize f.alg f.size <;> cases hop : op.usesParity <;>
    cases hp : effectivePosition f s.pos <;> cases ht : toleranceOk s.tol <;>
    simp [State.acceptBlock, hs, hop, hp, ht]

/-- A position that passes R102 lies in the block. -/
theorem effectivePosition_lt {f : CmdFields} {pos : BitVec 16} {p : Nat} (h : effectivePosition f pos = some p) :
    p < f.size * f.size := by
  unfold effectivePosition at h
  split at h
  · cases h
  · split_ifs at h with hlt
    cases h
    exact hlt

/-! ### Blocks -/

/-- A block is read exactly when every entry it holds is known (R42). -/
theorem State.readBlock_eq_some {s : State} {alg : Alg} {n : Nat} {z : Block} :
    s.readBlock alg n = some z ↔
      s.re.readEntries reBase n = some z.1 ∧
        (if alg.usesIm then s.im.readEntries imBase n = some z.2 else z.2 = []) := by
  obtain ⟨x, y⟩ := z
  unfold State.readBlock
  cases hr : s.re.readEntries reBase n with
  | none => simp
  | some re =>
    cases halg : alg.usesIm with
    | false => simp [eq_comm]
    | true => cases hi : s.im.readEntries imBase n <;> simp

/-- The block a transform read has N entries in each buffer it uses. -/
theorem State.length_readBlock {s : State} {alg : Alg} {n : Nat} {z : Block} (h : s.readBlock alg n = some z) :
    z.1.length = n ∧ (alg.usesIm = true → z.2.length = n) := by
  obtain ⟨h1, h2⟩ := State.readBlock_eq_some.mp h
  exact ⟨(Memory.readEntries_eq_some.mp h1).1, fun hu => by
    rw [if_pos hu] at h2
    exact (Memory.readEntries_eq_some.mp h2).1⟩

/-! ### Bodies: everything a body that goes through can do -/

/-- FWD and INV write one block and nothing else (R81, R82, R96). -/
theorem transformBody_ok {dir : Direction} {s t : State} (h : transformBody dir s = .ok t) :
    ∃ z, s.readBlock s.cur.alg s.cur.entries = some z ∧
      t = s.writeBlock s.cur.alg (xform s.cfg.numerics s.cur.alg dir s.cur.size z) := by
  unfold transformBody at h
  split at h
  · cases h
  · next z hz => cases h; exact ⟨z, hz, rfl⟩

theorem transformBody_not_numeric (dir : Direction) (s t : State) : transformBody dir s ≠ .numeric t := by
  unfold transformBody
  split <;> simp

theorem transformBody_unknown {dir : Direction} {s : State} :
    transformBody dir s = .unknown ↔ s.readBlock s.cur.alg s.cur.entries = none := by
  unfold transformBody
  split <;> simp_all

/-- SETBIT writes RE[epos] and nothing else (R103, R105). -/
theorem setbitBody_ok {s t : State} (h : setbitBody s = .ok t) :
    ∃ x y, s.reEntry s.cur.epos.toNat = some x ∧ setParity s.cur.bit x s.cur.tol = some y ∧
      t = s.setRe s.cur.epos.toNat y := by
  unfold setbitBody at h
  split at h
  · cases h
  · next x hx =>
    split at h
    · cases h
    · next y hy => cases h; exact ⟨x, y, hx, hy, rfl⟩

/-- NUMERIC leaves SETBIT without effect (R105, R143). -/
theorem setbitBody_numeric {s t : State} (h : setbitBody s = .numeric t) : t = s := by
  unfold setbitBody at h
  split at h
  · cases h
  · split at h <;> cases h
    rfl

theorem setbitBody_unknown {s : State} : setbitBody s = .unknown ↔ s.reEntry s.cur.epos.toNat = none := by
  unfold setbitBody
  split
  · simp_all
  · split <;> simp_all

/-- GETBIT writes RBIT and RVALID and nothing else (R103, R111). -/
theorem getbitBody_ok {s t : State} (h : getbitBody s = .ok t) :
    ∃ x b, s.reEntry s.cur.epos.toNat = some x ∧ getParity x s.cur.tol = some b ∧
      t = { s with rbit := b, rvalid := true } := by
  unfold getbitBody at h
  split at h
  · cases h
  · next x hx =>
    split at h
    · cases h
    · next b hb => cases h; exact ⟨x, b, hx, hb, rfl⟩

theorem getbitBody_numeric {s t : State} (h : getbitBody s = .numeric t) : t = s := by
  unfold getbitBody at h
  split at h
  · cases h
  · split at h <;> cases h
    rfl

theorem getbitBody_unknown {s : State} : getbitBody s = .unknown ↔ s.reEntry s.cur.epos.toNat = none := by
  unfold getbitBody
  split
  · simp_all
  · split <;> simp_all

theorem BodyResult.andThen_ok {r : BodyResult} {k : State → BodyResult} {t : State} (h : r.andThen k = .ok t) :
    ∃ u, r = .ok u ∧ k u = .ok t := by
  cases r <;> simp_all [BodyResult.andThen]

theorem BodyResult.andThen_numeric {r : BodyResult} {k : State → BodyResult} {t : State}
    (h : r.andThen k = .numeric t) : r = .numeric t ∨ ∃ u, r = .ok u ∧ k u = .numeric t := by
  cases r <;> simp_all [BodyResult.andThen]

/-- EMBED goes through exactly as forward transform, SETBIT, inverse transform (R114). -/
theorem embedBody_ok {s t : State} (h : embedBody s = .ok t) :
    ∃ u v, forwardBody s = .ok u ∧ setbitBody u = .ok v ∧ inverseBody v = .ok t := by
  obtain ⟨v, hv, ht⟩ := BodyResult.andThen_ok h
  obtain ⟨u, hu, hv⟩ := BodyResult.andThen_ok hv
  exact ⟨u, v, hu, hv, ht⟩

/-- NUMERIC in EMBED leaves exactly phase F done (R115, R143). -/
theorem embedBody_numeric {s t : State} (h : embedBody s = .numeric t) : forwardBody s = .ok t ∧ setbitBody t = .numeric t := by
  rcases BodyResult.andThen_numeric h with h | ⟨v, -, h⟩
  · rcases BodyResult.andThen_numeric h with h | ⟨u, hu, h⟩
    · exact absurd h (transformBody_not_numeric _ _ _)
    · obtain rfl := setbitBody_numeric h
      exact ⟨hu, h⟩
  · exact absurd h (transformBody_not_numeric _ _ _)

/-- EXTRACT goes through exactly as forward transform, GETBIT (R117). -/
theorem extractBody_ok {s t : State} (h : extractBody s = .ok t) :
    ∃ u, forwardBody s = .ok u ∧ getbitBody u = .ok t := BodyResult.andThen_ok h

theorem extractBody_numeric {s t : State} (h : extractBody s = .numeric t) :
    forwardBody s = .ok t ∧ getbitBody t = .numeric t := by
  rcases BodyResult.andThen_numeric h with h | ⟨u, hu, h⟩
  · exact absurd h (transformBody_not_numeric _ _ _)
  · obtain rfl := getbitBody_numeric h
    exact ⟨hu, h⟩

end Sys2Proof.Machine
end

