-- ==== Sys2Proof/Laws/Step.lean ====
section
/-! SUPPORT. What `exec`, the port and `step` can do, said once: one inversion lemma each. -/

namespace Sys2Proof.Machine

/-- The body a block command runs at its completion. -/
def bodyOf : BlockOp → State → BodyResult
  | .fwd => forwardBody
  | .inv => inverseBody
  | .setbit => setbitBody
  | .getbit => getbitBody
  | .embed => embedBody
  | .extract => extractBody

/-- The completion of the command in progress is its body, concluded (R164). -/
theorem exec_cur_busy {s : State} (h : s.fsm = .busy) : exec s.cur.instr s = (bodyOf s.cur.op s).conclude := by
  cases hop : s.cur.op <;>
    simp [Current.instr, hop, exec, execFwd, execInv, execSetbit, execGetbit, execEmbed, execExtract,
      State.byPhase_busy h, bodyOf]

/-- A command in IDLE: NOP sets DONE, every other command is accepted (R122, R133). -/
theorem exec_idle {s : State} (h : s.fsm = .idle) (i : Instr) :
    (i = .nop ∧ exec i s = .next { s.beginAcceptance with done := true }) ∨
      (∃ op f, i.fields = some f ∧ exec i s = .next (s.acceptBlock op f)) := by
  cases i with
  | nop => exact .inl ⟨rfl, by simp [exec, execNop, h]⟩
  | fwd f => exact .inr ⟨.fwd, f, rfl, by simp [exec, execFwd, State.byPhase_idle h]⟩
  | inv f => exact .inr ⟨.inv, f, rfl, by simp [exec, execInv, State.byPhase_idle h]⟩
  | setbit f => exact .inr ⟨.setbit, f, rfl, by simp [exec, execSetbit, State.byPhase_idle h]⟩
  | getbit f => exact .inr ⟨.getbit, f, rfl, by simp [exec, execGetbit, State.byPhase_idle h]⟩
  | embed f => exact .inr ⟨.embed, f, rfl, by simp [exec, execEmbed, State.byPhase_idle h]⟩
  | extract f => exact .inr ⟨.extract, f, rfl, by simp [exec, execExtract, State.byPhase_idle h]⟩

/-- No command of the table is refused. -/
theorem exec_not_refused (i : Instr) (s : State) (e : Refusal) : exec i s ≠ .refused e := by
  cases i <;> cases h : s.fsm <;>
    simp [exec, execNop, execFwd, execInv, execSetbit, execGetbit, execEmbed, execExtract, State.byPhase, h,
      BodyResult.conclude_not_refused]

/-- A body that goes through, or raises NUMERIC, changes at most RE, IM, RBIT and RVALID. -/
theorem bodyOf_frame {op : BlockOp} {s t : State} (h : bodyOf op s = .ok t ∨ bodyOf op s = .numeric t) :
    t = { s with re := t.re, im := t.im, rbit := t.rbit, rvalid := t.rvalid } := by
  have fwd : ∀ {dir} {s t : State}, transformBody dir s = .ok t →
      t = { s with re := t.re, im := t.im, rbit := t.rbit, rvalid := t.rvalid } := by
    intro dir s t h
    obtain ⟨z, -, rfl⟩ := transformBody_ok h
    rfl
  have setb : ∀ {s t : State}, setbitBody s = .ok t →
      t = { s with re := t.re, im := t.im, rbit := t.rbit, rvalid := t.rvalid } := by
    intro s t h
    obtain ⟨x, y, -, -, rfl⟩ := setbitBody_ok h
    rfl
  have getb : ∀ {s t : State}, getbitBody s = .ok t →
      t = { s with re := t.re, im := t.im, rbit := t.rbit, rvalid := t.rvalid } := by
    intro s t h
    obtain ⟨x, b, -, -, rfl⟩ := getbitBody_ok h
    rfl
  cases op with
  | fwd => exact h.elim fwd fun h => absurd h (transformBody_not_numeric _ _ _)
  | inv => exact h.elim fwd fun h => absurd h (transformBody_not_numeric _ _ _)
  | setbit => exact h.elim setb fun h => setbitBody_numeric h ▸ rfl
  | getbit => exact h.elim getb fun h => getbitBody_numeric h ▸ rfl
  | embed =>
    rcases h with h | h
    · obtain ⟨u, v, hu, hv, ht⟩ := embedBody_ok h
      have h1 := fwd hu
      have h2 := setb hv
      have h3 := fwd ht
      rw [h3, h2, h1]
    · exact fwd (embedBody_numeric h).1
  | extract =>
    rcases h with h | h
    · obtain ⟨u, hu, ht⟩ := extractBody_ok h
      have h1 := fwd hu
      have h2 := getb ht
      rw [h2, h1]
    · exact fwd (extractBody_numeric h).1

/-- The ENGINE's turn, inverted (R164). -/
theorem engineTurn_next {s t : State} (h : engineTurn s = .next t) :
    (s.fsm ≠ .busy ∧ t = s) ∨
      (s.fsm = .busy ∧ ((∃ u, bodyOf s.cur.op s = .ok u ∧ t = u.finish) ∨
        (∃ u, bodyOf s.cur.op s = .numeric u ∧ t = u.raiseError .numeric))) := by
  unfold engineTurn at h
  split at h
  · next hb =>
    rw [exec_cur_busy hb] at h
    exact .inr ⟨hb, BodyResult.conclude_next h⟩
  · next hi => cases h; exact .inl ⟨by simp [hi], rfl⟩
  · next hi => cases h; exact .inl ⟨by simp [hi], rfl⟩

/-- The acceptance of a CMD write outside BUSY, inverted (R133, R137, R138). -/
theorem accept_cases {w : Word} {s : State} (hb : s.fsm ≠ .busy) :
    (s.fsm = .halted ∧ accept w s = .next s) ∨
      (s.fsm = .idle ∧ ∃ code, decode w = .fatal code ∧ accept w s = .next (s.beginAcceptance.raiseFatal code)) ∨
      (s.fsm = .idle ∧ ∃ i, decode w = .cmd i ∧ accept w s = exec i s) := by
  cases h : s.fsm with
  | busy => exact absurd h hb
  | halted => exact .inl ⟨rfl, by simp [accept, State.halted, h]⟩
  | idle =>
    refine .inr ?_
    cases hd : decode w with
    | fatal code => exact .inl ⟨rfl, code, rfl, by simp [accept, State.halted, h, hd]⟩
    | cmd i => exact .inr ⟨rfl, i, rfl, by simp [accept, State.halted, h, hd]⟩

/-- A read leaves everything but the answer alone (R52, R127). -/
theorem readTarget_next {tgt : Target} {s t : State} (h : readTarget tgt s = .next t) :
    ∃ d, t = s.answering (some (.okayRead d)) := by
  have entry : ∀ v, answerEntry s v = .next t → ∃ d, t = s.answering (some (.okayRead d)) := by
    intro v h
    unfold answerEntry at h
    split at h
    · cases h
    · next d => cases h; exact ⟨d, rfl⟩
  cases tgt <;> first
    | exact entry _ h
    | (simp only [readTarget] at h; cases h; exact ⟨_, rfl⟩)

/-- What serving a request can do: turn it away (R140), read, or write (R45). -/
theorem serve_cases (r : Request) (s : State) :
    (r.target s.cfg.maxN = none ∧ serve r s = .next (s.answering (some .error))) ∨
      (∃ off size tgt, r = .read off size ∧ r.target s.cfg.maxN = some tgt ∧ serve r s = readTarget tgt s) ∨
      (∃ off size v tgt, r = .write off size v ∧ r.target s.cfg.maxN = some tgt ∧ serve r s = writeTarget tgt v s) := by
  cases ht : r.target s.cfg.maxN with
  | none => exact .inl ⟨rfl, by simp [serve, ht]⟩
  | some tgt =>
    cases r with
    | read off size => exact .inr (.inl ⟨off, size, tgt, rfl, rfl, by simp [serve, ht]⟩)
    | write off size v => exact .inr (.inr ⟨off, size, v, tgt, rfl, rfl, by simp [serve, ht]⟩)

/-- Everything a step that goes on can do (log entry 2): a hardware reset, a turn of the ENGINE (its own, or the one a
stalled access waits for), or an access served. -/
theorem step_cases {s t : State} (h : step s = .next t) :
    (∃ rest, s.events = .hardwareReset :: rest ∧ t = { s with events := rest }.hardwareReset) ∨
      (∃ es, (es = s.events ∨ s.events = .tick :: es) ∧
        engineTurn { s with events := es, answer := none } = .next t) ∨
      (∃ r rest, s.events = .access r :: rest ∧ stalled r s = false ∧
        serve r { s with events := rest, answer := none } = .next t) := by
  unfold step advance at h
  split at h
  · next he => exact .inr (.inl ⟨s.events, .inl rfl, h⟩)
  · next rest he => exact .inr (.inl ⟨rest, .inr he, h⟩)
  · next rest he => cases h; exact .inl ⟨rest, he, rfl⟩
  · next r rest he =>
    split_ifs at h with hst
    · exact .inr (.inl ⟨s.events, .inl rfl, h⟩)
    · exact .inr (.inr ⟨r, rest, he, by simpa using hst, h⟩)

end Sys2Proof.Machine
end

