-- ==== Sys2Proof/Laws/Bus.lean ====
section
/-! SUPPORT. What each offset of the aperture names (R24, R48 to R51), both ways. -/

namespace Sys2Proof.Machine

/-- Which offset names a register, and which entry a buffer offset names. -/
theorem locate_eq_some {maxN off size : Nat} {t : Target} (hN : maxN ≤ 4096) :
    locate maxN off size = some t ↔ size = 8 ∧
      (match t with
        | .id => off = 0x00 | .cfg => off = 0x08 | .ctrl => off = 0x10 | .status => off = 0x18
        | .pos => off = 0x20 | .tol => off = 0x28 | .cmd => off = 0x30 | .result => off = 0x38
        | .re i => off = 0x8000 + 8 * i ∧ i < maxN
        | .im i => off = 0x10000 + 8 * i ∧ i < maxN) := by
  unfold locate
  split_ifs with h
  · constructor
    · simp
    · rintro ⟨hs, ht⟩
      cases t <;> simp at ht <;> omega
  · obtain ⟨rfl, h8⟩ : size = 8 ∧ off % 8 = 0 := by omega
    obtain ⟨k, rfl⟩ : ∃ k, off = 8 * k := ⟨off / 8, by omega⟩
    have hk : 8 * k / 8 = k := by omega
    unfold mapped registerAt reBase imBase apertureSize
    rw [hk]
    split_ifs with h1 h2 h3 h4 h5
    · by_cases h7 : k < 8
      · interval_cases k <;> cases t <;> simp <;> omega
      · split
        all_goals first | omega | skip
        cases t <;> simp <;> omega
    all_goals (cases t <;> simp <;> omega)

/-- A legal configuration has at most 4096 entries in a buffer (R7, R50). -/
theorem Config.maxN_le {c : Config} (h : c.legal = true) : 64 ≤ c.maxN ∧ c.maxN ≤ 4096 := by
  simp only [Config.legal, Bool.and_eq_true, decide_eq_true_eq] at h
  exact ⟨Nat.mul_le_mul h.1 h.1, Nat.mul_le_mul h.2 h.2⟩

/-- What a named offset is, for buffers of any length. -/
theorem locate_some {maxN off size : Nat} {t : Target} (h : locate maxN off size = some t) : size = 8 ∧
    (match t with
      | .id => off = 0x00 | .cfg => off = 0x08 | .ctrl => off = 0x10 | .status => off = 0x18
      | .pos => off = 0x20 | .tol => off = 0x28 | .cmd => off = 0x30 | .result => off = 0x38
      | .re i => off = 0x8000 + 8 * i ∧ i < maxN
      | .im i => off = 0x10000 + 8 * i ∧ i < maxN) := by
  have hle : locate (min maxN 4096) off size = some t := by
    rw [← h]
    unfold locate mapped reBase imBase apertureSize
    split_ifs <;> first | rfl | omega
  obtain ⟨h1, h2⟩ := (locate_eq_some (min_le_right _ _)).mp hle
  refine ⟨h1, ?_⟩
  cases t <;> simp at h2 ⊢ <;> omega

@[simp] theorem locate_ctrl (maxN : Nat) : locate maxN 0x10 8 = some .ctrl := rfl
@[simp] theorem locate_status (maxN : Nat) : locate maxN 0x18 8 = some .status := rfl
@[simp] theorem locate_pos (maxN : Nat) : locate maxN 0x20 8 = some .pos := rfl
@[simp] theorem locate_tol (maxN : Nat) : locate maxN 0x28 8 = some .tol := rfl
@[simp] theorem locate_cmd (maxN : Nat) : locate maxN 0x30 8 = some .cmd := rfl
@[simp] theorem locate_result (maxN : Nat) : locate maxN 0x38 8 = some .result := rfl

theorem locate_re {maxN i : Nat} (hN : maxN ≤ 4096) (hi : i < maxN) : locate maxN (0x8000 + 8 * i) 8 = some (.re i) :=
  (locate_eq_some hN).mpr ⟨rfl, rfl, hi⟩

theorem locate_im {maxN i : Nat} (hN : maxN ≤ 4096) (hi : i < maxN) : locate maxN (0x10000 + 8 * i) 8 = some (.im i) :=
  (locate_eq_some hN).mpr ⟨rfl, rfl, hi⟩

/-- The state in which a write is carried out: its event taken away, the answer OKAY. -/
def State.served (s : State) (rest : List Event) (a : Answer) : State := { s with events := rest, answer := some a }

/-- Everything a CMD write served outside BUSY can do (R133, R137, R138). -/
inductive CmdEffect (w : Word) (b t : State) : Prop where
  | ignored (h : b.fsm = .halted) (e : t = b)
  | fatal (h : b.fsm = .idle) (c : ErrCode) (d : decode w = .fatal c) (e : t = b.beginAcceptance.raiseFatal c)
  | nop (h : b.fsm = .idle) (d : decode w = .cmd .nop) (e : t = { b.beginAcceptance with done := true })
  | block (h : b.fsm = .idle) (i : Instr) (op : BlockOp) (f : CmdFields) (d : decode w = .cmd i)
      (hf : i.fields = some f) (e : t = b.acceptBlock op f)

/-- Everything a served access that goes on can do, `b` being the state with its event taken away. -/
inductive AccessEffect (s t : State) (rest : List Event) : Prop where
  | answered (a : Answer) (e : t = s.served rest a)
  | ctrl (v : Word) (h : s.events = .access (.write 0x10 8 v) :: rest) (e : t = (s.served rest .okayWrite).writeCtrl v)
  | status (v : Word) (h : s.events = .access (.write 0x18 8 v) :: rest)
      (e : t = (s.served rest .okayWrite).statusW1C v)
  | pos (v : Word) (hb : s.fsm ≠ .busy) (h : s.events = .access (.write 0x20 8 v) :: rest)
      (e : t = { s.served rest .okayWrite with pos := BitVec.ofNat 16 v.toNat })
  | tol (v : Word) (hb : s.fsm ≠ .busy) (h : s.events = .access (.write 0x28 8 v) :: rest)
      (e : t = { s.served rest .okayWrite with tol := v })
  | cmd (v : Word) (hb : s.fsm ≠ .busy) (h : s.events = .access (.write 0x30 8 v) :: rest)
      (e : CmdEffect v (s.served rest .okayWrite) t)
  | re (i : Nat) (v : Word) (hb : s.fsm ≠ .busy) (hi : i < s.cfg.maxN)
      (h : s.events = .access (.write (0x8000 + 8 * i) 8 v) :: rest) (e : t = (s.served rest .okayWrite).setRe i v)
  | im (i : Nat) (v : Word) (hb : s.fsm ≠ .busy) (hi : i < s.cfg.maxN)
      (h : s.events = .access (.write (0x10000 + 8 * i) 8 v) :: rest) (e : t = (s.served rest .okayWrite).setIm i v)

theorem accept_effect {w : Word} {b t : State} (hb : b.fsm ≠ .busy) (h : accept w b = .next t) : CmdEffect w b t := by
  rcases accept_cases (w := w) hb with ⟨hf, e⟩ | ⟨hf, c, d, e⟩ | ⟨hf, i, d, e⟩ <;> rw [e] at h
  · cases h; exact .ignored hf rfl
  · cases h; exact .fatal hf c d rfl
  · rcases exec_idle hf i with ⟨rfl, e⟩ | ⟨op, f, hi, e⟩ <;> rw [e] at h <;> cases h
    · exact .nop hf d rfl
    · exact .block hf i op f d hi rfl

/-- A served access, inverted (R45, R52, R53). -/
theorem serve_effect {s t : State} {r : Request} {rest : List Event} (he : s.events = .access r :: rest)
    (hst : stalled r s = false) (h : serve r { s with events := rest, answer := none } = .next t) :
    AccessEffect s t rest := by
  rcases serve_cases r { s with events := rest, answer := none } with ⟨-, e⟩ | ⟨off, size, tgt, rfl, -, e⟩ |
    ⟨off, size, v, tgt, rfl, ht, e⟩ <;> rw [e] at h
  · cases h; exact .answered .error rfl
  · obtain ⟨d, rfl⟩ := readTarget_next h
    exact .answered (.okayRead d) rfl
  · change locate s.cfg.maxN off size = some tgt at ht
    have hbusy : tgt.stalls = true → s.fsm ≠ .busy := by
      intro hs hb
      simp [stalled, State.busy, hb, Request.target, ht, hs] at hst
    obtain ⟨rfl, hoff⟩ := locate_some ht
    cases tgt <;> simp only at hoff <;> simp only [writeTarget, Host.Outcome.next.injEq] at h <;>
      first | subst hoff | obtain ⟨rfl, hi⟩ := hoff
    case id => subst h; exact .answered .okayWrite rfl
    case cfg => subst h; exact .answered .okayWrite rfl
    case result => subst h; exact .answered .okayWrite rfl
    case ctrl => exact .ctrl v he h.symm
    case status => exact .status v he h.symm
    case pos => exact .pos v (hbusy rfl) he h.symm
    case tol => exact .tol v (hbusy rfl) he h.symm
    case cmd => exact .cmd v (hbusy rfl) he (accept_effect (hbusy rfl) h)
    case re i => exact .re i v (hbusy rfl) hi he h.symm
    case im i => exact .im i v (hbusy rfl) hi he h.symm

/-- A completion changes the buffers, RESULT's bits and the command-end flags, and nothing else (R164, R143). -/
theorem engineTurn_effect {s t : State} {es : List Event}
    (h : engineTurn { s with events := es, answer := none } = .next t) :
    (s.fsm ≠ .busy ∧ t = { s with events := es, answer := none }) ∨
      (s.fsm = .busy ∧
        (t = { s with
            events := es, answer := none, re := t.re, im := t.im, rbit := t.rbit, rvalid := t.rvalid, fsm := .idle
            done := true } ∨
          t = { s with
            events := es, answer := none, re := t.re, im := t.im, rbit := t.rbit, rvalid := t.rvalid, fsm := .idle
            err := true, errCode := .numeric })) := by
  rcases engineTurn_next h with ⟨h1, h2⟩ | ⟨h1, ⟨u, h2, rfl⟩ | ⟨u, h2, rfl⟩⟩
  · exact .inl ⟨h1, h2⟩
  · have := bodyOf_frame (.inl h2)
    generalize u.re = re, u.im = im, u.rbit = rb, u.rvalid = rv at this
    subst this
    exact .inr ⟨h1, .inl rfl⟩
  · have := bodyOf_frame (.inr h2)
    generalize u.re = re, u.im = im, u.rbit = rb, u.rvalid = rv at this
    subst this
    exact .inr ⟨h1, .inr rfl⟩

/-- Everything acceptance of a block command does, as one record (R133). -/
inductive BlockEffect (b t : State) : Prop where
  | failed (c : ErrCode) (hc : c = .badSize ∨ c = .badPos ∨ c = .badTol)
      (e : t = { b with done := false, rvalid := false, fsm := .idle, err := true, errCode := c })
  | started (cur : Current) (ep : BitVec 16) (hs : sizeOk b.cfg.maxSize cur.alg cur.size = true)
      (hp : cur.op.usesParity = true →
        cur.tol = b.tol ∧ toleranceOk b.tol = true ∧ cur.epos = ep ∧ ep.toNat < cur.entries)
      (hn : cur.op.usesParity = false → ep = b.epos)
      (e : t = { b with done := false, rvalid := false, fsm := .busy, cur := cur, epos := ep })

theorem sizeOk_entries {c : Config} {alg : Alg} {size : Nat} (hl : c.legal = true)
    (h : sizeOk c.maxSize alg size = true) : size * size ≤ c.maxN ∧ size * size ≤ 4096 := by
  simp only [sizeOk, Config.legal, Bool.and_eq_true, decide_eq_true_eq] at h hl
  exact ⟨Nat.mul_le_mul h.1.2 h.1.2, Nat.mul_le_mul (h.1.2.trans hl.2) (h.1.2.trans hl.2)⟩

theorem acceptBlock_effect {b : State} (hl : b.cfg.legal = true) (op : BlockOp) (f : CmdFields) :
    BlockEffect b (b.acceptBlock op f) := by
  rcases b.acceptBlock_cases op f with ⟨h1, e⟩ | ⟨h1, h2, e⟩ | ⟨h1, h2, ⟨h3, e⟩ | ⟨p, h3, ⟨h4, e⟩ | ⟨h4, e⟩⟩⟩ <;>
    rw [e]
  · exact .failed .badSize (by simp) rfl
  · exact .started _ b.epos h1 (by simp [h2]) (by simp) rfl
  · exact .failed .badPos (by simp) rfl
  · exact .failed .badTol (by simp) rfl
  · have hp := (effectivePosition_lt h3).trans_le (sizeOk_entries hl h1).2
    refine .started _ (BitVec.ofNat 16 p) h1 (fun _ => ⟨rfl, h4, rfl, ?_⟩) (by simp [h2]) rfl
    have : p % 65536 = p := by omega
    simpa [Current.entries, this] using effectivePosition_lt h3

/-- The whole state a soft reset leaves (R125, R152). -/
theorem State.softReset_eq (s : State) : s.softReset =
    { s with
      fsm := .idle, irqEn := false, done := false, err := false, errCode := .none, pos := 0#16, tol := 0#64
      rbit := false, rvalid := false, epos := 0#16, re := s.softReset.re, im := s.softReset.im } := by
  unfold State.softReset
  cases s.busy <;> rfl

/-- The whole state a STATUS write leaves (R126). -/
theorem State.statusW1C_eq (s : State) (v : Word) : s.statusW1C v =
    { s with
      done := !bit v 1 && s.done
      err := !(bit v 2 && !s.halted) && s.err
      errCode := if bit v 2 && !s.halted then .none else s.errCode } := by
  unfold State.statusW1C
  cases bit v 1 <;> cases bit v 2 <;> cases s.halted <;> rfl

/-- A request that does not stall is served with its event taken away (R45). -/
theorem step_access {s : State} {r : Request} {rest : List Event} (he : s.events = .access r :: rest)
    (hst : stalled r s = false) : step s = serve r { s with events := rest, answer := none } := by
  simp [step, advance, he, hst]

/-- A stalled request leaves the step to the ENGINE (R158). -/
theorem step_stalled {s : State} {r : Request} {rest : List Event} (he : s.events = .access r :: rest)
    (hst : stalled r s = true) : step s = engineTurn (s.answering none) := by
  simp [step, advance, he, hst]

end Sys2Proof.Machine
end

