-- ==== Sys2Proof/Laws/Float.lean ====
section
/-! SUPPORT. The binary64 tests and roundings in terms of exact values (R14, R104, R112, R135). -/

namespace Sys2Proof.Machine

theorem Fp.unit_pos : (0 : ℚ) < (Fp.unit : ℚ) := by
  exact Nat.cast_pos.mpr (Nat.two_pow_pos 1074)

theorem Fp.abs_scaled (x : F64) : |(Fp.scaled x : ℚ)| = (Fp.mag x : ℚ) := by
  unfold Fp.scaled
  split_ifs <;> simp

/-- `floor(q)` (R14). -/
theorem Fp.floorInt_eq (q : F64) : Fp.floorInt q = ⌊Exact.value q⌋ := by
  rw [Exact.value, Fp.floorInt]
  exact (Rat.floor_intCast_div_natCast _ _).symm

/-- `roundHalfUp(a) = floor(a + 1/2)` (R14, R112). -/
theorem Fp.roundHalfUp_eq (a : F64) : Fp.roundHalfUp a = ⌊Exact.value a + 1 / 2⌋ := by
  have hu := Fp.unit_pos
  have h : Exact.value a + 1 / 2 = ((2 * Fp.scaled a + (Fp.unit : ℤ) : ℤ) : ℚ) / ((2 * Fp.unit : ℕ) : ℚ) := by
    rw [Exact.value]
    generalize Fp.unit = u at hu
    push_cast
    field_simp
  rw [h, Rat.floor_intCast_div_natCast, Fp.roundHalfUp]
  push_cast
  rfl

/-- `|q| ≥ 2^53` (R104). -/
theorem Fp.huge_iff (q : F64) : Fp.huge q = true ↔ 2 ^ 53 ≤ |Exact.value q| := by
  rw [Fp.huge, decide_eq_true_eq, Exact.value, abs_div, Fp.abs_scaled, abs_of_pos Fp.unit_pos,
    le_div_iff₀ Fp.unit_pos]
  exact_mod_cast Iff.rfl

/-- The tolerance check is "finite and ≥ 1.0" (R135). -/
theorem toleranceOk_iff (t : F64) : toleranceOk t = true ↔ Fp.finite t = true ∧ 1 ≤ Exact.value t := by
  rw [toleranceOk, Fp.finiteAtLeastOne, Bool.and_eq_true, decide_eq_true_eq, Exact.value, le_div_iff₀ Fp.unit_pos,
    one_mul]
  exact and_congr_right fun _ => by exact_mod_cast Iff.rfl

end Sys2Proof.Machine
end

