-- ==== Sys2Proof/Laws/PerInstr.lean ====
section
/-! SUPPORT. Per instruction: the word a well-formed command encodes to carries its OP in bits 3:0 and has its reserved
fields 0 (R63, R64, R68, R77). -/

namespace Sys2Proof

theorem Alg.code_le (a : Alg) : a.code ≤ 4 := by cases a <;> decide

theorem PosSel.code_le (p : PosSel) : p.code ≤ 1 := by cases p <;> decide

/-- The fields of a command fill bits 23:16 and 8:4 and nothing else (R77). -/
theorem bits_of_fields {f : CmdFields} {op : Nat} (hf : f.wellFormed = true) (hop : op < 16) :
    let w := BitVec.ofNat 64 (op + encodeFields f)
    bits w 0 4 = op ∧ bits w 4 3 = f.alg.code ∧ bits w 7 1 = f.bit.toNat ∧ bits w 8 1 = f.possel.code ∧
      bits w 16 8 = f.size ∧ reservedZero w = true := by
  have ha := f.alg.code_le
  have hp := f.possel.code_le
  have hb := f.bit.toNat_le
  have hs : f.size < 256 := by simpa [CmdFields.wellFormed] using hf
  simp only [bits, reservedZero, BitVec.toNat_ofNat, encodeFields, Bool.and_eq_true, beq_iff_eq]
  omega

namespace Laws.WordForm

/-- A well-formed command's word: its OP code, and reserved fields 0. -/
def Statement (i : Instr) : Prop :=
  i.wellFormed = true → bits (encode i) 0 4 = i.op ∧ reservedZero (encode i) = true

theorem nop : Statement .nop := fun _ => by decide

theorem fwd (f : CmdFields) : Statement (.fwd f) := fun h => by
  have := bits_of_fields (op := 1) h (by decide)
  exact ⟨this.1, this.2.2.2.2.2⟩

theorem inv (f : CmdFields) : Statement (.inv f) := fun h => by
  have := bits_of_fields (op := 2) h (by decide)
  exact ⟨this.1, this.2.2.2.2.2⟩

theorem setbit (f : CmdFields) : Statement (.setbit f) := fun h => by
  have := bits_of_fields (op := 3) h (by decide)
  exact ⟨this.1, this.2.2.2.2.2⟩

theorem getbit (f : CmdFields) : Statement (.getbit f) := fun h => by
  have := bits_of_fields (op := 4) h (by decide)
  exact ⟨this.1, this.2.2.2.2.2⟩

theorem embed (f : CmdFields) : Statement (.embed f) := fun h => by
  have := bits_of_fields (op := 5) h (by decide)
  exact ⟨this.1, this.2.2.2.2.2⟩

theorem extract (f : CmdFields) : Statement (.extract f) := fun h => by
  have := bits_of_fields (op := 6) h (by decide)
  exact ⟨this.1, this.2.2.2.2.2⟩

end Laws.WordForm

end Sys2Proof
end

