-- ==== Sys2Proof/Laws/Rounding.lean ====
section
/-! SUPPORT. Each rounding of R14 keeps a result below 2^1023 finite and within half a unit in the last place: one lemma
for `fl` and one for each of the four operations. -/

namespace Sys2Proof.Machine.Fp

/-- The fields of a packed pattern. -/
theorem pack_fields (neg : Bool) (p : Nat) (hp : p < 2 ^ 63) :
    sign (pack neg p) = neg ∧ expField (pack neg p) = p / 2 ^ 52 ∧ fraction (pack neg p) = p % 2 ^ 52 := by
  have h : (pack neg p).toNat = neg.toNat * 2 ^ 63 + p := by
    rw [pack, BitVec.toNat_ofNat, Nat.mod_eq_of_lt]
    cases neg <;> simp <;> omega
  refine ⟨?_, ?_, ?_⟩
  · simp only [sign, bit, bits, h]
    cases neg <;> simp <;> omega
  · simp only [expField, bits, h]
    cases neg <;> simp <;> omega
  · simp only [fraction, bits, h]
    cases neg <;> simp <;> omega

/-- Rounding to nearest moves a quotient by at most a half. -/
theorem roundDiv_close (n d : Nat) (hd : 0 < d) : 2 * n ≤ (2 * roundDiv n d + 1) * d ∧ 2 * roundDiv n d * d ≤ 2 * n + d := by
  have h := Nat.div_add_mod n d
  have hr := Nat.mod_lt n hd
  unfold roundDiv
  dsimp only
  generalize n / d = q at *
  generalize n % d = r at *
  subst h
  split_ifs with hc
  · constructor <;> nlinarith [hc.elim (fun h => h.le) (fun h => h.1.ge)]
  · have : 2 * r ≤ d := not_lt.mp fun h => hc (.inl h)
    constructor <;> nlinarith

/-- The magnitude a pattern `e * 2^52 + m` stands for, `m` being a significand of 53 bits or, with `e = 0`, fewer. -/
theorem mag_pack (neg : Bool) (e m : Nat) (he : e < 2046) (hm : m ≤ 2 ^ 53) (hn : e = 0 ∨ 2 ^ 52 ≤ m)
    (hlt : e * 2 ^ 52 + m < infPattern) :
    finite (pack neg (e * 2 ^ 52 + m)) = true ∧ mag (pack neg (e * 2 ^ 52 + m)) = m * 2 ^ e := by
  have hp : e * 2 ^ 52 + m < 2 ^ 63 := by unfold infPattern at hlt; omega
  obtain ⟨-, h2, h3⟩ := pack_fields neg _ hp
  unfold infPattern at hlt
  refine ⟨by simp only [finite, h2, bne_iff_ne, ne_eq]; omega, ?_⟩
  simp only [mag, h2, h3]
  rcases Nat.lt_or_ge m (2 ^ 52) with h | h
  · obtain rfl : e = 0 := by omega
    rw [if_pos (by omega)]
    omega
  · rcases Nat.lt_or_ge m (2 ^ 53) with h' | h'
    · have h4 : (e * 2 ^ 52 + m) / 2 ^ 52 = e + 1 := by omega
      have h5 : (e * 2 ^ 52 + m) % 2 ^ 52 = m - 2 ^ 52 := by omega
      rw [h4, h5, if_neg (by omega), Nat.add_sub_cancel, Nat.add_sub_of_le h]
    · obtain rfl : m = 2 ^ 53 := by omega
      have h4 : (e * 2 ^ 52 + 2 ^ 53) / 2 ^ 52 = e + 2 := by omega
      have h5 : (e * 2 ^ 52 + 2 ^ 53) % 2 ^ 52 = 0 := by omega
      rw [h4, h5, if_neg (by omega)]
      have : e + 2 - 1 = e + 1 := by omega
      rw [this, pow_succ]
      ring


/-- One rounding: below 2^1023 in magnitude the result is finite, and off by at most half a unit in the last place. -/
theorem roundMag_close (neg : Bool) (n d : Nat) (hd : 0 < d) (hq : n / d < 2 ^ 2097) :
    finite (pack neg (roundMag n d)) = true ∧
      |(mag (pack neg (roundMag n d)) : ℚ) - n / d| ≤ 2⁻¹ ^ 53 * (n / d) + 1 / 2 := by
  set e := (n / d).log2 - 52 with he
  have hd' : 0 < d * 2 ^ e := Nat.mul_pos hd (Nat.two_pow_pos e)
  have hup : n / (d * 2 ^ e) < 2 ^ 53 := by
    rw [← Nat.div_div_eq_div_mul, Nat.div_lt_iff_lt_mul (Nat.two_pow_pos e), ← pow_add]
    exact Nat.lt_log2_self.trans_le (Nat.pow_le_pow_right (by decide) (by omega))
  have hlo : e = 0 ∨ 2 ^ 52 ≤ n / (d * 2 ^ e) := by
    refine or_iff_not_imp_left.mpr fun h => ?_
    have h0 : n / d ≠ 0 := fun h0 => h (by rw [he, h0]; rfl)
    rw [← Nat.div_div_eq_div_mul, Nat.le_div_iff_mul_le (Nat.two_pow_pos e), ← pow_add]
    exact (Nat.pow_le_pow_right (by decide) (by omega)).trans (Nat.log2_self_le h0)
  have hE : e ≤ 2044 := by
    rcases Nat.eq_zero_or_pos (n / d) with h0 | h0
    · rw [he, h0]; decide
    · have := (Nat.log2_lt h0.ne').mpr hq
      omega
  obtain ⟨hc1, hc2⟩ := roundDiv_close n (d * 2 ^ e) hd'
  have hm1 : n / (d * 2 ^ e) ≤ roundDiv n (d * 2 ^ e) ∧ roundDiv n (d * 2 ^ e) ≤ n / (d * 2 ^ e) + 1 := by
    unfold roundDiv; dsimp only; split_ifs <;> omega
  have hr : roundMag n d = e * 2 ^ 52 + roundDiv n (d * 2 ^ e) := by
    unfold roundMag infPattern
    simp only [← he]
    omega
  obtain ⟨h1, h2⟩ := mag_pack neg e (roundDiv n (d * 2 ^ e)) (by omega) (by omega) (hlo.imp_right fun h => h.trans hm1.1)
    (by unfold infPattern; omega)
  rw [hr]
  refine ⟨h1, ?_⟩
  rw [h2]
  have hdq : (0 : ℚ) < d := by exact_mod_cast hd
  have hp : (0 : ℚ) < 2 ^ e := by positivity
  have hclose : |(roundDiv n (d * 2 ^ e) : ℚ) * 2 ^ e - n / d| ≤ 2 ^ e / 2 := by
    have q1 : 2 * (n : ℚ) ≤ (2 * roundDiv n (d * 2 ^ e) + 1) * (d * 2 ^ e) := by exact_mod_cast hc1
    have q2 : 2 * (roundDiv n (d * 2 ^ e) : ℚ) * (d * 2 ^ e) ≤ 2 * n + d * 2 ^ e := by exact_mod_cast hc2
    rw [abs_le]
    constructor
    · rw [neg_le_sub_iff_le_add, div_le_iff₀ hdq]
      linarith
    · rw [sub_le_iff_le_add, ← sub_le_iff_le_add', le_div_iff₀ hdq]
      linarith
  push_cast
  refine hclose.trans ?_
  rcases hlo with h | h
  · rw [h]
    have h0 : (0 : ℚ) ≤ n / d := div_nonneg (Nat.cast_nonneg _) (Nat.cast_nonneg _)
    rw [pow_zero]
    exact le_add_of_nonneg_left (mul_nonneg (pow_nonneg (by norm_num) _) h0)
  · have h3 : (2 : ℚ) ^ 52 ≤ n / (d * 2 ^ e) := by
      rw [le_div_iff₀ (by positivity)]
      exact_mod_cast (Nat.le_div_iff_mul_le hd').mp h
    rw [← div_div, le_div_iff₀ hp] at h3
    have hc : (2 : ℚ)⁻¹ ^ 53 = 1 / 9007199254740992 := by norm_num
    rw [hc]
    norm_num at h3
    linarith


theorem value_eq (x : F64) : Exact.value x = (if sign x then -1 else 1) * ((mag x : ℚ) / unit) := by
  unfold Exact.value scaled
  generalize unit = u
  split_ifs <;> simp [neg_div]

theorem abs_value (x : F64) : |Exact.value x| = (mag x : ℚ) / unit := by
  rw [Exact.value, abs_div, abs_scaled, abs_of_pos unit_pos]

/-- `r` rounded once to `x` (R14): finite, and off by at most half a unit in the last place. -/
def Close (x : F64) (r : ℚ) : Prop := finite x = true ∧ |Exact.value x - r| ≤ 2⁻¹ ^ 53 * |r| + 2⁻¹ ^ 60

theorem pack_close (neg : Bool) (n d : Nat) (hd : 0 < d) (r : ℚ) (h : |r| < 2 ^ 1023)
    (hr : r = (if neg then -1 else 1) * ((n : ℚ) / d / unit)) : Close (pack neg (roundMag n d)) r := by
  have hu := unit_pos
  have hdq : (0 : ℚ) < d := by exact_mod_cast hd
  have h0 : (0 : ℚ) ≤ n / d := div_nonneg (Nat.cast_nonneg _) hdq.le
  have habs : |r| = (n : ℚ) / d / unit := by
    rw [hr, abs_mul, abs_of_nonneg (div_nonneg h0 hu.le)]
    generalize (n : ℚ) / d / unit = q
    split_ifs <;> simp
  have hq : n / d < 2 ^ 2097 := by
    rw [Nat.div_lt_iff_lt_mul hd]
    rw [habs, div_lt_iff₀ hu, div_lt_iff₀ hdq] at h
    have : (n : ℚ) < ((2 ^ 1023 * unit * d : ℕ) : ℚ) := by push_cast; exact h
    refine (Nat.cast_lt.mp this).trans_eq ?_
    rw [unit, ← pow_add]
  obtain ⟨h1, h2⟩ := roundMag_close neg n d hd hq
  refine ⟨h1, ?_⟩
  have hs : sign (pack neg (roundMag n d)) = neg :=
    (pack_fields neg _ (lt_of_le_of_lt (min_le_right _ _) (by decide))).1
  rw [value_eq, hs, habs, hr, ← mul_sub, abs_mul, ← sub_div, abs_div, abs_of_pos hu]
  have hb : (1 / 2 : ℚ) / unit ≤ 2⁻¹ ^ 60 := by
    rw [unit, div_le_iff₀ (by positivity)]
    push_cast
    rw [show (2 : ℚ) ^ 1074 = 2 ^ 60 * 2 ^ 1014 by rw [← pow_add], ← mul_assoc, ← mul_pow]
    have : (1 : ℚ) ≤ 2 ^ 1014 := one_le_pow₀ (by norm_num)
    rw [show (2⁻¹ * 2 : ℚ) = 1 by norm_num, one_pow, one_mul]
    exact le_trans (by norm_num) this
  have h3 := div_le_div_of_nonneg_right h2 hu.le
  rw [add_div, ← mul_div_assoc'] at h3
  have h4 : |(if neg = true then -1 else 1 : ℚ)| = 1 := by split_ifs <;> simp
  rw [h4, one_mul]
  linarith

/-- An integer as its sign and its magnitude. -/
theorem cast_eq_sign_mul (n : Int) : (n : ℚ) = (if n < 0 then -1 else 1) * (n.natAbs : ℚ) := by
  rw [← Int.cast_natCast (R := ℚ) n.natAbs, ← Int.abs_eq_natAbs]
  split_ifs with h
  · rw [abs_of_neg h, Int.cast_neg, neg_one_mul, neg_neg]
  · rw [abs_of_nonneg (not_lt.mp h), one_mul]

/-- `fl` (R14). -/
theorem fl_close (n : Int) (d : Nat) (hd : 0 < d) (h : |(n : ℚ) / d| < 2 ^ 1023) : Close (fl n d) (n / d) := by
  have hu : (unit : ℚ) ≠ 0 := unit_pos.ne'
  refine pack_close _ _ d hd _ h ?_
  rw [cast_eq_sign_mul n, Nat.cast_mul]
  generalize (unit : ℚ) = u at hu
  simp only [decide_eq_true_eq]
  field_simp

/-- A zero pattern. -/
theorem zero_close (neg : Bool) : Close (pack neg 0) 0 := by
  obtain ⟨h1, h2⟩ := mag_pack neg 0 0 (by decide) (by decide) (.inl rfl) (by decide)
  rw [show 0 * 2 ^ 52 + 0 = 0 from rfl] at h1 h2
  refine ⟨h1, ?_⟩
  rw [sub_zero, abs_value, h2, zero_mul, Nat.cast_zero, zero_div]
  positivity

theorem not_special {x : F64} (h : finite x = true) : isNaN x = false ∧ isInf x = false := by
  simp only [finite, bne_iff_ne, ne_eq] at h
  simp [isNaN, isInf, h]

/-- A finite sum with a given second sign (R14). -/
theorem addFinite_close (a b : F64) (sb : Bool) (r : ℚ)
    (hr : r = Exact.value a + (if sb then -1 else 1) * ((mag b : ℚ) / unit)) (h : |r| < 2 ^ 1023) :
    Close (addFinite a b sb) r := by
  have hu := unit_pos
  have hs : r = ((scaled a + (if sb then -(mag b : Int) else (mag b : Int)) : Int) : ℚ) / unit := by
    rw [hr, Exact.value]
    generalize (unit : ℚ) = u
    split_ifs <;> push_cast <;> ring
  unfold addFinite
  dsimp only
  generalize scaled a + (if sb then -(mag b : Int) else (mag b : Int)) = s at hs ⊢
  split_ifs with h0
  · rw [hs, h0, Int.cast_zero, zero_div]
    exact zero_close _
  · refine pack_close _ _ 1 one_pos _ h ?_
    rw [hs, cast_eq_sign_mul s]
    simp only [decide_eq_true_eq]
    generalize (unit : ℚ) = u
    push_cast
    ring

theorem fadd_close {a b : F64} (ha : finite a = true) (hb : finite b = true)
    (h : |Exact.value a + Exact.value b| < 2 ^ 1023) : Close (fadd a b) (Exact.value a + Exact.value b) := by
  simp only [fadd, addSigned, (not_special ha).1, (not_special hb).1, (not_special ha).2, (not_special hb).2,
    Bool.or_self, Bool.false_eq_true, if_false]
  exact addFinite_close a b _ _ (by rw [value_eq b]) h

theorem fsub_close {a b : F64} (ha : finite a = true) (hb : finite b = true)
    (h : |Exact.value a - Exact.value b| < 2 ^ 1023) : Close (fsub a b) (Exact.value a - Exact.value b) := by
  simp only [fsub, addSigned, (not_special ha).1, (not_special hb).1, (not_special ha).2, (not_special hb).2,
    Bool.or_self, Bool.false_eq_true, if_false]
  refine addFinite_close a b _ _ ?_ h
  rw [value_eq b]
  generalize (mag b : ℚ) / unit = q
  cases sign b <;> simp [sub_eq_add_neg]

/-- The sign and magnitude of a product or quotient. -/
theorem signs (a b : F64) : (if (sign a != sign b) = true then -1 else 1 : ℚ) =
    (if sign a then -1 else 1) * (if sign b then -1 else 1) := by
  cases sign a <;> cases sign b <;> simp

theorem fmul_close {a b : F64} (ha : finite a = true) (hb : finite b = true)
    (h : |Exact.value a * Exact.value b| < 2 ^ 1023) : Close (fmul a b) (Exact.value a * Exact.value b) := by
  simp only [fmul, (not_special ha).1, (not_special hb).1, (not_special ha).2, (not_special hb).2,
    Bool.or_self, Bool.false_eq_true, if_false]
  refine pack_close _ _ unit (Nat.two_pow_pos _) _ h ?_
  rw [signs, value_eq a, value_eq b, Nat.cast_mul]
  generalize (unit : ℚ) = u
  ring

theorem fdiv_close {a b : F64} (ha : finite a = true) (hb : finite b = true) (h0 : Exact.value b ≠ 0)
    (h : |Exact.value a / Exact.value b| < 2 ^ 1023) : Close (fdiv a b) (Exact.value a / Exact.value b) := by
  have hz : mag b ≠ 0 := fun hz => h0 (by rw [value_eq, hz, Nat.cast_zero, zero_div, mul_zero])
  have hu := unit_pos
  simp only [fdiv, (not_special ha).1, (not_special hb).1, (not_special ha).2, (not_special hb).2, isZero,
    beq_eq_false_iff_ne.mpr hz, Bool.or_self, Bool.false_eq_true, if_false]
  refine pack_close _ _ (mag b) (Nat.pos_of_ne_zero hz) _ h ?_
  have hb' : (mag b : ℚ) ≠ 0 := by exact_mod_cast hz
  rw [signs, value_eq a, value_eq b, Nat.cast_mul]
  generalize (unit : ℚ) = u at hu
  have hu := hu.ne'
  cases sign a <;> cases sign b <;> simp <;> field_simp

end Sys2Proof.Machine.Fp
end

