-- ==== Sys2Proof/Laws/Trig.lean ====
section
/-! SUPPORT. How near REF's constants (R99) are to the exact reals: the fixed-point cosine, sine and square root, and from
them each twiddle and DCT coefficient, to 2^-52. -/

namespace Sys2Proof.Machine.Trig

/-- The alternating series `cosSeries` follows, over the reals: `X` is the square of the angle. -/
noncomputable def realSeries (X : ℝ) : ℕ → ℕ → ℝ → ℝ
  | 0, _, _ => 0
  | fuel + 1, k, t => t - realSeries X fuel (k + 1) (t * X / ((2 * k + 1) * (2 * k + 2)))

theorem scale_nat_pos : 0 < scale := Nat.two_pow_pos 192

theorem scale_pos : (0 : ℝ) < (scale : ℝ) := Nat.cast_pos.mpr (Nat.two_pow_pos 192)

/-- A floored quotient, as a real, is less than 1 below the quotient. -/
theorem floor_div_close (a b : ℕ) (hb : 0 < b) : ((a / b : ℕ) : ℝ) ≤ a / b ∧ (a : ℝ) / b < ((a / b : ℕ) : ℝ) + 1 := by
  have hb' : (0 : ℝ) < b := by exact_mod_cast hb
  refine ⟨Nat.cast_div_le, ?_⟩
  rw [div_lt_iff₀ hb']
  exact_mod_cast Nat.lt_mul_of_div_lt (Nat.lt_succ_self (a / b)) hb

/-- The fixed-point series follows the real one: each term loses less than one unit, and no term grows. -/
theorem cosSeries_close (x2 : ℕ) (X : ℝ) (hX : X = x2 / scale) (hX' : X ≤ 5 / 2) (fuel : ℕ) :
    ∀ (k t : ℕ) (T e : ℝ), |(t : ℝ) / scale - T| ≤ e →
      |(cosSeries x2 fuel k t : ℝ) / scale - realSeries X fuel k T| ≤ 4 ^ fuel * (e + 1 / scale) := by
  have hs := scale_pos
  have hX0 : 0 ≤ X := hX ▸ div_nonneg (Nat.cast_nonneg _) hs.le
  induction fuel with
  | zero =>
    intro k t T e h
    have := (abs_nonneg _).trans h
    simp only [cosSeries, realSeries, Int.cast_zero, zero_div, sub_zero, abs_zero, pow_zero, one_mul]
    positivity
  | succ fuel ih =>
    intro k t T e h
    have he := (abs_nonneg _).trans h
    set D : ℕ := (2 * k + 1) * (2 * k + 2) with hD
    have hD2 : (2 : ℝ) ≤ D := by
      rw [hD]; push_cast; nlinarith [Nat.cast_nonneg (α := ℝ) k]
    set t' := t * x2 / (scale * D) with ht'
    have hden : 0 < scale * D := Nat.mul_pos (Nat.two_pow_pos _) (by positivity)
    have hstep : |(t' : ℝ) / scale - T * X / ((2 * k + 1) * (2 * k + 2))| ≤ 2 * e + 1 / scale := by
      have hDc : ((2 * (k : ℝ) + 1) * (2 * k + 2)) = D := by rw [hD]; push_cast; ring
      rw [hDc]
      obtain ⟨f1, f2⟩ := floor_div_close (t * x2) (scale * D) hden
      rw [← ht'] at f1 f2
      have hq : ((t * x2 : ℕ) : ℝ) / ((scale * D : ℕ) : ℝ) = t / scale * X / D * scale := by
        rw [hX, Nat.cast_mul, Nat.cast_mul]
        generalize (scale : ℝ) = s at hs
        field_simp
      rw [hq] at f1 f2
      have g1 : |(t' : ℝ) / scale - t / scale * X / D| ≤ 1 / scale := by
        rw [abs_le]
        constructor
        · rw [neg_le_sub_iff_le_add, ← add_div, le_div_iff₀ hs]
          exact f2.le
        · have : (t' : ℝ) / scale ≤ t / scale * X / D := by rw [div_le_iff₀ hs]; exact f1
          have := one_div_pos.mpr hs
          linarith
      have g2 : |t / scale * X / D - T * X / D| ≤ 2 * e := by
        rw [← sub_div, ← sub_mul, abs_div, abs_mul, abs_of_nonneg hX0, abs_of_pos (by linarith : (0 : ℝ) < D),
          div_le_iff₀ (by linarith)]
        nlinarith [mul_le_mul h hX' hX0 he]
      have := abs_sub_le ((t' : ℝ) / scale) (t / scale * X / D) (T * X / D)
      linarith
    have h2 := ih (k + 1) t' (T * X / ((2 * k + 1) * (2 * k + 2))) (2 * e + 1 / scale) hstep
    have hr : (cosSeries x2 (fuel + 1) k t : ℝ) / scale - realSeries X (fuel + 1) k T =
        ((t : ℝ) / scale - T) - ((cosSeries x2 fuel (k + 1) t' : ℝ) / scale -
          realSeries X fuel (k + 1) (T * X / ((2 * k + 1) * (2 * k + 2)))) := by
      rw [cosSeries, realSeries, ← hD, ← ht']
      generalize (scale : ℝ) = s
      push_cast
      ring
    rw [hr]
    have h3 := abs_sub ((t : ℝ) / scale - T) ((cosSeries x2 fuel (k + 1) t' : ℝ) / scale -
          realSeries X fuel (k + 1) (T * X / ((2 * k + 1) * (2 * k + 2))))
    have hs1 := one_div_pos.mpr hs
    generalize 1 / (scale : ℝ) = u at *
    have h4 : (1 : ℝ) ≤ 4 ^ fuel := one_le_pow₀ (by norm_num)
    rw [pow_succ]
    nlinarith [mul_nonneg (sub_nonneg.mpr h4) he]

/-- The real series is the Taylor polynomial of the cosine. -/
theorem realSeries_eq (y : ℝ) (fuel : ℕ) : ∀ k : ℕ,
    realSeries (y ^ 2) fuel k (y ^ (2 * k) / (2 * k).factorial) =
      ∑ j ∈ Finset.range fuel, (-1) ^ j * (y ^ (2 * (k + j)) / (2 * (k + j)).factorial) := by
  induction fuel with
  | zero => intro k; simp [realSeries]
  | succ fuel ih =>
    intro k
    have h : y ^ (2 * k) / (2 * k).factorial * y ^ 2 / ((2 * (k : ℝ) + 1) * (2 * k + 2)) =
        y ^ (2 * (k + 1)) / (2 * (k + 1)).factorial := by
      rw [show 2 * (k + 1) = 2 * k + 1 + 1 by ring, Nat.factorial_succ, Nat.factorial_succ]
      push_cast
      field_simp
      ring
    rw [realSeries, h, ih (k + 1), Finset.sum_range_succ']
    rw [sub_eq_add_neg, add_comm, ← Finset.sum_neg_distrib]
    congr 1
    · refine Finset.sum_congr rfl fun j _ => ?_
      rw [show k + 1 + j = k + (j + 1) by ring, pow_succ]
      ring
    · simp

theorem re_exp_partial (y : ℝ) (n : ℕ) :
    (∑ m ∈ Finset.range (2 * n), ((y : ℂ) * Complex.I) ^ m / (m.factorial : ℂ)).re =
      ∑ j ∈ Finset.range n, (-1) ^ j * (y ^ (2 * j) / (2 * j).factorial) := by
  induction n with
  | zero => simp
  | succ n ih =>
    rw [show 2 * (n + 1) = 2 * n + 1 + 1 by ring, Finset.sum_range_succ, Finset.sum_range_succ, Finset.sum_range_succ,
      Complex.add_re, Complex.add_re, ih]
    have h1 : ((y : ℂ) * Complex.I) ^ (2 * n) / ((2 * n).factorial : ℂ) =
        (((-1) ^ n * (y ^ (2 * n) / (2 * n).factorial) : ℝ) : ℂ) := by
      rw [mul_pow, pow_mul Complex.I, Complex.I_sq]
      push_cast
      ring
    have h2 : ((y : ℂ) * Complex.I) ^ (2 * n + 1) / ((2 * n + 1).factorial : ℂ) =
        (((-1) ^ n * (y ^ (2 * n + 1) / (2 * n + 1).factorial) : ℝ) : ℂ) * Complex.I := by
      rw [mul_pow, pow_succ Complex.I, pow_mul Complex.I, Complex.I_sq]
      push_cast
      ring
    rw [h1, h2, Complex.ofReal_re, Complex.re_ofReal_mul, Complex.I_re, mul_zero, add_zero]

/-- Thirty terms of the series are enough up to π/2. -/
theorem cos_taylor (y : ℝ) (hy : |y| ≤ 8 / 5) : |realSeries (y ^ 2) 30 0 1 - Real.cos y| ≤ 1 / 2 ^ 70 := by
  have hn : ‖(y : ℂ) * Complex.I‖ = |y| := by simp
  have h0 := abs_nonneg y
  have hb := Complex.exp_bound' (x := (y : ℂ) * Complex.I) (n := 60) (by rw [hn]; norm_num; linarith)
  have hs := realSeries_eq y 30 0
  simp only [mul_zero, pow_zero, Nat.factorial_zero, Nat.cast_one, div_one, zero_add] at hs
  rw [hs, ← re_exp_partial, ← Complex.exp_ofReal_mul_I_re, ← Complex.sub_re]
  refine (Complex.abs_re_le_norm _).trans ?_
  rw [norm_sub_rev]
  refine hb.trans ?_
  rw [hn]
  have h1 : |y| ^ 60 ≤ (8 / 5) ^ 60 := pow_le_pow_left₀ h0 hy 60
  have h2 : (0 : ℝ) < ((60).factorial : ℝ) := by positivity
  refine (mul_le_mul_of_nonneg_right (div_le_div_of_nonneg_right h1 h2.le) zero_le_two).trans ?_
  norm_num [Nat.factorial]

/-- The fixed-point π. -/
theorem piFixed_close : |(piFixed : ℝ) / scale - Real.pi| ≤ 1 / 10 ^ 20 := by
  have h1 := Real.pi_gt_d20
  have h2 := Real.pi_lt_d20
  have h3 : (3.14159265358979323846 : ℝ) ≤ (piFixed : ℝ) / scale ∧ (piFixed : ℝ) / scale ≤ 3.14159265358979323847 := by
    rw [le_div_iff₀ scale_pos, div_le_iff₀ scale_pos]
    unfold scale piFixed
    constructor <;> norm_num
  rw [abs_le]
  constructor <;> linarith [h3.1, h3.2]

/-- `cosQuarter` is the cosine to 2^-64. -/
theorem cosQuarter_close (p q : ℕ) (hq : 0 < q) (hp : 2 * p ≤ q) :
    |(cosQuarter p q : ℝ) / scale - Real.cos (Real.pi * p / q)| ≤ 1 / 2 ^ 64 := by
  have hs := scale_pos
  have hqr : (0 : ℝ) < q := by exact_mod_cast hq
  have hpq : (p : ℝ) / q ≤ 1 / 2 := by
    rw [div_le_div_iff₀ hqr two_pos]
    exact_mod_cast (by omega : p * 2 ≤ 1 * q)
  have hpq0 : (0 : ℝ) ≤ p / q := div_nonneg (Nat.cast_nonneg _) hqr.le
  set x := piFixed * p / q with hx
  set x2 := x * x / scale with hx2
  have hpi := piFixed_close
  have hs1 : 1 / (scale : ℝ) ≤ 1 / 2 ^ 192 := by unfold scale; norm_num
  -- the angle
  have ha : |(x : ℝ) / scale - Real.pi * p / q| ≤ 2 / 10 ^ 20 := by
    obtain ⟨f1, f2⟩ := floor_div_close (piFixed * p) q hq
    rw [← hx, Nat.cast_mul, mul_div_assoc] at f1 f2
    have e1 : Real.pi * p / q = Real.pi * (p / q) := mul_div_assoc _ _ _
    rw [e1]
    have g1 : |(x : ℝ) / scale - piFixed / scale * (p / q)| ≤ 1 / scale := by
      have e2 : (piFixed : ℝ) / scale * (p / q) = piFixed * (p / q) / scale := by ring
      rw [e2, ← sub_div, abs_div, abs_of_pos hs]
      refine div_le_div_of_nonneg_right ?_ hs.le
      rw [abs_le]
      constructor <;> linarith
    have g2 : |(piFixed : ℝ) / scale * (p / q) - Real.pi * (p / q)| ≤ 1 / 10 ^ 20 := by
      rw [← sub_mul, abs_mul, abs_of_nonneg hpq0]
      have := mul_le_mul hpi (hpq.trans (by norm_num : (1 / 2 : ℝ) ≤ 1)) hpq0 (by norm_num)
      linarith
    have := abs_sub_le ((x : ℝ) / scale) (piFixed / scale * (p / q)) (Real.pi * (p / q))
    norm_num at *
    linarith
  -- its square
  set X : ℝ := (x2 : ℝ) / scale with hX
  have hX0 : 0 ≤ X := div_nonneg (Nat.cast_nonneg _) hs.le
  have hxs : (0 : ℝ) ≤ (x : ℝ) / scale := div_nonneg (Nat.cast_nonneg _) hs.le
  have hXd : |X - ((x : ℝ) / scale) ^ 2| ≤ 1 / scale := by
    obtain ⟨f1, f2⟩ := floor_div_close (x * x) scale (Nat.two_pow_pos _)
    rw [← hx2, Nat.cast_mul] at f1 f2
    have e2 : ((x : ℝ) / scale) ^ 2 = x * x / scale / scale := by ring
    rw [hX, e2, ← sub_div, abs_div, abs_of_pos hs]
    refine div_le_div_of_nonneg_right ?_ hs.le
    rw [abs_le]
    constructor <;> linarith
  set y := Real.sqrt X with hy
  have hy2 : y ^ 2 = X := Real.sq_sqrt hX0
  have hy0 : 0 ≤ y := Real.sqrt_nonneg _
  have hyx : |y - (x : ℝ) / scale| ≤ 1 / 2 ^ 96 := by
    refine abs_le_of_sq_le_sq ?_ (by positivity)
    have h1 : (y - (x : ℝ) / scale) ^ 2 ≤ |y ^ 2 - ((x : ℝ) / scale) ^ 2| := by
      rw [show y ^ 2 - ((x : ℝ) / scale) ^ 2 = (y - (x : ℝ) / scale) * (y + (x : ℝ) / scale) by ring, abs_mul, sq,
        ← abs_mul_abs_self (y - (x : ℝ) / scale)]
      refine mul_le_mul_of_nonneg_left ?_ (abs_nonneg _)
      rw [abs_of_nonneg (add_nonneg hy0 hxs), abs_le]
      constructor <;> linarith
    rw [hy2] at h1
    refine (h1.trans hXd).trans (hs1.trans (le_of_eq ?_))
    norm_num
  have hyt : |y - Real.pi * p / q| ≤ 3 / 10 ^ 20 := by
    have := abs_sub_le y ((x : ℝ) / scale) (Real.pi * p / q)
    have h : (1 : ℝ) / 2 ^ 96 ≤ 1 / 10 ^ 20 := by norm_num
    linarith
  have hyu : y ≤ 1.571 := by
    have h1 := (abs_le.mp hyt).2
    have h2 := mul_le_mul_of_nonneg_left hpq Real.pi_pos.le
    rw [← mul_div_assoc] at h2
    have h3 := Real.pi_lt_d4
    norm_num at *
    linarith
  have hyb : |y| ≤ 8 / 5 := by rw [abs_of_nonneg hy0]; linarith
  have hXb : X ≤ 5 / 2 := by rw [← hy2]; nlinarith
  have c1 := cosSeries_close x2 X hX hXb 30 0 scale 1 0 (by rw [div_self hs.ne', sub_self, abs_zero])
  have c2 := cos_taylor y hyb
  rw [hy2] at c2
  have c3 := (Real.abs_cos_sub_cos_le y (Real.pi * p / q)).trans hyt
  have c4 : (4 : ℝ) ^ 30 * (0 + 1 / scale) ≤ 1 / 2 ^ 100 := by
    rw [zero_add]
    refine (mul_le_mul_of_nonneg_left hs1 (by positivity)).trans ?_
    norm_num
  have hQ : cosQuarter p q = cosSeries x2 30 0 scale := rfl
  rw [hQ]
  have t1 := abs_sub_le ((cosSeries x2 30 0 scale : ℝ) / scale) (realSeries X 30 0 1) (Real.cos (Real.pi * p / q))
  have t2 := abs_sub_le (realSeries X 30 0 1) (Real.cos y) (Real.cos (Real.pi * p / q))
  have n1 : (1 : ℝ) / 2 ^ 100 + (1 / 2 ^ 70 + 3 / 10 ^ 20) ≤ 1 / 2 ^ 64 := by norm_num
  linarith

/-- `cosPi` is the cosine to 2^-64, whatever the angle. -/
theorem cosPi_close (p q : ℕ) (hq : 0 < q) : |(cosPi p q : ℝ) / scale - Real.cos (Real.pi * p / q)| ≤ 1 / 2 ^ 64 := by
  have hqr : (q : ℝ) ≠ 0 := by exact_mod_cast hq.ne'
  -- reduction to `[0, 2]`, then to `[0, 1]`
  have h1 : Real.cos (Real.pi * p / q) = Real.cos (Real.pi * (p % (2 * q) : ℕ) / q) := by
    have hp : (p : ℝ) = (p % (2 * q) : ℕ) + 2 * q * (p / (2 * q) : ℕ) := by exact_mod_cast (Nat.mod_add_div p (2 * q)).symm
    rw [hp, ← Real.cos_add_nat_mul_two_pi (Real.pi * (p % (2 * q) : ℕ) / q) (p / (2 * q))]
    congr 1
    field_simp
  have hr := Nat.mod_lt p (show 0 < 2 * q by omega)
  rw [h1]
  unfold cosPi
  dsimp only
  generalize p % (2 * q) = r at hr ⊢
  have h2 : Real.cos (Real.pi * r / q) = Real.cos (Real.pi * (if q < r then 2 * q - r else r : ℕ) / q) := by
    split_ifs with h
    · rw [← Real.cos_two_pi_sub, Nat.cast_sub (by omega)]
      congr 1
      push_cast
      field_simp
    · rfl
  rw [h2]
  have hr2 : (if q < r then 2 * q - r else r) ≤ q := by split_ifs <;> omega
  generalize (if q < r then 2 * q - r else r) = r' at hr2 ⊢
  split_ifs with h3 h4
  · have : Real.pi * r' / q = Real.pi / 2 := by
      have : (q : ℝ) = 2 * r' := by exact_mod_cast h3.symm
      have h0 : (r' : ℝ) ≠ 0 := fun h0 => hqr (by rw [this, h0, mul_zero])
      rw [this]
      field_simp
    rw [this, Real.cos_pi_div_two, Int.cast_zero, zero_div, sub_zero, abs_zero]
    positivity
  · have h := cosQuarter_close (q - r') q hq (by omega)
    have h5 : Real.cos (Real.pi * r' / q) = -Real.cos (Real.pi * (q - r' : ℕ) / q) := by
      rw [← Real.cos_pi_sub, Nat.cast_sub hr2]
      congr 1
      field_simp
      ring
    rw [h5, Int.cast_neg, neg_div, sub_neg_eq_add, neg_add_eq_sub, abs_sub_comm]
    exact h
  · exact cosQuarter_close r' q hq (by omega)

/-- `sinPi` is the sine to 2^-64. -/
theorem sinPi_close (p q : ℕ) (hq : 0 < q) : |(sinPi p q : ℝ) / scale - Real.sin (Real.pi * p / q)| ≤ 1 / 2 ^ 64 := by
  have h := cosPi_close (2 * p + 3 * q) (2 * q) (by omega)
  have hqr : (q : ℝ) ≠ 0 := by exact_mod_cast hq.ne'
  have hc : Real.cos (Real.pi * (2 * p + 3 * q : ℕ) / (2 * q : ℕ)) = Real.sin (Real.pi * p / q) := by
    rw [← Real.cos_sub_pi_div_two, ← Real.cos_add_two_pi (Real.pi * p / q - Real.pi / 2)]
    congr 1
    push_cast
    field_simp
    ring
  rwa [hc] at h

/-- The bitwise square root: from a root `r` of the bits above `b` to the root itself. -/
theorem isqrt_spec (n : ℕ) (b : ℕ) : ∀ r, r * r ≤ n → n < (r + 2 ^ b) * (r + 2 ^ b) →
    isqrt n b r * isqrt n b r ≤ n ∧ n < (isqrt n b r + 1) * (isqrt n b r + 1) := by
  induction b with
  | zero => exact fun r h1 h2 => ⟨h1, h2⟩
  | succ b ih =>
    intro r h1 h2
    rw [isqrt]
    split_ifs with h
    · exact ih _ h (by rw [add_assoc, ← two_mul, ← pow_succ']; exact h2)
    · exact ih _ h1 (not_le.mp h)

/-- `sqrtFixed` is the square root to one unit. -/
theorem sqrtFixed_close (n d : ℕ) (hd : 0 < d) (h : n ≤ d) :
    |(sqrtFixed n d : ℝ) / scale - Real.sqrt (n / d)| ≤ 1 / scale := by
  have hs := scale_pos
  have hdr : (0 : ℝ) < d := by exact_mod_cast hd
  have hN : n * (scale * scale) / d < (0 + 2 ^ 193) * (0 + 2 ^ 193) := by
    rw [Nat.div_lt_iff_lt_mul hd, mul_comm]
    refine (Nat.mul_le_mul_left _ h).trans_lt (Nat.mul_lt_mul_of_pos_right ?_ hd)
    unfold scale
    norm_num
  obtain ⟨h1, h2⟩ := isqrt_spec (n * (scale * scale) / d) 193 0 (Nat.zero_le _) hN
  have hdef : isqrt (n * (scale * scale) / d) 193 0 = sqrtFixed n d := rfl
  rw [hdef] at h1 h2
  generalize sqrtFixed n d = r at h1 h2
  rw [Nat.le_div_iff_mul_le hd] at h1
  rw [Nat.div_lt_iff_lt_mul hd] at h2
  have e : (n : ℝ) / d * (scale * scale) = n * (scale * scale) / d := by ring
  have g1 : ((r : ℝ) / scale) ^ 2 ≤ n / d := by
    rw [div_pow, div_le_iff₀ (by positivity), sq, sq, e, le_div_iff₀ hdr]
    exact_mod_cast h1
  have g2 : (n : ℝ) / d ≤ (((r : ℝ) + 1) / scale) ^ 2 := by
    rw [div_pow, le_div_iff₀ (by positivity), sq, sq, e, div_le_iff₀ hdr]
    exact_mod_cast h2.le
  have f1 := Real.le_sqrt_of_sq_le g1
  have f2 := Real.sqrt_le_iff.mpr ⟨by positivity, g2⟩
  rw [add_div] at f2
  rw [abs_le]
  constructor <;> linarith [one_div_pos.mpr hs]

/-- A binary64 constant of magnitude at most 1, up to rounding: finite and within 2^-52 of the real (R99). -/
def Near (x : F64) (r : ℝ) : Prop := Fp.finite x = true ∧ |((Exact.value x : ℚ) : ℝ) - r| ≤ 1 / 2 ^ 52

theorem fl_near (n : Int) (d : ℕ) (hd : 0 < d) (r : ℝ) (hr : |r| ≤ 1) (h : |(n : ℝ) / d - r| ≤ 1 / 2 ^ 59) :
    Near (Fp.fl n d) r := by
  have hq : |(n : ℝ) / d| ≤ 1 + 1 / 2 ^ 59 := by
    have := abs_sub_abs_le_abs_sub ((n : ℝ) / d) r
    linarith
  have hqq : |(n : ℚ) / d| ≤ 1 + 1 / 2 ^ 59 := by
    rw [← Rat.cast_le (K := ℝ)]
    push_cast
    exact hq
  have hb : (1 + 1 / 2 ^ 59 : ℚ) < 2 ^ 1023 :=
    lt_of_lt_of_le (by norm_num : (1 + 1 / 2 ^ 59 : ℚ) < 2 ^ 1) (pow_le_pow_right₀ one_le_two (by decide))
  obtain ⟨h1, h2⟩ := Fp.fl_close n d hd (hqq.trans_lt hb)
  refine ⟨h1, ?_⟩
  have h3 : |Exact.value (Fp.fl n d) - n / d| ≤ 2⁻¹ ^ 53 * (1 + 1 / 2 ^ 59) + 2⁻¹ ^ 60 :=
    h2.trans (add_le_add_left (mul_le_mul_of_nonneg_left hqq (by positivity)) _)
  have h4 : |((Exact.value (Fp.fl n d) : ℚ) : ℝ) - n / d| ≤ 2⁻¹ ^ 53 * (1 + 1 / 2 ^ 59) + 2⁻¹ ^ 60 := by
    rw [← Rat.cast_le (K := ℝ)] at h3
    push_cast at h3
    exact h3
  have h5 := abs_sub_le ((Exact.value (Fp.fl n d) : ℚ) : ℝ) (n / d) r
  have h6 : (2⁻¹ ^ 53 * (1 + 1 / 2 ^ 59) + 2⁻¹ ^ 60 + 1 / 2 ^ 59 : ℝ) ≤ 1 / 2 ^ 52 := by norm_num
  linarith

theorem near_of_64 {a r : ℝ} (h : |a - r| ≤ 1 / 2 ^ 64) : |a - r| ≤ 1 / 2 ^ 59 := h.trans (by norm_num)

theorem twiddleCos_near (L m : ℕ) (hL : 0 < L) : Near (twiddleCos L m) (Real.cos (2 * Real.pi * m / L)) := by
  have h := cosPi_close (2 * m) L hL
  have e : Real.pi * (2 * m : ℕ) / L = 2 * Real.pi * m / L := by push_cast; ring
  rw [e] at h
  exact fl_near _ _ (scale_nat_pos) _ (Real.abs_cos_le_one _) (near_of_64 h)

theorem twiddleSin_near (L m : ℕ) (hL : 0 < L) :
    Near (twiddleSin .forward L m) (-Real.sin (2 * Real.pi * m / L)) ∧
      Near (twiddleSin .inverse L m) (Real.sin (2 * Real.pi * m / L)) := by
  have h := sinPi_close (2 * m) L hL
  have e : Real.pi * (2 * m : ℕ) / L = 2 * Real.pi * m / L := by push_cast; ring
  rw [e] at h
  refine ⟨fl_near _ _ (scale_nat_pos) _ (by rw [abs_neg]; exact Real.abs_sin_le_one _) (near_of_64 ?_),
    fl_near _ _ (scale_nat_pos) _ (Real.abs_sin_le_one _) (near_of_64 h)⟩
  rw [Int.cast_neg, neg_div, sub_neg_eq_add, neg_add_eq_sub, abs_sub_comm]
  exact h

theorem lee_angle (k n q : ℕ) : Real.pi * ((2 * n + 1) * k : ℕ) / (q : ℕ) = Real.pi * (2 * n + 1) * k / q := by
  push_cast; ring

theorem leeForward_near (k n : ℕ) : Near (leeForward k n) (Exact.leeKernel k n) := by
  have h := cosPi_close ((2 * n + 1) * k) 16 (by decide)
  rw [lee_angle] at h
  exact fl_near _ _ (scale_nat_pos) _ (Real.abs_cos_le_one _) (near_of_64 h)

theorem leeInverse_near (k n : ℕ) : Near (leeInverse k n) (Exact.leeWeight k * Exact.leeKernel k n) := by
  have h := cosPi_close ((2 * n + 1) * k) 16 (by decide)
  rw [lee_angle] at h
  have hw : Exact.leeWeight k = 1 / ((if k = 0 then 8 else 4 : ℕ) : ℝ) := by
    unfold Exact.leeWeight; split_ifs <;> norm_num
  have hd : 1 ≤ (if k = 0 then 8 else 4 : ℕ) := by split_ifs <;> decide
  unfold leeInverse
  rw [hw]
  generalize (if k = 0 then 8 else 4 : ℕ) = d at hd ⊢
  have hd' : (1 : ℝ) ≤ d := by exact_mod_cast hd
  have hw1 : |1 / (d : ℝ)| ≤ 1 := by
    rw [abs_of_pos (by positivity)]
    exact (div_le_one (by linarith)).mpr hd'
  refine fl_near _ _ (Nat.mul_pos (scale_nat_pos) hd) _ ?_ (near_of_64 (le_trans (le_of_eq ?_)
    ((mul_le_of_le_one_left (abs_nonneg _) hw1).trans h)))
  · rw [abs_mul]
    exact mul_le_one₀ hw1 (abs_nonneg _) (Real.abs_cos_le_one _)
  · rw [← abs_mul, Exact.leeKernel, Nat.cast_mul]
    congr 1
    have hs := scale_pos.ne'
    generalize (scale : ℝ) = s at hs
    push_cast
    field_simp

theorem dctCoeff_near (S k n : ℕ) (hS : 2 ≤ S) : Near (dctCoeff S k n) (Exact.basis S k n) := by
  have hs := scale_pos
  have h := cosPi_close ((2 * n + 1) * k) (2 * S) (by omega)
  rw [lee_angle] at h
  have hm : (if k = 0 then 1 else 2) ≤ S := by split_ifs <;> omega
  have hr := sqrtFixed_close (if k = 0 then 1 else 2) S (by omega) hm
  have ha : Exact.alpha S k = Real.sqrt ((if k = 0 then 1 else 2 : ℕ) / (S : ℝ)) := by
    unfold Exact.alpha; split_ifs <;> norm_num
  unfold dctCoeff Exact.basis
  rw [ha]
  have hS' : (0 : ℝ) < S := by exact_mod_cast (by omega : 0 < S)
  have hroot : Real.sqrt ((if k = 0 then 1 else 2 : ℕ) / (S : ℝ)) ≤ 1 := by
    rw [Real.sqrt_le_one]
    exact (div_le_one hS').mpr (by exact_mod_cast hm)
  have hroot0 := Real.sqrt_nonneg ((if k = 0 then 1 else 2 : ℕ) / (S : ℝ))
  have hcos := Real.abs_cos_le_one (Real.pi * (2 * n + 1) * k / (2 * S))
  rw [Nat.cast_mul, Nat.cast_ofNat] at h
  generalize sqrtFixed (if k = 0 then 1 else 2) S = a at hr ⊢
  generalize Real.sqrt ((if k = 0 then 1 else 2 : ℕ) / (S : ℝ)) = α at hr hroot hroot0 ⊢
  generalize Real.cos (Real.pi * (2 * n + 1) * k / (2 * S)) = c at h hcos ⊢
  generalize cosPi ((2 * n + 1) * k) (2 * S) = b at h ⊢
  refine fl_near _ _ (Nat.mul_pos (scale_nat_pos) (scale_nat_pos)) _ ?_ ?_
  · rw [abs_mul, abs_of_nonneg hroot0]
    exact mul_le_one₀ hroot (abs_nonneg _) hcos
  · have e : ((((a : Int) * b : Int) : ℝ)) / ((scale * scale : ℕ) : ℝ) - α * c =
        (a / scale - α) * (b / scale) + α * (b / scale - c) := by
      rw [Nat.cast_mul]
      generalize (scale : ℝ) = s at hs
      have hs := hs.ne'
      push_cast
      field_simp
      ring
    have hs1 : 1 / (scale : ℝ) ≤ 1 / 2 ^ 192 := by unfold scale; norm_num
    have hb : |(b : ℝ) / scale| ≤ 2 := by
      have := abs_sub_abs_le_abs_sub ((b : ℝ) / scale) c
      norm_num at *
      linarith
    rw [e]
    refine (abs_add_le _ _).trans ?_
    rw [abs_mul, abs_mul, abs_of_nonneg hroot0]
    have m1 := mul_le_mul (hr.trans hs1) hb (abs_nonneg _) (by positivity)
    have m2 := mul_le_mul hroot h (abs_nonneg _) zero_le_one
    have n1 : (1 : ℝ) / 2 ^ 192 * 2 + 1 * (1 / 2 ^ 64) ≤ 1 / 2 ^ 59 := by norm_num
    linarith

end Sys2Proof.Machine.Trig
end

