-- ==== Sys2Proof/Laws/RoundTrip.lean ====
section
/-! SUPPORT. REF neither overflows nor makes a NaN on a block of moderate entries, and so it obeys the round-trip law of
R95 within some RT_EPS, as every other realization does by its own proof. -/

namespace Sys2Proof.Machine

/-- Finite and of magnitude at most `B`. -/
def Bounded (B : ℚ) (x : F64) : Prop := Fp.finite x = true ∧ |Exact.value x| ≤ B

theorem Bounded.mono {A B : ℚ} {x : F64} (h : Bounded A x) (hAB : A ≤ B) : Bounded B x := ⟨h.1, h.2.trans hAB⟩

theorem bounded_zero (B : ℚ) (hB : 0 ≤ B) : Bounded B 0#64 :=
  ⟨by decide, by rw [Exact.value, show Fp.scaled 0#64 = 0 by decide, Int.cast_zero, zero_div, abs_zero]; exact hB⟩

/-- A value rounded once is at most a little larger than the bound of the exact one. -/
theorem Fp.Close.bounded {x : F64} {r C : ℚ} (h : Fp.Close x r) (hr : |r| ≤ C) (hC : 1 ≤ C) :
    Bounded (C * (1 + 1 / 2 ^ 52)) x := by
  refine ⟨h.1, ?_⟩
  have h1 := abs_sub_abs_le_abs_sub (Exact.value x) r
  have h2 := h.2
  have h3 : (2⁻¹ ^ 53 : ℚ) * |r| ≤ 2⁻¹ ^ 53 * C := mul_le_mul_of_nonneg_left hr (by positivity)
  norm_num at *
  linarith

/-- A bound far below overflow. -/
def limit : ℚ := 2 ^ 1000

theorem small_lt {C : ℚ} (h : C ≤ limit) : C < 2 ^ 1023 := h.trans_lt (pow_lt_pow_right₀ one_lt_two (by decide))

theorem Bounded.fadd {A B : ℚ} {a b : F64} (ha : Bounded A a) (hb : Bounded B b) (h1 : 1 ≤ A + B)
    (h2 : A + B ≤ limit) : Bounded ((A + B) * (1 + 1 / 2 ^ 52)) (Fp.fadd a b) := by
  have h := (abs_add_le (Exact.value a) (Exact.value b)).trans (add_le_add ha.2 hb.2)
  exact (Fp.fadd_close ha.1 hb.1 (small_lt (h.trans h2))).bounded h h1

theorem Bounded.fsub {A B : ℚ} {a b : F64} (ha : Bounded A a) (hb : Bounded B b) (h1 : 1 ≤ A + B)
    (h2 : A + B ≤ limit) : Bounded ((A + B) * (1 + 1 / 2 ^ 52)) (Fp.fsub a b) := by
  have h := (abs_sub (Exact.value a) (Exact.value b)).trans (add_le_add ha.2 hb.2)
  exact (Fp.fsub_close ha.1 hb.1 (small_lt (h.trans h2))).bounded h h1

theorem Bounded.fmul {A B : ℚ} {a b : F64} (ha : Bounded A a) (hb : Bounded B b) (h1 : 1 ≤ A * B)
    (h2 : A * B ≤ limit) : Bounded (A * B * (1 + 1 / 2 ^ 52)) (Fp.fmul a b) := by
  have h : |Exact.value a * Exact.value b| ≤ A * B := by
    rw [abs_mul]
    exact mul_le_mul ha.2 hb.2 (abs_nonneg _) ((abs_nonneg _).trans ha.2)
  exact (Fp.fmul_close ha.1 hb.1 (small_lt (h.trans h2))).bounded h h1

/-- A REF constant is at most 2 in magnitude. -/
theorem Trig.Near.bounded {x : F64} {r : ℝ} (h : Trig.Near x r) (hr : |r| ≤ 1) : Bounded 2 x := by
  refine ⟨h.1, ?_⟩
  rw [← Rat.cast_le (K := ℝ)]
  push_cast
  have h1 := abs_sub_abs_le_abs_sub ((Exact.value x : ℚ) : ℝ) r
  have h2 := h.2
  norm_num at *
  linarith

/-- Every entry of a list is bounded. -/
def AllBounded (B : ℚ) (xs : List F64) : Prop := ∀ x ∈ xs, Bounded B x

theorem AllBounded.getD {B : ℚ} {xs : List F64} (h : AllBounded B xs) (hB : 0 ≤ B) (i : Nat) :
    Bounded B (xs.getD i 0#64) := by
  rw [List.getD_eq_getElem?_getD]
  cases hi : xs[i]? with
  | none => exact bounded_zero B hB
  | some v => exact h v (List.mem_of_getElem? hi)

/-- One more term of a sum: `j` terms of magnitude at most `T` sum to at most `2 * j * T` after their roundings. -/
theorem Bounded.accumulate {T : ℚ} {acc t : F64} {j : ℕ} (h1 : 1 ≤ T) (h2 : 8193 * T ≤ limit) (hj : j ≤ 4096)
    (ha : Bounded (2 * j * T) acc) (ht : Bounded T t) : Bounded (2 * (j + 1 : ℕ) * T) (Fp.fadd acc t) := by
  have hjq : (j : ℚ) ≤ 4096 := by exact_mod_cast hj
  have hj0 : (0 : ℚ) ≤ j := Nat.cast_nonneg _
  refine (ha.fadd ht (by nlinarith) (by nlinarith)).mono ?_
  push_cast
  have : (2 * (j : ℚ) + 1) * (1 + 1 / 2 ^ 52) ≤ 2 * (j + 1) := by norm_num; linarith
  nlinarith

theorem dotFrom_bounded (coeff : Nat → F64) (B : ℚ) (h1 : 1 ≤ B) (h2 : 2 ^ 20 * B ≤ limit) (hc : ∀ n, Bounded 2 (coeff n))
    (xs : List F64) : ∀ (n j : Nat) (acc : F64), AllBounded B xs → Bounded (2 * j * (4 * B)) acc → j + xs.length ≤ 4096 →
      Bounded (2 * (j + xs.length : ℕ) * (4 * B)) (dotFrom coeff n xs acc) := by
  induction xs with
  | nil => intro n j acc _ h _; simpa [dotFrom] using h
  | cons x xs ih =>
    intro n j acc hx ha hj
    rw [List.length_cons] at hj ⊢
    have ht : Bounded (4 * B) (Fp.fmul (coeff n) x) :=
      ((hc n).fmul (hx x (by simp)) (by linarith) (by norm_num at h2; linarith)).mono (by norm_num; linarith)
    have := ih (n + 1) (j + 1) _ (fun y hy => hx y (by simp [hy]))
      (ha.accumulate (by linarith) (by norm_num at h2; linarith) (by omega) ht) (by omega)
    rw [dotFrom, show j + (xs.length + 1) = j + 1 + xs.length by omega]
    exact this

theorem dftSum_bounded (L : Nat) (dir : Direction) (k : Nat) (hL : 0 < L) (B : ℚ) (h1 : 1 ≤ B) (h2 : 2 ^ 20 * B ≤ limit)
    (xs : List F64) : ∀ (ys : List F64) (n j : Nat) (re im : F64), AllBounded B xs → AllBounded B ys →
      Bounded (2 * j * (16 * B)) re → Bounded (2 * j * (16 * B)) im → j + xs.length ≤ 4096 →
      Bounded (2 ^ 17 * B) (dftSum L dir k n xs ys re im).1 ∧ Bounded (2 ^ 17 * B) (dftSum L dir k n xs ys re im).2 := by
  have hend : ∀ (j : Nat) (v : F64), j ≤ 4096 → Bounded (2 * j * (16 * B)) v → Bounded (2 ^ 17 * B) v := by
    intro j v hj hv
    have hjq : (j : ℚ) ≤ 4096 := by exact_mod_cast hj
    exact hv.mono (by norm_num; nlinarith)
  have hcos : ∀ m, Bounded 2 (Trig.twiddleCos L m) := fun m =>
    (Trig.twiddleCos_near L m hL).bounded (Real.abs_cos_le_one _)
  have hsin : ∀ m, Bounded 2 (Trig.twiddleSin dir L m) := fun m => by
    cases dir
    · exact (Trig.twiddleSin_near L m hL).1.bounded (by rw [abs_neg]; exact Real.abs_sin_le_one _)
    · exact (Trig.twiddleSin_near L m hL).2.bounded (Real.abs_sin_le_one _)
  have h2' : 1048576 * B ≤ limit := by norm_num at h2; exact h2
  have hmul : ∀ {a c : F64}, Bounded B a → Bounded 2 c → Bounded (4 * B) (Fp.fmul a c) := fun ha hc =>
    (ha.fmul hc (by linarith) (by linarith)).mono (by norm_num; linarith)
  induction xs with
  | nil =>
    intro ys n j re im _ _ hr hi hj
    simp only [dftSum]
    exact ⟨hend j re (by simpa using hj) hr, hend j im (by simpa using hj) hi⟩
  | cons x xs ih =>
    intro ys n j re im hx hy hr hi hj
    cases ys with
    | nil =>
      simp only [dftSum]
      exact ⟨hend j re (by omega) hr, hend j im (by omega) hi⟩
    | cons y ys =>
      rw [List.length_cons] at hj
      have bx := hx x (by simp)
      have by' := hy y (by simp)
      refine ih ys (n + 1) (j + 1) _ _ (fun v hv => hx v (by simp [hv])) (fun v hv => hy v (by simp [hv]))
        (hr.accumulate (by linarith) (by linarith) (by omega) ?_) (hi.accumulate (by linarith) (by linarith) (by omega) ?_)
        (by omega)
      · exact ((hmul bx (hcos _)).fsub (hmul by' (hsin _)) (by linarith) (by linarith)).mono (by norm_num; linarith)
      · exact ((hmul bx (hsin _)).fadd (hmul by' (hcos _)) (by linarith) (by linarith)).mono (by norm_num; linarith)

theorem allBounded_map {α : Type} {B : ℚ} {xs : List α} {f : α → F64} (h : ∀ a ∈ xs, Bounded B (f a)) :
    AllBounded B (xs.map f) := by
  intro v hv
  obtain ⟨a, ha, rfl⟩ := List.mem_map.mp hv
  exact h a ha

theorem allBounded_flatMap {α : Type} {B : ℚ} {xs : List α} {f : α → List F64} (h : ∀ a ∈ xs, AllBounded B (f a)) :
    AllBounded B (xs.flatMap f) := by
  intro v hv
  obtain ⟨a, ha, hva⟩ := List.mem_flatMap.mp hv
  exact h a ha v hva

theorem AllBounded.transpose {B : ℚ} {x : List F64} (h : AllBounded B x) (hB : 0 ≤ B) (S : Nat) :
    AllBounded B (transpose S x) :=
  allBounded_flatMap fun _ _ => allBounded_map fun _ _ => h.getD hB _

theorem AllBounded.rows {B : ℚ} {x : List F64} (h : AllBounded B x) (hB : 0 ≤ B) (S : Nat) :
    ∀ row ∈ rows S x, AllBounded B row ∧ row.length = S := by
  intro row hr
  obtain ⟨r, -, rfl⟩ := List.mem_map.mp hr
  exact ⟨allBounded_map fun _ _ => h.getD hB _, by simp⟩

/-- N or S as a binary64 divisor is at least a half. -/
theorem natF64_ge (L : Nat) (hL : 0 < L) (hL' : L ≤ 4096) :
    Fp.finite (natF64 L) = true ∧ (1 / 2 : ℚ) ≤ Exact.value (natF64 L) := by
  have h1 : (1 : ℚ) ≤ L := by exact_mod_cast hL
  have h2 : (L : ℚ) ≤ 4096 := by exact_mod_cast hL'
  have hr : |((L : Int) : ℚ) / (1 : Nat)| ≤ 4096 := by
    rw [Nat.cast_one, div_one, Int.cast_natCast, abs_of_nonneg (by linarith)]
    exact h2
  have hc := Fp.fl_close (L : Int) 1 one_pos (hr.trans_lt
    (lt_of_lt_of_le (by norm_num : (4096 : ℚ) < 2 ^ 13) (pow_le_pow_right₀ one_le_two (by decide))))
  refine ⟨hc.1, ?_⟩
  have h3 := hc.2.trans (add_le_add_left (mul_le_mul_of_nonneg_left hr (by positivity)) _)
  rw [Nat.cast_one, div_one, Int.cast_natCast] at h3
  have h4 := (abs_le.mp h3).1
  unfold natF64
  norm_num at h4
  linarith

theorem Bounded.fdiv_natF64 {B : ℚ} {v : F64} (h : Bounded B v) (h1 : 1 ≤ B) (h2 : 2 * B ≤ limit) (L : Nat) (hL : 0 < L)
    (hL' : L ≤ 4096) : Bounded (4 * B) (Fp.fdiv v (natF64 L)) := by
  obtain ⟨d1, d2⟩ := natF64_ge L hL hL'
  have hd : 0 < Exact.value (natF64 L) := by linarith
  have hq : |Exact.value v / Exact.value (natF64 L)| ≤ 2 * B := by
    rw [abs_div, abs_of_pos hd, div_le_iff₀ hd]
    nlinarith [h.2]
  exact ((Fp.fdiv_close h.1 d1 hd.ne' (small_lt (hq.trans h2))).bounded hq (by linarith)).mono (by norm_num; linarith)

theorem fftPass_bounded (L : Nat) (dir : Direction) (hL : 0 < L) (hL' : L ≤ 4096) (B : ℚ) (h1 : 1 ≤ B)
    (h2 : 2 ^ 20 * B ≤ limit) (z : Block) (hz : AllBounded B z.1 ∧ AllBounded B z.2) (hlen : z.1.length ≤ 4096) :
    AllBounded (2 ^ 19 * B) (fftPass L dir z).1 ∧ AllBounded (2 ^ 19 * B) (fftPass L dir z).2 := by
  have hk : ∀ k, Bounded (2 ^ 17 * B) (dftSum L dir k 0 z.1 z.2 0#64 0#64).1 ∧
      Bounded (2 ^ 17 * B) (dftSum L dir k 0 z.1 z.2 0#64 0#64).2 := fun k =>
    dftSum_bounded L dir k hL B h1 h2 z.1 z.2 0 0 _ _ hz.1 hz.2 (bounded_zero _ (by norm_num))
      (bounded_zero _ (by norm_num)) (by omega)
  have hd : AllBounded (2 ^ 17 * B) (dft1 L dir z).1 ∧ AllBounded (2 ^ 17 * B) (dft1 L dir z).2 := by
    simp only [dft1, List.map_map]
    exact ⟨allBounded_map fun k _ => (hk k).1, allBounded_map fun k _ => (hk k).2⟩
  norm_num at h2 hd ⊢
  cases dir
  · exact ⟨fun v hv => (hd.1 v hv).mono (by linarith), fun v hv => (hd.2 v hv).mono (by linarith)⟩
  · exact ⟨allBounded_map fun v hv => ((hd.1 v hv).fdiv_natF64 (by linarith) (by linarith) L hL hL').mono (by linarith),
      allBounded_map fun v hv => ((hd.2 v hv).fdiv_natF64 (by linarith) (by linarith) L hL hL').mono (by linarith)⟩

theorem fftRows_bounded (S : Nat) (dir : Direction) (hS : 0 < S) (hS' : S ≤ 64) (B : ℚ) (h1 : 1 ≤ B)
    (h2 : 2 ^ 20 * B ≤ limit) (z : Block) (hz : AllBounded B z.1 ∧ AllBounded B z.2) :
    AllBounded (2 ^ 19 * B) (fftRows S dir z).1 ∧ AllBounded (2 ^ 19 * B) (fftRows S dir z).2 := by
  have hrow : ∀ out ∈ (List.zip (rows S z.1) (rows S z.2)).map fun row => fftPass S dir row,
      AllBounded (2 ^ 19 * B) out.1 ∧ AllBounded (2 ^ 19 * B) out.2 := by
    intro out ho
    obtain ⟨row, hr, rfl⟩ := List.mem_map.mp ho
    obtain ⟨r1, r2⟩ := List.of_mem_zip (show (row.1, row.2) ∈ _ from hr)
    obtain ⟨b1, l1⟩ := hz.1.rows (by linarith) S _ r1
    exact fftPass_bounded S dir hS (by omega) B h1 h2 row ⟨b1, (hz.2.rows (by linarith) S _ r2).1⟩ (by omega)
  exact ⟨allBounded_flatMap fun o ho => (hrow o ho).1, allBounded_flatMap fun o ho => (hrow o ho).2⟩

/-- One pass of a DCT on a row. -/
def PassBounded (S : Nat) (pass : List F64 → List F64) : Prop :=
  ∀ (B : ℚ) (x : List F64), 1 ≤ B → 2 ^ 20 * B ≤ limit → x.length = S → AllBounded B x → AllBounded (2 ^ 10 * B) (pass x)

theorem dctPass_bounded (S : Nat) (hS : S ≤ 64) (K : Nat → Nat → F64) (hK : ∀ k n, Bounded 2 (K k n)) :
    PassBounded S (dctPass S K) ∧ PassBounded S (dctInversePass S K) := by
  have h : ∀ (coeff : Nat → F64) (B : ℚ) (x : List F64), (∀ n, Bounded 2 (coeff n)) → 1 ≤ B → 2 ^ 20 * B ≤ limit →
      x.length = S → AllBounded B x → Bounded (2 ^ 10 * B) (dotFrom coeff 0 x 0#64) := by
    intro coeff B x hc h1 h2 hl hx
    refine (dotFrom_bounded coeff B h1 h2 hc x 0 0 _ hx (bounded_zero _ (by norm_num)) (by omega)).mono ?_
    have : ((0 + x.length : ℕ) : ℚ) ≤ 64 := by rw [zero_add, hl]; exact_mod_cast hS
    have := mul_le_mul_of_nonneg_right this (by linarith : (0 : ℚ) ≤ B)
    norm_num at this ⊢
    linarith
  exact ⟨fun B x h1 h2 hl hx => allBounded_map fun k _ => h _ B x (fun n => hK k n) h1 h2 hl hx,
    fun B x h1 h2 hl hx => allBounded_map fun n _ => h _ B x (fun k => hK k n) h1 h2 hl hx⟩

theorem rowsThenColumns_bounded (S : Nat) (pass : List F64 → List F64) (hp : PassBounded S pass) (B : ℚ) (h1 : 1 ≤ B)
    (h2 : 2 ^ 30 * B ≤ limit) (x : List F64) (hx : AllBounded B x) : AllBounded (2 ^ 20 * B) (rowsThenColumns S pass x) := by
  have hrows : ∀ (C : ℚ) (y : List F64), 1 ≤ C → 2 ^ 20 * C ≤ limit → AllBounded C y →
      AllBounded (2 ^ 10 * C) ((rows S y).flatMap pass) := fun C y c1 c2 hy =>
    allBounded_flatMap fun row hr => hp C row c1 c2 ((hy.rows (by linarith) S row hr).2) ((hy.rows (by linarith) S row hr).1)
  have e : (2 : ℚ) ^ 20 * B = 2 ^ 10 * (2 ^ 10 * B) := by ring
  rw [e]
  norm_num at h2
  exact (hrows _ _ (by norm_num; linarith) (by norm_num; linarith)
    ((hrows B x h1 (by norm_num; linarith) hx).transpose (by norm_num; linarith) S)).transpose (by norm_num; linarith) S

theorem dctCoeff_bounded (S : Nat) (hS : 2 ≤ S) (k n : Nat) : Bounded 2 (Trig.dctCoeff S k n) := by
  refine (Trig.dctCoeff_near S k n hS).bounded ?_
  have hS' : (0 : ℝ) < S := by exact_mod_cast (by omega : 0 < S)
  have h2 : (2 : ℝ) ≤ S := by exact_mod_cast hS
  have ha : Exact.alpha S k ≤ 1 ∧ 0 ≤ Exact.alpha S k := by
    unfold Exact.alpha
    split_ifs
    · exact ⟨Real.sqrt_le_one.mpr ((div_le_one hS').mpr (by linarith)), Real.sqrt_nonneg _⟩
    · exact ⟨Real.sqrt_le_one.mpr ((div_le_one hS').mpr h2), Real.sqrt_nonneg _⟩
  rw [Exact.basis, abs_mul, abs_of_nonneg ha.2]
  exact mul_le_one₀ ha.1 (abs_nonneg _) (Real.abs_cos_le_one _)

theorem lee_bounded (k n : Nat) : Bounded 2 (Trig.leeForward k n) ∧ Bounded 2 (Trig.leeInverse k n) := by
  refine ⟨(Trig.leeForward_near k n).bounded (Real.abs_cos_le_one _), (Trig.leeInverse_near k n).bounded ?_⟩
  have hw : |Exact.leeWeight k| ≤ 1 := by unfold Exact.leeWeight; split_ifs <;> norm_num [abs_le]
  rw [abs_mul]
  exact mul_le_one₀ hw (abs_nonneg _) (Real.abs_cos_le_one _)

/-- REF grows a block by less than 2^50 and stays finite, in both directions at every legal size. -/
theorem refXform_bounded (alg : Alg) (dir : Direction) (S : Nat) (hS : sizeOk 64 alg S = true) (B : ℚ) (h1 : 1 ≤ B)
    (h2 : 2 ^ 60 * B ≤ limit) (z : Block) (hz : AllBounded B z.1 ∧ AllBounded B z.2) (hlen : z.1.length = S * S) :
    AllBounded (2 ^ 50 * B) (refXform alg dir S z).1 ∧ AllBounded (2 ^ 50 * B) (refXform alg dir S z).2 := by
  simp only [sizeOk, Bool.and_eq_true, decide_eq_true_eq] at hS
  obtain ⟨⟨s2, s64⟩, sa⟩ := hS
  have hN : S * S ≤ 64 * 64 := Nat.mul_le_mul s64 s64
  have hN0 : 0 < S * S := Nat.mul_pos (by omega) (by omega)
  norm_num at h2
  have hB : ∀ {C : ℚ} {x : List F64}, C ≤ 2 ^ 50 * B → AllBounded C x → AllBounded (2 ^ 50 * B) x :=
    fun h hx v hv => (hx v hv).mono h
  have hnil : AllBounded (2 ^ 50 * B) [] := by simp [AllBounded]
  have h128 : Bounded 128 levelShift := by
    refine ⟨by decide, le_of_eq ?_⟩
    have h : Fp.scaled levelShift = 128 * (Fp.unit : Int) := by decide +kernel
    rw [Exact.value, h, Int.cast_mul, Int.cast_natCast, mul_div_assoc, div_self Fp.unit_pos.ne']
    norm_num
  have hdct := fun (K : Nat → Nat → F64) (hK : ∀ k n, Bounded 2 (K k n)) (T : Nat) (hT : T ≤ 64) (C : ℚ)
      (c1 : 1 ≤ C) (c2 : 2 ^ 30 * C ≤ limit) (x : List F64) (hx : AllBounded C x) =>
    And.intro (rowsThenColumns_bounded T _ (dctPass_bounded T hT K hK).1 C c1 c2 x hx)
      (rowsThenColumns_bounded T _ (dctPass_bounded T hT K hK).2 C c1 c2 x hx)
  cases alg
  · have h := fftPass_bounded (S * S) dir hN0 (by omega) B h1 (by norm_num; linarith) z hz (by omega)
    exact ⟨hB (by norm_num; linarith) h.1, hB (by norm_num; linarith) h.2⟩
  · have r := fftRows_bounded S dir (by omega) s64 B h1 (by norm_num; linarith) z hz
    have c := fftRows_bounded S dir (by omega) s64 (2 ^ 19 * B) (by norm_num; linarith) (by norm_num; linarith)
      (transpose S (fftRows S dir z).1, transpose S (fftRows S dir z).2)
      ⟨r.1.transpose (by norm_num; linarith) S, r.2.transpose (by norm_num; linarith) S⟩
    exact ⟨hB (by norm_num; linarith) (c.1.transpose (by norm_num; linarith) S),
      hB (by norm_num; linarith) (c.2.transpose (by norm_num; linarith) S)⟩
  · refine ⟨?_, hnil⟩
    cases dir
    · have hx : AllBounded (2 ^ 8 * B) (z.1.map fun v => Fp.fsub v levelShift) := allBounded_map fun v hv =>
        ((hz.1 v hv).fsub h128 (by linarith) (by linarith)).mono (by norm_num; linarith)
      exact hB (by norm_num; linarith)
        (hdct _ (dctCoeff_bounded S s2) S s64 _ (by norm_num; linarith) (by norm_num; linarith) _ hx).1
    · have h := (hdct _ (dctCoeff_bounded S s2) S s64 B h1 (by norm_num; linarith) _ hz.1).2
      norm_num at h
      exact allBounded_map fun v hv =>
        ((h v hv).fadd h128 (by linarith) (by linarith)).mono (by norm_num; linarith)
  · have h := hdct _ (dctCoeff_bounded 8 (by decide)) 8 (by decide) B h1 (by norm_num; linarith) _ hz.1
    cases dir
    · exact ⟨hB (by norm_num; linarith) h.1, hnil⟩
    · exact ⟨hB (by norm_num; linarith) h.2, hnil⟩
  · cases dir
    · exact ⟨hB (by norm_num; linarith)
        (hdct _ (fun k n => (lee_bounded k n).1) 8 (by decide) B h1 (by norm_num; linarith) _ hz.1).1, hnil⟩
    · exact ⟨hB (by norm_num; linarith)
        (hdct _ (fun k n => (lee_bounded k n).2) 8 (by decide) B h1 (by norm_num; linarith) _ hz.1).2, hnil⟩

/-- R95 binds REF too: it obeys the round-trip law within some RT_EPS. Which one is open (R9); the one of this proof is
only large enough. -/
theorem reference_roundTrip : ∃ eps : ℝ, RoundTripLaw refXform eps := by
  refine ⟨2 ^ 101, by positivity, fun alg S x y hS hx hy hv => ?_⟩
  have hlim : (2 : ℚ) ^ 60 * (2 ^ 50 * 255) ≤ limit := by
    unfold limit
    refine le_trans (by norm_num : (2 : ℚ) ^ 60 * (2 ^ 50 * 255) ≤ 2 ^ 120) (pow_le_pow_right₀ one_le_two (by decide))
  have hin : ∀ l : List F64, (∀ v ∈ l, v ∈ x ++ y) → AllBounded 255 l := fun l hl v hm =>
    ⟨(hv v (hl v hm)).1, abs_le.mpr ⟨by linarith [(hv v (hl v hm)).2.1], (hv v (hl v hm)).2.2⟩⟩
  have hx255 := hin x fun v hm => by simp [hm]
  have hy255 := hin y fun v hm => by simp [hm]
  have hblock : AllBounded 255 (blockOf alg x y).1 ∧ AllBounded 255 (blockOf alg x y).2 := by
    refine ⟨hx255, ?_⟩
    unfold blockOf
    split_ifs
    · exact hy255
    · simp [AllBounded]
  have ha : algAllows alg S = true := by simp only [sizeOk, Bool.and_eq_true] at hS; exact hS.2
  have hf := refXform_bounded alg .forward S hS 255 (by norm_num) (by norm_num at hlim ⊢; linarith) _ hblock (by
    simpa [blockOf] using hx)
  have hl := length_refXform alg .forward S (blockOf alg x y) ha
  have hb := refXform_bounded alg .inverse S hS (2 ^ 50 * 255) (by norm_num) hlim _ hf hl
  have hl2 := length_refXform alg .inverse S (refXform alg .forward S (blockOf alg x y)) ha
  have hSS : (1 : ℝ) ≤ (S * S : ℕ) := by
    simp only [sizeOk, Bool.and_eq_true, decide_eq_true_eq] at hS
    exact_mod_cast Nat.mul_pos (by omega : 0 < S) (by omega : 0 < S)
  have key : ∀ (w out : List F64), w.length = S * S → out.length = S * S → AllBounded 255 w →
      AllBounded (2 ^ 50 * (2 ^ 50 * 255)) out → BackWithin (2 ^ 101 * 255 * (S * S : ℕ)) w out := by
    refine fun w out hw ho bw bo => ⟨by rw [ho, hw], fun i _ => ?_⟩
    have b1 := bo.getD (by norm_num) i
    have b2 := bw.getD (by norm_num) i
    refine ⟨b1.1, ?_⟩
    have h : |Exact.value (out.getD i 0#64) - Exact.value (w.getD i 0#64)| ≤ 2 ^ 101 * 255 := by
      refine (abs_sub _ _).trans ((add_le_add b1.2 b2.2).trans ?_)
      norm_num
    rw [← Rat.cast_le (K := ℝ)] at h
    push_cast at h ⊢
    refine h.trans ?_
    push_cast at hSS
    nlinarith
  refine ⟨key x _ hx hl2 hx255 hb.1, fun hu => key y _ hy ?_ hy255 hb.2⟩
  exact length_xform_im .reference alg .inverse S _ hu

/-- R95: every realization of the transforms obeys the round-trip law within an RT_EPS of its own. -/
theorem xform_roundTrip (num : Numerics) : ∃ eps : ℝ, RoundTripLaw (xform num) eps := by
  cases num with
  | reference => exact reference_roundTrip
  | other k => exact (Config.otherRealization k ⟨Realization.copy⟩).roundTrip

end Sys2Proof.Machine
end

