-- ==== Sys2Proof/Tests/Slice0.lean ====
section
/-! SUPPORT. The model's own tests: expected values from spec/30_encoding.md R80 and spec/95_test_vectors.md, by the
name each vector has there; and for every obligation with hypotheses a concrete state and operands that meet them. -/

open Sys2Proof Sys2Proof.Machine Sys2Proof.Claims

namespace Sys2Proof.Tests

set_option Elab.async false

/-! ### Helpers -/

/-- The fields the tests use. -/
def fields (alg : Alg) (size : Nat) (bit : Bool := false) (possel : PosSel := .reg) : CmdFields :=
  ⟨alg, bit, possel, size⟩

/-- The reset state with buffers loaded and events to come. -/
def loaded (re im : List F64) (events : List Event := []) : State :=
  { State.reset with re := Memory.writeEntries [] reBase re, im := Memory.writeEntries [] imBase im, events := events }

/-- A command in progress on loaded buffers. -/
def running (op : BlockOp) (alg : Alg) (size : Nat) (re im : List F64) (tol : F64 := Fp.one) (epos : BitVec 16 := 0#16)
    (bit : Bool := false) (events : List Event := []) : State :=
  { loaded re im events with fsm := .busy, cur := ⟨op, alg, bit, size, epos, tol⟩, tol := tol, epos := epos }

/-- An outcome that goes on in a state with a property. -/
def after (o : Host.Outcome State Fault Refusal) (p : State → Bool) : Bool :=
  match o with
  | .next t => p t
  | .fault _ => false
  | .refused _ => false

theorem exists_of_after {o : Host.Outcome State Fault Refusal} {p : State → Bool} (h : after o p = true) :
    ∃ t, o = .next t ∧ p t = true := by
  cases o <;> simp_all [after]

/-- The entries 0, 1, 2, … of RE are known and hold this list. -/
def reads (t : State) (re : List F64) : Bool := t.re.readEntries reBase re.length == some re

/-- The same for IM. -/
def readsIm (t : State) (im : List F64) : Bool := t.im.readEntries imBase im.length == some im

/-- 1, 2, 3, 4. -/
def oneToFour : List F64 := [0x3FF0000000000000#64, 0x4000000000000000#64, 0x4008000000000000#64, 0x4010000000000000#64]

/-- 128, 130, 132, 134. -/
def samples : List F64 := [0x4060000000000000#64, 0x4060400000000000#64, 0x4060800000000000#64, 0x4060C00000000000#64]

/-- Four positive zeros. -/
def zeros : List F64 := [0#64, 0#64, 0#64, 0#64]

/-- 4.0 and 16.0. -/
def four : F64 := 0x4010000000000000#64
def sixteen : F64 := 0x4030000000000000#64

/-- An 8×8 block of ones. -/
def ones64 : List F64 := List.replicate 64 Fp.one

/-! ### Well-formedness: what the check refuses -/

theorem test_nop_wellFormed : Instr.wellFormed .nop = true := by decide
theorem test_fwd_size_256_refused : Instr.wellFormed (.fwd (fields .fft1d 256)) = false := by decide
theorem test_inv_size_256_refused : Instr.wellFormed (.inv (fields .fft2d 256)) = false := by decide
theorem test_setbit_size_256_refused : Instr.wellFormed (.setbit (fields .dct2d 256)) = false := by decide
theorem test_getbit_size_256_refused : Instr.wellFormed (.getbit (fields .fdct8 256)) = false := by decide
theorem test_embed_size_256_refused : Instr.wellFormed (.embed (fields .fdctlee 256)) = false := by decide
theorem test_extract_size_256_refused : Instr.wellFormed (.extract (fields .fft1d 256)) = false := by decide
theorem test_size_255_taken : Instr.wellFormed (.fwd (fields .fft1d 255)) = true := by decide

/-! ### Decoding: words written out field by field from R63 (RSV2 RSV1 SIZE RSV0 POSSEL BIT ALG OP) -/

theorem test_decode_nop :
    decode (0#32 ++ 0#8 ++ 0x00#8 ++ 0#7 ++ 0b0#1 ++ 0b0#1 ++ 0b000#3 ++ 0b0000#4) = .cmd .nop := by decide
theorem test_decode_fwd :
    decode (0#32 ++ 0#8 ++ 0x02#8 ++ 0#7 ++ 0b0#1 ++ 0b0#1 ++ 0b001#3 ++ 0b0001#4) =
      .cmd (.fwd (fields .fft2d 2)) := by decide
theorem test_decode_inv :
    decode (0#32 ++ 0#8 ++ 0x10#8 ++ 0#7 ++ 0b0#1 ++ 0b0#1 ++ 0b010#3 ++ 0b0010#4) =
      .cmd (.inv (fields .dct2d 16)) := by decide
theorem test_decode_setbit :
    decode (0#32 ++ 0#8 ++ 0x02#8 ++ 0#7 ++ 0b1#1 ++ 0b1#1 ++ 0b010#3 ++ 0b0011#4) =
      .cmd (.setbit (fields .dct2d 2 true .static)) := by decide
theorem test_decode_getbit :
    decode (0#32 ++ 0#8 ++ 0x02#8 ++ 0#7 ++ 0b0#1 ++ 0b0#1 ++ 0b000#3 ++ 0b0100#4) =
      .cmd (.getbit (fields .fft1d 2)) := by decide
theorem test_decode_embed :
    decode (0#32 ++ 0#8 ++ 0x08#8 ++ 0#7 ++ 0b1#1 ++ 0b1#1 ++ 0b011#3 ++ 0b0101#4) =
      .cmd (.embed (fields .fdct8 8 true .static)) := by decide
theorem test_decode_extract :
    decode (0#32 ++ 0#8 ++ 0x08#8 ++ 0#7 ++ 0b1#1 ++ 0b0#1 ++ 0b100#3 ++ 0b0110#4) =
      .cmd (.extract (fields .fdctlee 8 false .static)) := by decide

/-- X1 to X8: the first failing test of R69 decides. -/
theorem test_decode_fatal_words :
    [0x7#64, 0xF#64, 0x20211#64, 0x100020011#64, 0x1020011#64, 0x20051#64, 0x20077#64].map decode =
      [.fatal .illegal, .fatal .illegal, .fatal .illegal, .fatal .illegal, .fatal .illegal, .fatal .badAlg,
        .fatal .illegal] ∧
    decode 0x70#64 = .cmd .nop := by decide
theorem test_table_word : decodeTableWord 64 0x201A3 = some (.setbit (fields .dct2d 2 true .static)) := by decide
theorem test_encode_example : encode (.embed (fields .fdct8 8 true .static)) = 0x801B5#64 := by decide
theorem test_assemble_example :
    assembleWord ⟨.setbit, some .dct2d, some 2, some true, some .static⟩ = some 0x201A3#64 := by decide
theorem test_assemble_refuses_ignored_field : assembleWord ⟨.getbit, some .dct2d, some 2, some true, none⟩ = none := by
  decide

/-! ### Commands, one step each -/

/-- K1. -/
theorem test_nop_K1 : after (exec .nop { State.reset with rvalid := true }) (fun t => t.statusWord == 0x2#64 && !t.rvalid) = true := by
  decide
/-- T1. -/
theorem test_fwd_T1 : after (exec (.fwd (fields .fft1d 2)) (running .fwd .fft1d 2 oneToFour zeros))
    (fun t => reads t [0x4024000000000000#64, 0xC000000000000000#64, 0xC000000000000000#64, 0xC000000000000000#64] &&
      readsIm t [0#64, 0x4000000000000000#64, 0#64, 0xC000000000000000#64]) = true := by decide +kernel
/-- T6, with IM all UNKNOWN. -/
theorem test_fwd_T6 : after (exec (.fwd (fields .dct2d 2)) (running .fwd .dct2d 2 samples []))
    (fun t => reads t [0x4018000000000001#64, 0xC000000000000001#64, 0xC010000000000001#64, 0#64] && t.im == []) = true := by
  decide +kernel
/-- T4. -/
theorem test_inv_T4 : after (exec (.inv (fields .fft2d 2))
    (running .inv .fft2d 2 [0x4024000000000000#64, 0xC000000000000000#64, 0xC010000000000000#64, 0#64] zeros))
    (fun t => reads t oneToFour && readsIm t zeros) = true := by decide +kernel
/-- T7. -/
theorem test_inv_T7 : after (exec (.inv (fields .dct2d 2))
    (running .inv .dct2d 2 [0x4018000000000001#64, 0xC000000000000001#64, 0xC010000000000001#64, 0#64] []))
    (fun t => reads t samples) = true := by decide +kernel
/-- B4: the floor goes toward minus infinity. -/
theorem test_setbit_B4 : after (exec (.setbit (fields .dct2d 2))
    (running .setbit .dct2d 2 [0xC042800000000000#64] [] sixteen))
    (fun t => reads t [0xC050000000000000#64] && t.statusWord == 0x2#64) = true := by decide +kernel
/-- B9: a zero keeps its sign. -/
theorem test_setbit_B9 : after (exec (.setbit (fields .dct2d 2))
    (running .setbit .dct2d 2 [0x8000000000000000#64] [] sixteen))
    (fun t => reads t [0x8000000000000000#64]) = true := by decide +kernel
/-- G6. -/
theorem test_getbit_G6 : after (exec (.getbit (fields .fft2d 2))
    (running .getbit .fft2d 2 [0x4047800000000000#64] [] sixteen)) (fun t => t.resultWord == 0x3#64) = true := by
  decide +kernel
/-- G9: the half is added exactly. -/
theorem test_getbit_G9 : after (exec (.getbit (fields .fft2d 2))
    (running .getbit .fft2d 2 [0x3FDFFFFFFFFFFFFF#64] [])) (fun t => t.resultWord == 0x2#64) = true := by decide +kernel
/-- P1 of section 9. -/
theorem test_embed_P1 : after (exec (.embed (fields .dct2d 2)) (running .embed .dct2d 2 samples [] four 0#16 true))
    (fun t => reads t
      [0x405FC00000000000#64, 0x4060200000000000#64, 0x4060600000000000#64, 0x4060A00000000000#64]) = true := by
  decide +kernel
/-- P4 of section 9: a position from POS, and the imaginary parts the inverse leaves. -/
theorem test_embed_P4 : after (exec (.embed (fields .fft1d 2)) (running .embed .fft1d 2 oneToFour zeros four 1#16))
    (fun t => reads t [0xBFE0000000000000#64, 0x4000000000000000#64, 0x4012000000000000#64, 0x4010000000000000#64] &&
      readsIm t [0#64, 0xBFF8000000000000#64, 0#64, 0x3FF8000000000000#64]) = true := by decide +kernel
/-- P1 of section 9: the bit is read, and the coefficients stay. -/
theorem test_extract_P1 : after (exec (.extract (fields .dct2d 2))
    (running .extract .dct2d 2 [0x405FC00000000000#64, 0x4060200000000000#64, 0x4060600000000000#64, 0x4060A00000000000#64]
      [] four))
    (fun t => t.resultWord == 0x3#64 &&
      reads t [0x4010000000000001#64, 0xC000000000000000#64, 0xC010000000000001#64, 0xBCB0000000000000#64]) = true := by
  decide +kernel
/-- P4 of section 9: with the imaginary samples dropped the wrong bit is read. -/
theorem test_extract_P4 : after (exec (.extract (fields .fft1d 2))
    (running .extract .fft1d 2
      [0xBFE0000000000000#64, 0x4000000000000000#64, 0x4012000000000000#64, 0x4010000000000000#64] zeros four 1#16))
    (fun t => t.resultWord == 0x00010003#64) = true := by decide +kernel

/-- X9, X12, X15, X16, R-2 and X20: the STATUS an acceptance leaves. -/
theorem test_failed_checks :
    [(0x40031#64, 0#16, sixteen, 0x304#64), (0x110021#64, 0#16, sixteen, 0x304#64), (0x20023#64, 4#16, sixteen, 0x404#64),
      (0x20103#64, 0#16, sixteen, 0x404#64), (0x20124#64, 0#16, 0#64, 0x504#64), (0x40033#64, 100#16, 0#64, 0x304#64)].all
      (fun (w, pos, tol, status) => after (step { State.reset with events := [cmdWrite w], pos := pos, tol := tol })
        (fun t => t.statusWord == status && t.fsm == .idle)) = true := by decide +kernel
/-- R-3: FWD right after reset is accepted, and reads UNKNOWN entries at its completion. -/
theorem test_forward_after_reset :
    after (step { State.reset with events := [cmdWrite 0x20021#64] }) (fun t => t.statusWord == 0x1#64) = true ∧
    step (running .fwd .dct2d 2 [] []) = .fault .commandReadUnknown := ⟨by decide +kernel, rfl⟩

/-! ### The bus and the resets -/

/-- M1, M2, M3, M4. -/
theorem test_bus_errors :
    [Request.read 0x1C 8, .read 0x18 4, .write 0x40 8 0#64, .read 0x8800 8].all
      (fun r => after (step { State.reset with events := [.access r] }) (fun t => t.answer == some .error)) = true := by
  decide
/-- M9. -/
theorem test_pos_write : after (step { State.reset with events := [.access (.write 0x20 8 0xFFFFFFFF00010005#64)] })
    (fun t => t.posWord == 0x5#64) = true := by decide
/-- M8: the bytes of 1.0 at 0x8000 to 0x8007. -/
theorem test_entry_bytes : after (step { State.reset with events := [.access (.write 0x8000 8 0x3FF0000000000000#64)] })
    (fun t => t.re.map Prod.snd == [0#8, 0#8, 0#8, 0#8, 0#8, 0#8, 0xF0#8, 0x3F#8]) = true := by decide
/-- R-1. -/
theorem test_cfg_reset : State.reset.cfgWord = 0x1F10#64 := by decide
/-- K6: ERR is not cleared in HALTED. -/
theorem test_halted_clrst :
    after (step { State.reset with fsm := .halted, err := true, errCode := .badAlg, events := [.access (.write 0x18 8 6#64)] })
      (fun t => t.statusWord == 0x20C#64) = true := by decide
/-- K8. -/
theorem test_soft_reset_wins : after (step { State.reset with irqEn := true, events := [.access (.write 0x10 8 3#64)] })
    (fun t => t.ctrlWord == 0#64) = true := by decide
/-- K9: the block of an aborted command is UNKNOWN, what lies behind it is kept. -/
theorem test_abort : after (step (running .fwd .dct2d 2 (samples ++ [Fp.one]) [] Fp.one 0#16 false
      [.access (.write 0x10 8 1#64)]))
    (fun t => t.statusWord == 0#64 && t.reEntry 3 == none && t.reEntry 4 == some Fp.one) = true := by decide +kernel
/-- K11: a stalled read waits for the completion. -/
theorem test_stall : after (step (running .fwd .fft1d 2 oneToFour zeros Fp.one 0#16 false [.access (.read 0x8000 8)]))
    (fun t => t.fsm == .idle && t.answer == none && t.events.length == 1) = true := by decide +kernel
/-- The program's word runs as the very next step. -/
theorem test_withFetchWord : step (State.reset.withFetchWord 64 0) =
    exec .nop { State.reset with answer := some .okayWrite } := rfl

/-! ### Witnesses: states and operands that meet the hypotheses of each obligation, clause by clause -/

/-- The reset state with one event to come. -/
def next (e : Event) : State := { State.reset with events := [e] }

/-- The same, halted by a reserved ALG. -/
def haltedNext (e : Event) : State := { next e with fsm := .halted, err := true, errCode := .badAlg }

/-- A DCT2D command of side 2 in progress on known samples. -/
def dct (op : BlockOp) (events : List Event := []) : State := running op .dct2d 2 samples [] four 0#16 true events

/-- A host's read and write of eight bytes. -/
def rd (off : Nat) : Event := .access (.read off 8)
def wr (off : Nat) (v : Word) : Event := .access (.write off 8 v)

theorem legal_size_bounds : LegalSize 16 .fft1d 2 ∧ LegalSize 16 .fft2d 16 ∧ LegalSize 16 .dct2d 2 ∧
    LegalSize 16 .dct2d 16 ∧ LegalSize 16 .fdct8 8 ∧ LegalSize 16 .fdctlee 8 :=
  ⟨⟨by decide, by decide, 1, rfl⟩, ⟨by decide, by decide, 4, rfl⟩, ⟨by decide, by decide, trivial⟩,
    ⟨by decide, by decide, trivial⟩, ⟨by decide, by decide, rfl⟩, ⟨by decide, by decide, rfl⟩⟩

theorem not_legal_size_bounds : ¬LegalSize 16 .dct2d 1 ∧ ¬LegalSize 16 .dct2d 17 ∧ ¬LegalSize 16 .fft2d 6 ∧
    ¬LegalSize 16 .fdct8 4 ∧ ¬LegalSize 16 .fft1d 0 := by
  refine ⟨fun h => ?_, fun h => ?_, fun h => ?_, fun h => ?_, fun h => ?_⟩
  · exact absurd h.1 (by decide)
  · exact absurd h.2.1 (by decide)
  · obtain ⟨k, hk⟩ := h.2.2
    have : k < 3 := by
      by_contra h3
      have := Nat.pow_le_pow_right (n := 2) (by decide) (Nat.le_of_not_lt h3)
      omega
    interval_cases k <;> omega
  · exact absurd h.2.2 (by decide)
  · exact absurd h.1 (by decide)

theorem legal_tolerance (t : F64) (h : toleranceOk t = true) : LegalTolerance t := (toleranceOk_iff t).mp h
theorem not_legal_tolerance (t : F64) (h : toleranceOk t = false) : ¬LegalTolerance t := fun hl => by
  have := (toleranceOk_iff t).mpr hl
  simp [h] at this

theorem quotient_in_range (x t : F64) (hf : Fp.finite x = true) (h : Fp.huge (Fp.fdiv x t) = false) :
    QuotientInRange x t :=
  ⟨hf, not_le.mp fun hle => by simp [(Fp.huge_iff _).mpr hle] at h⟩

/-- 1.0 is the least legal tolerance; the value below it, an infinity and a NaN are not legal. -/
theorem tolerance_bounds : LegalTolerance Fp.one ∧ ¬LegalTolerance 0x3FEFFFFFFFFFFFFF#64 ∧
    ¬LegalTolerance 0x7FF0000000000000#64 ∧ ¬LegalTolerance 0x7FF8000000000000#64 :=
  ⟨legal_tolerance _ (by decide +kernel), not_legal_tolerance _ (by decide +kernel),
    not_legal_tolerance _ (by decide +kernel), not_legal_tolerance _ (by decide +kernel)⟩

/-- Every clause of R69 at the ends of its ranges: reserved bits 9, 24, 32 and 63; OP 0, 1, 6, 7; ALG 4 and 5. -/
theorem witness_DecoderVerdict :
    (0x200#64).extractLsb' 9 7 ≠ 0#7 ∧ (0x1000000#64).extractLsb' 24 8 ≠ 0#8 ∧
    (0x100000000#64).extractLsb' 32 32 ≠ 0#32 ∧ (0x8000000000000000#64).extractLsb' 32 32 ≠ 0#32 ∧
    ((0x7#64).extractLsb' 0 4).toNat = 7 ∧ ((0x0#64).extractLsb' 0 4).toNat = 0 ∧
    (((0x51#64).extractLsb' 0 4).toNat = 1 ∧ ((0x51#64).extractLsb' 4 3).toNat = 5) ∧
    (((0x46#64).extractLsb' 0 4).toNat = 6 ∧ ((0x46#64).extractLsb' 4 3).toNat = 4) := by decide

theorem witness_EncodedWordLayout : (Instr.fwd (fields .fdctlee 255 true .static)).wellFormed = true ∧
    (Instr.fwd (fields .fdctlee 255 true .static)).fields = some (fields .fdctlee 255 true .static) := by decide

theorem witness_DecodeInvertsEncode : (Instr.extract (fields .fdctlee 255 true .static)).wellFormed = true := by decide

theorem witness_EncodeInvertsDecode : decode 0xFF01F0#64 = .cmd .nop ∧
    decode 0xFF01C6#64 = .cmd (.extract (fields .fdctlee 255 true .static)) := by decide

/-- A command of each shape the assembler takes, the SIZE at its bound. -/
theorem witness_AssemblerAccepts : assemble ⟨.embed, some .fft2d, some 4, none, some .static⟩ =
      some (.embed (fields .fft2d 4 false .static)) ∧ assemble ⟨.inv, some .fdct8, some 255, none, none⟩ =
      some (.inv (fields .fdct8 255)) ∧ assemble ⟨.nop, none, none, none, none⟩ = some .nop := by decide

theorem witness_HardwareResetValues : (dct .fwd [.hardwareReset]).events = .hardwareReset :: [] := rfl

theorem witness_ResetHasInvariant : (⟨8, .reference⟩ : Config).legal = true ∧ (⟨64, .other 0⟩ : Config).legal = true := by
  decide

theorem witness_StepRunsCommandWrite : (next (wr 0x30 0x201A3#64)).fsm = .idle ∧
    NextWrite (next (wr 0x30 0x201A3#64)) 0x30 0x201A3#64 [] ∧
    decode 0x201A3#64 = .cmd (.setbit (fields .dct2d 2 true .static)) := ⟨rfl, rfl, by decide⟩

/-- The three ways the ENGINE gets its turn. -/
theorem witness_StepCompletesCommand :
    ((dct .fwd).fsm = .busy ∧ EngineNext (dct .fwd) []) ∧
    ((dct .fwd [.tick]).fsm = .busy ∧ EngineNext (dct .fwd [.tick]) []) ∧
    ((dct .fwd [rd 0x8000]).fsm = .busy ∧ EngineNext (dct .fwd [rd 0x8000]) [rd 0x8000]) :=
  ⟨⟨rfl, .inl ⟨rfl, rfl⟩⟩, ⟨rfl, .inr (.inl rfl)⟩, ⟨rfl, .inr (.inr ⟨_, _, rfl, by decide, rfl⟩)⟩⟩

/-- A command in progress that meets the invariant, with a read that does not stall and with an ENGINE turn to come. -/
theorem dct_inv (op : BlockOp) (es : List Event) : MachineInv (dct op es) where
  cfgLegal := (by decide : Config.reference.legal = true)
  reWf := (by decide +kernel : Memory.wf (Memory.writeEntries [] reBase samples) = true)
  imWf := rfl
  reWhole := by
    have h : ∀ i < 256, (∀ k < 8, (Memory.writeEntries [] reBase samples).readByte (entryOffset reBase i + k) = none) ∨
      (∀ k < 8, (Memory.writeEntries [] reBase samples).readByte (entryOffset reBase i + k) ≠ none) := by decide +kernel
    exact h
  imWhole := fun i _ => .inl fun k _ => rfl
  reWithin := by
    have h : ∀ c ∈ Memory.writeEntries [] reBase samples, reBase ≤ c.1 ∧ c.1 < reBase + 8 * 256 := by decide +kernel
    exact h
  imWithin := fun c hc => by cases hc
  errNamed := (by decide : false = true ↔ ErrCode.none ≠ ErrCode.none)
  haltedFatal := (by decide : Fsm.busy = Fsm.halted ↔ isFatal ErrCode.none = true)
  busyFlags := fun _ => ⟨rfl, rfl⟩
  busySize := fun _ => (by decide : sizeOk 16 .dct2d 2 = true)
  busyParity := fun _ _ => ⟨rfl, (by decide +kernel : toleranceOk four = true), rfl, (by decide : (0#16).toNat < 2 * 2)⟩
  eposRange := (by decide : (0#16).toNat < 16 * 16)

theorem witness_StepKeepsInvariant : MachineInv (dct .embed [.tick]) ∧ (∃ t, step (dct .embed [.tick]) = .next t) ∧
    MachineInv (dct .fwd [rd 0x18]) ∧ ∃ t, step (dct .fwd [rd 0x18]) = .next t := by
  refine ⟨dct_inv _ _, ?_, dct_inv _ _, ⟨_, rfl⟩⟩
  obtain ⟨t, h, -⟩ := exists_of_after
    (show after (step (dct .embed [.tick])) (fun _ => true) = true by decide +kernel)
  exact ⟨t, h⟩

/-- Each change of the ENGINE state happens. -/
theorem witness_EngineTransitions :
    (∃ t, step (next (wr 0x30 0x20021#64)) = .next t ∧ t.fsm = .busy) ∧
    (∃ t, step (next (wr 0x30 0x7#64)) = .next t ∧ t.fsm = .halted) ∧
    (∃ t, step (dct .fwd [.tick]) = .next t ∧ t.fsm = .idle) ∧
    (∃ t, step (dct .fwd [wr 0x10 1#64]) = .next t ∧ t.fsm = .idle) ∧
    (∃ t, step (haltedNext .hardwareReset) = .next t ∧ t.fsm ≠ .halted) := by
  refine ⟨⟨_, rfl, rfl⟩, ⟨_, rfl, rfl⟩, ?_, ⟨_, rfl, rfl⟩, ⟨_, rfl, by decide⟩⟩
  obtain ⟨t, h, hp⟩ := exists_of_after
    (show after (step (dct .fwd [.tick])) (fun t => t.fsm == .idle) = true by decide +kernel)
  exact ⟨t, h, by simpa using hp⟩

theorem witness_ErrorIsSticky : ∃ t, step { next (wr 0x18 4#64) with err := true, errCode := .badTol } = .next t ∧
    t.err = false := ⟨_, rfl, by decide⟩

/-- A step that raises BAD_SIZE over BAD_TOL, one that completes without error, and a CTRL and a STATUS write that the
hypotheses let in. -/
theorem witness_NewestErrorWins :
    (∃ t, step { next (wr 0x30 0x40031#64) with err := true, errCode := .badTol } = .next t ∧ t.errCode = .badSize) ∧
    (∀ rest, (next (wr 0x30 0x40031#64)).events ≠ .hardwareReset :: rest) ∧
    (∀ v rest, ¬NextWrite (next (wr 0x30 0x40031#64)) 0x10 v rest) ∧
    (∀ v rest, ¬NextWrite (next (wr 0x30 0x40031#64)) 0x18 v rest) ∧
    (dct .fwd).done = false ∧ (∃ t, step (dct .fwd) = .next t ∧ t.done = true) ∧
    (∀ v rest, NextWrite (next (wr 0x10 2#64)) 0x10 v rest → v.getLsbD 0 = false) ∧
    (∀ v rest, NextWrite (next (wr 0x18 2#64)) 0x18 v rest → v.getLsbD 2 = false) := by
  refine ⟨⟨_, rfl, rfl⟩, by simp [next, wr], by simp [next, wr, NextWrite], by simp [next, wr, NextWrite], rfl,
    exists_of_after (p := State.done) (by decide +kernel), ?_, ?_⟩ <;>
  · intro v rest h
    simp only [NextWrite, next, wr, List.cons.injEq, Event.access.injEq, Request.write.injEq, true_and] at h
    rw [← h.1]
    decide

theorem witness_ConfigurationIsConstant : ∃ t, step (haltedNext .hardwareReset) = .next t := ⟨_, rfl⟩

/-- An accepted command and a fault, each outside BUSY. -/
theorem witness_LatchesUnreadOutsideBusy : (next (wr 0x30 0x20021#64)).fsm ≠ .busy ∧
    (∃ u, step { next (wr 0x30 0x20021#64) with cur := ⟨.getbit, .fdct8, true, 8, 63#16, four⟩ } = .next u ∧
      u.fsm = .busy) ∧
    step { next (rd 0x8000) with cur := ⟨.getbit, .fdct8, true, 8, 63#16, four⟩ } = .fault .hostReadUnknown :=
  ⟨by decide, ⟨_, rfl, rfl⟩, rfl⟩

theorem witness_BusyKeepsOperands : (dct .fwd [rd 0x18]).fsm = .busy ∧
    ∃ t, step (dct .fwd [rd 0x18]) = .next t ∧ t.fsm = .busy := ⟨rfl, _, rfl, rfl⟩

theorem witness_BusyEnds : (dct .fwd [rd 0x18, rd 0x18]).fsm = .busy := rfl

/-- Both reasons to stop, in states with the invariant. -/
theorem witness_StopsExactlyOnUnknown :
    (MachineInv (dct .fwd) ∧ (dct .fwd).inputsKnown = true) ∧ (next (rd 0x87F8)).readKnown (.read 0x87F8 8) = false ∧
    (running .fwd .dct2d 2 [] []).inputsKnown = false := ⟨⟨dct_inv _ _, by decide +kernel⟩, by decide, by decide⟩

theorem witness_CommandEndRaisesIrq : (dct .fwd [.tick]).fsm = .busy ∧
    ∃ t, step (dct .fwd [.tick]) = .next t ∧ t.fsm ≠ .busy := by
  obtain ⟨t, h, hp⟩ := exists_of_after
    (show after (step (dct .fwd [.tick])) (fun t => t.fsm == .idle) = true by decide +kernel)
  exact ⟨rfl, t, h, by simp at hp; simp [hp]⟩

/-- Every bit a NOP may hold, and the first reserved one above OP, ALG, BIT and POSSEL. -/
theorem witness_NopEffect : NextWrite (next (wr 0x30 0xFF01F0#64)) 0x30 0xFF01F0#64 [] ∧
    (0xFF01F0#64).extractLsb' 0 4 = 0#4 ∧ 0xFF01F0#64 &&& 0xFFFFFFFFFF00FE00#64 = 0#64 ∧
    (0x200#64).extractLsb' 0 4 = 0#4 ∧ 0x200#64 &&& 0xFFFFFFFFFF00FE00#64 ≠ 0#64 ∧
    (next (wr 0x30 0xFF01F0#64)).fsm = .idle ∧ (haltedNext (wr 0x30 0x0#64)).fsm = .halted ∧
    NextWrite (dct .fwd [wr 0x30 0x0#64]) 0x30 0x0#64 [] ∧
    ∃ t, step (dct .fwd [wr 0x30 0x0#64]) = .next t := by
  refine ⟨rfl, by decide, by decide, by decide, by decide, rfl, rfl, rfl, ?_⟩
  obtain ⟨t, h, -⟩ := exists_of_after
    (show after (step (dct .fwd [wr 0x30 0x0#64])) (fun _ => true) = true by decide +kernel)
  exact ⟨t, h⟩

theorem witness_TransformAccepted : (Instr.inv (fields .fft2d 16), BlockOp.inv) ∈ transforms (fields .fft2d 16) ∧
    State.reset.fsm = .idle ∧ State.reset.cfg.legal = true ∧ LegalSize State.reset.cfg.maxSize .fft2d 16 :=
  ⟨by decide, rfl, by decide, legal_size_bounds.2.1⟩

/-- POS = SIZE² − 1 is in the block, POS = SIZE² is not; FFT1D has no static position. -/
theorem witness_PositionCheckedAndLatched :
    (Instr.setbit (fields .dct2d 2), BlockOp.setbit) ∈ parityCommands (fields .dct2d 2) ∧
    LegalSize 16 .dct2d 2 ∧ SelectsPosition (fields .dct2d 2) 3#16 3 ∧ LegalTolerance Fp.one ∧
    SelectsPosition (fields .fdct8 8 false .static) 0#16 63 ∧
    (¬∃ p, SelectsPosition (fields .dct2d 2) 4#16 p ∧ p < 2 * 2) ∧
    (¬∃ p, SelectsPosition (fields .fft1d 2 false .static) 0#16 p ∧ p < 2 * 2) :=
  ⟨by decide, legal_size_bounds.2.2.1, rfl, tolerance_bounds.1, rfl,
    fun ⟨p, h, hp⟩ => by simp only [SelectsPosition, fields] at h; subst h; revert hp; decide, fun ⟨_, h, _⟩ => h⟩

theorem witness_ToleranceChecked :
    (Instr.extract (fields .dct2d 2), BlockOp.extract) ∈ parityCommands (fields .dct2d 2) ∧
    LegalSize 16 .dct2d 2 ∧ SelectsPosition (fields .dct2d 2) 3#16 3 ∧ 3 < 2 * 2 ∧
    LegalTolerance Fp.one ∧ ¬LegalTolerance 0x3FEFFFFFFFFFFFFF#64 :=
  ⟨by decide, legal_size_bounds.2.2.1, rfl, by decide, tolerance_bounds.1, tolerance_bounds.2.1⟩

theorem witness_SizeChecked :
    (Instr.fwd (fields .dct2d 17), BlockOp.fwd) ∈ transforms (fields .dct2d 17) ++ parityCommands (fields .dct2d 17) ∧
    ¬LegalSize 16 .dct2d 17 := ⟨by decide, not_legal_size_bounds.2.1⟩

theorem witness_FailedCheckLeavesRest :
    ∃ t, exec (.fwd (fields .dct2d 17)) State.reset = .next t ∧ t.fsm ≠ .busy := ⟨_, rfl, by decide⟩

theorem witness_FatalErrorHalts :
    (NextWrite (next (wr 0x30 0x20051#64)) 0x30 0x20051#64 [] ∧ decode 0x20051#64 = .fatal .badAlg) ∧
    NextWrite (haltedNext (wr 0x30 0x20021#64)) 0x30 0x20021#64 [] ∧
    (NextRead (haltedNext (rd 0x87F8)) (0x8000 + 8 * 255) [] ∧ 255 < State.reset.cfg.maxN) ∧
    (({ haltedNext (rd 0x8000) with re := Memory.writeEntries [] reBase samples } : State).reEntry 0 =
      some 0x4060000000000000#64) ∧
    (∃ t, step (haltedNext (wr 0x10 1#64)) = .next t ∧ t.fsm ≠ .halted) :=
  ⟨⟨rfl, by decide⟩, rfl, ⟨rfl, by decide⟩, by decide +kernel, _, rfl, by decide⟩

theorem dct_block (op : BlockOp) (es : List Event) : BlockIs (dct op es) samples [] :=
  ⟨rfl, by
    have h : ∀ i < 4, (Memory.writeEntries [] reBase samples).readEntry (entryOffset reBase i) = samples[i]? := by
      decide +kernel
    exact h, rfl⟩

theorem fft_block (op : BlockOp) : BlockIs (running op .fft2d 2 oneToFour zeros) oneToFour zeros := by
  have h : ∀ i < 4, (Memory.writeEntries [] reBase oneToFour).readEntry (entryOffset reBase i) = oneToFour[i]? := by
    decide +kernel
  have h2 : ∀ i < 4, (Memory.writeEntries [] imBase zeros).readEntry (entryOffset imBase i) = zeros[i]? := by
    decide +kernel
  exact ⟨rfl, h, rfl, h2⟩

theorem witness_ForwardCompletes : (dct .fwd).fsm = .busy ∧ (dct .fwd).cfg.legal = true ∧
    LegalSize 16 .dct2d 2 ∧ BlockIs (dct .fwd) samples [] :=
  ⟨rfl, by decide, legal_size_bounds.2.2.1, dct_block _ _⟩

theorem witness_InverseCompletes : (running .inv .fft2d 2 oneToFour zeros).fsm = .busy ∧
    LegalSize 16 .fft2d 2 ∧ BlockIs (running .inv .fft2d 2 oneToFour zeros) oneToFour zeros :=
  ⟨rfl, ⟨by decide, by decide, 1, rfl⟩, fft_block _⟩

/-- 37 with tolerance 16, as in S1; the state is DCT2D of side 2 at position 0. -/
def marked : State := running .setbit .dct2d 2 [0x4042800000000000#64] [] sixteen 0#16 true

theorem marked_known : marked.reEntry marked.cur.epos.toNat = some 0x4042800000000000#64 := by decide +kernel
theorem sixteen_legal : LegalTolerance sixteen := legal_tolerance _ (by decide +kernel)
theorem four_legal : LegalTolerance four := legal_tolerance _ (by decide +kernel)
theorem s1_in_range : QuotientInRange 0x4042800000000000#64 sixteen :=
  quotient_in_range _ _ (by decide +kernel) (by decide +kernel)

theorem floor_eq (x t : F64) : bucketOf x t = Fp.floorInt (Fp.fdiv x t) := (Fp.floorInt_eq _).symm

theorem s1_value_finite : Fp.finite (setbitValue true 0x4042800000000000#64 sixteen) = true := by
  simp only [setbitValue, floor_eq]
  decide +kernel

theorem witness_SetbitCompletes : marked.fsm = .busy ∧ LegalTolerance marked.cur.tol ∧
    marked.reEntry marked.cur.epos.toNat = some 0x4042800000000000#64 ∧
    QuotientInRange 0x4042800000000000#64 marked.cur.tol ∧
    Fp.finite (setbitValue marked.cur.bit 0x4042800000000000#64 marked.cur.tol) = true :=
  ⟨rfl, sixteen_legal, marked_known, s1_in_range, s1_value_finite⟩

/-- B17 and G13: 2^60 with tolerance 1. -/
theorem not_in_range : ¬QuotientInRange 0x43B0000000000000#64 Fp.one := fun h => by
  have h1 : Fp.huge (Fp.fdiv 0x43B0000000000000#64 Fp.one) = true := by decide +kernel
  exact absurd h.2 (not_lt.mpr ((Fp.huge_iff _).mp h1))

/-- B21: the product overflows. -/
theorem b21_value_infinite : Fp.finite (setbitValue true 0x7FEE42D130773B76#64 0x7FD55C576D815726#64) = false := by
  simp only [setbitValue, floor_eq]
  decide +kernel

theorem witness_SetbitNumeric :
    ((running .setbit .dct2d 2 [0x43B0000000000000#64] []).reEntry 0 = some 0x43B0000000000000#64 ∧
      LegalTolerance Fp.one ∧ ¬QuotientInRange 0x43B0000000000000#64 Fp.one) ∧
    ((running .setbit .dct2d 2 [0x7FEE42D130773B76#64] [] 0x7FD55C576D815726#64).reEntry 0 =
        some 0x7FEE42D130773B76#64 ∧
      LegalTolerance 0x7FD55C576D815726#64 ∧
      Fp.finite (setbitValue true 0x7FEE42D130773B76#64 0x7FD55C576D815726#64) = false) :=
  ⟨⟨by decide +kernel, tolerance_bounds.1, not_in_range⟩,
    ⟨by decide +kernel, legal_tolerance _ (by decide +kernel), b21_value_infinite⟩⟩

theorem witness_GetbitCompletes : marked.fsm = .busy ∧ LegalTolerance marked.cur.tol ∧
    marked.reEntry marked.cur.epos.toNat = some 0x4042800000000000#64 ∧
    QuotientInRange (Fp.abs 0x4042800000000000#64) marked.cur.tol :=
  ⟨rfl, sixteen_legal, marked_known, quotient_in_range _ _ (by decide +kernel) (by decide +kernel)⟩

theorem witness_GetbitNumeric :
    (running .getbit .dct2d 2 [0x43B0000000000000#64] []).reEntry 0 = some 0x43B0000000000000#64 ∧
    LegalTolerance Fp.one ∧ ¬QuotientInRange (Fp.abs 0x43B0000000000000#64) Fp.one :=
  ⟨by decide +kernel, tolerance_bounds.1, (by decide : Fp.abs 0x43B0000000000000#64 = 0x43B0000000000000#64) ▸ not_in_range⟩

/-- The carrier of P1: entry 0 of the forward transform of the samples. -/
theorem dct_carrier : (xform .reference .dct2d .forward 2 (samples, [])).1[0]? = some 0x4018000000000001#64 := by
  decide +kernel

theorem dct_carrier_in_range : QuotientInRange 0x4018000000000001#64 four :=
  quotient_in_range _ _ (by decide +kernel) (by decide +kernel)

theorem witness_EmbedCompletes : (dct .embed).fsm = .busy ∧ (dct .embed).cfg.legal = true ∧ LegalSize 16 .dct2d 2 ∧
    BlockIs (dct .embed) samples [] ∧ LegalTolerance (dct .embed).cur.tol ∧
    (dct .embed).cur.epos.toNat < (dct .embed).cur.entries ∧
    (xform .reference .dct2d .forward 2 (samples, [])).1[0]? = some 0x4018000000000001#64 ∧
    QuotientInRange 0x4018000000000001#64 four ∧ Fp.finite (setbitValue true 0x4018000000000001#64 four) = true :=
  ⟨rfl, by decide, legal_size_bounds.2.2.1, dct_block _ _, four_legal, by decide, dct_carrier, dct_carrier_in_range, by
    simp only [setbitValue, floor_eq]
    decide +kernel⟩

/-- 2^60 at (0, 0) of an FFT2D block and zeros elsewhere: every coefficient is 2^60. -/
def hugeBlock : List F64 := [0x43B0000000000000#64, 0#64, 0#64, 0#64]

theorem hugeBlock_is (op : BlockOp) : BlockIs (running op .fft2d 2 hugeBlock zeros) hugeBlock zeros := by
  have h : ∀ i < 4, (Memory.writeEntries [] reBase hugeBlock).readEntry (entryOffset reBase i) = hugeBlock[i]? := by
    decide +kernel
  have h2 : ∀ i < 4, (Memory.writeEntries [] imBase zeros).readEntry (entryOffset imBase i) = zeros[i]? := by
    decide +kernel
  exact ⟨rfl, h, rfl, h2⟩

theorem hugeBlock_carrier :
    (xform .reference .fft2d .forward 2 (hugeBlock, zeros)).1[0]? = some 0x43B0000000000000#64 := by decide +kernel

theorem witness_EmbedNumericStopsAfterForward : (running .embed .fft2d 2 hugeBlock zeros).fsm = .busy ∧
    (running .embed .fft2d 2 hugeBlock zeros).done = false ∧ LegalSize 16 .fft2d 2 ∧
    BlockIs (running .embed .fft2d 2 hugeBlock zeros) hugeBlock zeros ∧ LegalTolerance Fp.one ∧
    (xform .reference .fft2d .forward 2 (hugeBlock, zeros)).1[0]? = some 0x43B0000000000000#64 ∧
    ¬QuotientInRange 0x43B0000000000000#64 Fp.one :=
  ⟨rfl, rfl, ⟨by decide, by decide, 1, rfl⟩, hugeBlock_is _, tolerance_bounds.1, hugeBlock_carrier, not_in_range⟩

theorem witness_ExtractCompletes : (dct .extract).fsm = .busy ∧ LegalSize 16 .dct2d 2 ∧
    BlockIs (dct .extract) samples [] ∧ LegalTolerance (dct .extract).cur.tol ∧
    (dct .extract).cur.epos.toNat < (dct .extract).cur.entries ∧
    (xform .reference .dct2d .forward 2 (samples, [])).1[0]? = some 0x4018000000000001#64 ∧
    QuotientInRange (Fp.abs 0x4018000000000001#64) four :=
  ⟨rfl, legal_size_bounds.2.2.1, dct_block _ _, four_legal, by decide, dct_carrier,
    quotient_in_range _ _ (by decide +kernel) (by decide +kernel)⟩

theorem witness_ExtractNumeric : BlockIs (running .extract .fft2d 2 hugeBlock zeros) hugeBlock zeros ∧
    LegalSize 16 .fft2d 2 ∧ LegalTolerance Fp.one ∧
    (xform .reference .fft2d .forward 2 (hugeBlock, zeros)).1[0]? = some 0x43B0000000000000#64 ∧
    ¬QuotientInRange (Fp.abs 0x43B0000000000000#64) Fp.one :=
  ⟨hugeBlock_is _, ⟨by decide, by decide, 1, rfl⟩, tolerance_bounds.1, hugeBlock_carrier, witness_GetbitNumeric.2.2⟩

/-- Only the last entry of the block is UNKNOWN; and the carrier is. -/
theorem witness_UnknownEntryFaults :
    (∃ j < 4, (running .fwd .dct2d 2 (samples.take 3) []).reEntry j = none) ∧
    (∃ j < 4, (running .fwd .fft2d 2 samples (zeros.take 3)).imEntry j = none) ∧
    (running .setbit .dct2d 2 (samples.take 3) [] four 3#16).reEntry 3 = none :=
  ⟨⟨3, by decide, by decide +kernel⟩, ⟨3, by decide, by decide +kernel⟩, by decide +kernel⟩

theorem witness_ReadAfterSet : LegalTolerance marked.cur.tol ∧
    |parityTarget marked.cur.bit (bucketOf 0x4042800000000000#64 marked.cur.tol)| < 2 ^ 50 ∧
    (∃ t, exec (.setbit (fields .dct2d 2)) marked = .next t) := by
  refine ⟨sixteen_legal, by rw [floor_eq]; decide +kernel, ?_⟩
  obtain ⟨t, h, -⟩ := exists_of_after
    (show after (exec (.setbit (fields .dct2d 2)) marked) (fun _ => true) = true by decide +kernel)
  exact ⟨t, h⟩

/-- One tolerance and a coefficient for each of the four rows: buckets 3 and 2 for BIT = 1, 3 and 2 for BIT = 0. -/
theorem witness_SetbitOutcomeTable : LegalTolerance sixteen ∧ QuotientInRange 0x4048000000000000#64 sixteen ∧
    bucketOf 0x4048000000000000#64 sixteen = 3 ∧ bucketOf 0x4042800000000000#64 sixteen = 2 :=
  ⟨sixteen_legal, quotient_in_range _ _ (by decide +kernel) (by decide +kernel), by rw [floor_eq]; decide +kernel, by
    rw [floor_eq]; decide +kernel⟩

theorem witness_CompoundCommandsEqualSteps :
    (∃ t, Sys2Proof.core.run 2 { loaded samples [] [cmdWrite (encode (.embed (fields .dct2d 2 true .static))), .tick] with
        tol := four } = .next t ∧ t.done = true) ∧
    (∃ t, Sys2Proof.core.run 2 { loaded samples [] [cmdWrite (encode (.extract (fields .dct2d 2 true .static))), .tick] with
        tol := four } = .next t ∧ t.done = true) :=
  ⟨exists_of_after (p := State.done) (by decide +kernel), exists_of_after (p := State.done) (by decide +kernel)⟩

theorem witness_ImaginaryBufferUntouched :
    (Instr.embed (fields .dct2d 2), BlockOp.embed) ∈ transforms (fields .dct2d 2) ++ parityCommands (fields .dct2d 2) ∧
    (dct .embed).cur.alg.usesIm = false ∧ (∃ t, exec (.embed (fields .dct2d 2)) (dct .embed) = .next t) ∧
    exec (.fwd (fields .dct2d 2)) (running .fwd .dct2d 2 [] []) = .fault .commandReadUnknown := by
  refine ⟨by decide, rfl, ?_, rfl⟩
  obtain ⟨t, h, -⟩ := exists_of_after
    (show after (exec (.embed (fields .dct2d 2)) (dct .embed)) (fun _ => true) = true by decide +kernel)
  exact ⟨t, h⟩

/-- Buffers that differ behind the block. -/
theorem witness_OnlyTheBlockMatters :
    AgreeOn (dct .fwd).re (Memory.writeEntries [] reBase (samples ++ [Fp.one])) reBase 4 ∧
    AgreeOn (dct .fwd).im (Memory.writeEntries [] (imBase + 32) [Fp.one]) imBase 4 ∧
    LegalSize 16 .dct2d 2 ∧ (∃ t, exec (.fwd (fields .dct2d 2)) (dct .fwd) = .next t) := by
  refine ⟨fun a h1 h2 => ?_, fun a h1 h2 => ?_, legal_size_bounds.2.2.1, ?_⟩
  · obtain ⟨k, rfl⟩ := Nat.exists_eq_add_of_le h1
    have h : ∀ k < 32, (dct .fwd).re.readByte (reBase + k) =
      (Memory.writeEntries [] reBase (samples ++ [Fp.one])).readByte (reBase + k) := by decide +kernel
    exact h k (by omega)
  · obtain ⟨k, rfl⟩ := Nat.exists_eq_add_of_le h1
    have h : ∀ k < 32, (dct .fwd).im.readByte (imBase + k) =
      (Memory.writeEntries [] (imBase + 32) [Fp.one]).readByte (imBase + k) := by decide +kernel
    exact h k (by omega)
  · obtain ⟨t, h, -⟩ := exists_of_after
      (show after (exec (.fwd (fields .dct2d 2)) (dct .fwd)) (fun _ => true) = true by decide +kernel)
    exact ⟨t, h⟩

/-- The last mapped and the first unmapped offset of each window, a misaligned one, and a size of 4. -/
theorem witness_BusErrors : Proper 256 0x38 8 ∧ ¬Proper 256 0x40 8 ∧ Proper 256 0x8000 8 ∧ Proper 256 0x87F8 8 ∧
    ¬Proper 256 0x8800 8 ∧ Proper 256 0x107F8 8 ∧ ¬Proper 256 0x10800 8 ∧ ¬Proper 256 0x1C 8 ∧ ¬Proper 256 0x18 4 ∧
    (next (rd 0x8800)).events = .access (.read 0x8800 8) :: [] ∧ ∃ t, step (next (rd 0x38)) = .next t := by
  refine ⟨?_, ?_, ?_, ?_, ?_, ?_, ?_, ?_, ?_, rfl, ⟨_, rfl⟩⟩ <;> unfold Proper Mapped <;> decide

theorem witness_StallRule : (dct .fwd [rd 0x8000]).fsm = .busy ∧ Stalling 256 0x8000 ∧ Stalling 256 0x20 ∧
    Stalling 256 0x107F8 ∧ Mapped 256 0x38 ∧ ¬Stalling 256 0x38 ∧ ¬Stalling 256 0x18 ∧
    ∃ t, step (dct .fwd [rd 0x8000]) = .next t := by
  refine ⟨rfl, ⟨by unfold Mapped; decide, by decide⟩, ⟨by unfold Mapped; decide, by decide⟩,
    ⟨by unfold Mapped; decide, by decide⟩, by unfold Mapped; decide, fun h => absurd h.2 (by decide),
    fun h => absurd h.2 (by decide), ?_⟩
  obtain ⟨t, h, -⟩ := exists_of_after
    (show after (step (dct .fwd [rd 0x8000])) (fun _ => true) = true by decide +kernel)
  exact ⟨t, h⟩

theorem witness_IdentificationReads : NextRead (next (rd 0x00)) 0x00 [] ∧ NextRead (next (rd 0x08)) 0x08 [] ∧
    NextWrite (next (wr 0x38 1#64)) 0x38 1#64 [] := ⟨rfl, rfl, rfl⟩

theorem witness_StatusReads : NextRead (dct .fwd [rd 0x10]) 0x10 [] ∧ NextRead (dct .fwd [rd 0x18]) 0x18 [] ∧
    NextRead (dct .fwd [rd 0x38]) 0x38 [] := ⟨rfl, rfl, rfl⟩

theorem witness_OperandRegisters : (next (wr 0x20 0x1FFFF#64)).fsm ≠ .busy ∧ State.reset.cfg.legal = true ∧
    NextWrite (next (wr 0x20 0x1FFFF#64)) 0x20 0x1FFFF#64 [] ∧ NextRead (next (rd 0x20)) 0x20 [] ∧
    NextWrite (haltedNext (wr 0x28 1#64)) 0x28 1#64 [] ∧ NextRead (next (rd 0x28)) 0x28 [] ∧
    NextRead (next (rd 0x30)) 0x30 [] := ⟨by decide, by decide, rfl, rfl, rfl, rfl, rfl⟩

theorem witness_EntryWrites : (next (wr 0x87F8 1#64)).fsm ≠ .busy ∧ 255 < State.reset.cfg.maxN ∧
    NextWrite (next (wr 0x87F8 1#64)) (0x8000 + 8 * 255) 1#64 [] ∧
    NextWrite (next (wr 0x10000 1#64)) (0x10000 + 8 * 0) 1#64 [] := ⟨by decide, by decide, rfl, rfl⟩

theorem witness_EntryReads : (next (rd 0x87F8)).fsm ≠ .busy ∧ NextRead (next (rd 0x87F8)) (0x8000 + 8 * 255) [] ∧
    NextRead (next (rd 0x10000)) (0x10000 + 8 * 0) [] ∧
    (loaded samples zeros).reEntry 0 = some 0x4060000000000000#64 ∧ (loaded samples zeros).imEntry 3 = some 0#64 :=
  ⟨by decide, rfl, rfl, by decide +kernel, by decide +kernel⟩

theorem witness_StatusWriteOneToClear : NextWrite (haltedNext (wr 0x18 6#64)) 0x18 6#64 [] ∧
    NextWrite (dct .fwd [wr 0x18 2#64]) 0x18 2#64 [] := ⟨rfl, rfl⟩

theorem witness_InterruptEnableWrite : NextWrite (dct .fwd [wr 0x10 2#64]) 0x10 2#64 [] ∧ (2#64).getLsbD 0 = false :=
  ⟨rfl, by decide⟩

theorem witness_SoftReset : NextWrite (dct .fwd [wr 0x10 3#64]) 0x10 3#64 [] ∧ (3#64).getLsbD 0 = true ∧
    NextWrite (haltedNext (wr 0x10 1#64)) 0x10 1#64 [] := ⟨rfl, by decide, rfl⟩

/-- Both clauses, at the overflow threshold: 2^1024 rounds to an infinity, 1/3 to a finite value. -/
theorem witness_RoundsToNearestEven : 0 < 3 ∧ |((1 : Int) : ℚ) / (3 : Nat)| < 2 ^ 1024 - 2 ^ 970 ∧
    (2 ^ 1024 - 2 ^ 970 : ℚ) ≤ |((2 ^ 1024 - 2 ^ 970 : Int) : ℚ) / (1 : Nat)| := by
  have h : (1 : ℚ) < 2 ^ 1024 - 2 ^ 970 := by
    have h1 : (2 : ℚ) ^ 1024 = 2 ^ 970 * 2 ^ 54 := by rw [← pow_add]
    have h2 : (1 : ℚ) ≤ 2 ^ 970 := one_le_pow₀ (by norm_num)
    rw [h1]
    generalize (2 : ℚ) ^ 970 = u at h2
    norm_num
    linarith
  refine ⟨by decide, ?_, ?_⟩
  · refine lt_trans ?_ h
    norm_num [abs_of_pos]
  · push_cast
    rw [div_one]
    exact le_abs_self _

theorem witness_OperationsRoundOnce : Fp.finite Fp.one = true ∧ Fp.finite 0x8000000000000001#64 = true ∧
    Fp.scaled Fp.one + Fp.scaled 0x8000000000000001#64 ≠ 0 ∧ Fp.scaled 0x8000000000000001#64 ≠ 0 := by
  decide +kernel

/-- Both ends of the lengths, indices and sizes. -/
theorem witness_ReferenceConstants : (((2 = 2 ∨ 2 = 4) ∧ 1 < 2) ∧ ((4 = 2 ∨ 4 = 4) ∧ 3 < 4)) ∧ (0 < 8 ∧ 7 < 8) ∧
    (0 < 1 ∧ 1 ≤ 4096 ∧ 0 < 1) ∧ (0 < 4096 ∧ 4096 ≤ 4096 ∧ 4095 < 4096) ∧ (2 ≤ 2 ∧ 2 ≤ 64 ∧ 1 < 2) ∧
    (2 ≤ 64 ∧ 64 ≤ 64 ∧ 63 < 64) := by decide

theorem value_of_int (x : F64) (n : Int) (h : Fp.scaled x = n * (Fp.unit : Int)) : Exact.value x = n := by
  rw [Exact.value, h]
  push_cast
  exact mul_div_cancel_right₀ _ Fp.unit_pos.ne'

theorem witness_SmallTransformsExact : oneToFour.length = 2 * 2 ∧ zeros.length = 2 * 2 ∧
    ∀ v ∈ oneToFour ++ zeros, Fp.finite v = true ∧ ∃ n : Int, Exact.value v = n ∧ |n| ≤ 2 ^ 40 := by
  have h : (oneToFour ++ zeros).all (fun v => Fp.finite v &&
      ([0, 1, 2, 3, 4] : List Int).any fun n => Fp.scaled v == n * (Fp.unit : Int)) = true := by decide +kernel
  refine ⟨rfl, rfl, fun v hv => ?_⟩
  have hv := List.all_eq_true.mp h v hv
  simp only [Bool.and_eq_true, List.any_eq_true, beq_iff_eq] at hv
  obtain ⟨hf, n, hn, hs⟩ := hv
  refine ⟨hf, ?_⟩
  refine ⟨n, value_of_int v n hs, ?_⟩
  simp only [List.mem_cons, List.not_mem_nil, or_false] at hn
  rw [abs_le]
  omega

/-- The last entry of a block of side 8, the one size at which every clause applies. -/
theorem witness_ReferenceEntries : ones64.length = 8 * 8 ∧ 63 < 8 * 8 ∧ Alg.usesIm .fdctlee = false := by decide

theorem witness_ExactRoundTrip : LegalSize 64 .dct2d 3 ∧ LegalSize 64 .fft1d 64 ∧ LegalSize 64 .fdctlee 8 ∧ 63 < 8 * 8 :=
  ⟨⟨by decide, by decide, trivial⟩, ⟨by decide, by decide, 6, rfl⟩, ⟨by decide, by decide, rfl⟩, by decide⟩

theorem witness_CarrierChangesSamples : 2 ≤ 8 ∧ 63 < 8 * 8 := by decide

end Sys2Proof.Tests
end

section
/-! PROOFS. The state after reset meets the invariant, and no step changes the configuration (R7, R28, R153). -/

namespace Sys2Proof.Machine

/-! ### The state after reset -/

theorem Memory.wholeEntries_nil (base n : Nat) : Memory.wholeEntries [] base n := fun _ _ => .inl fun _ _ => rfl

theorem Memory.within_nil (base n : Nat) : Memory.within [] base n := fun _ hc => absurd hc List.not_mem_nil

/-- The buffers are empty, the engine is IDLE and no error is named, whatever the configuration. -/
theorem machineInv_resetOf {c : Config} (hc : c.legal = true) : MachineInv (State.resetOf c) where
  cfgLegal := hc
  reWf := rfl
  imWf := rfl
  reWhole := Memory.wholeEntries_nil _ _
  imWhole := Memory.wholeEntries_nil _ _
  reWithin := Memory.within_nil _ _
  imWithin := Memory.within_nil _ _
  errNamed := by simp [State.resetOf]
  haltedFatal := by simp [State.resetOf, isFatal]
  busyFlags := fun hb => nomatch hb
  busySize := fun hb => nomatch hb
  busyParity := fun hb => nomatch hb
  eposRange := lt_of_lt_of_le (by decide : (0#16).toNat < 64) (Config.maxN_le hc).1

/-- Settles O8: after reset every clause of the invariant holds at once but the range of RESULT.EPOS, which a legal
MAX_SIZE gives. -/
theorem resetHasInvariant : Obligations.ResetHasInvariant := fun _ hc => machineInv_resetOf hc

/-! ### The configuration -/

/-- Acceptance keeps the configuration, whether it fails or latches (R133). -/
@[simp] theorem State.acceptBlock_cfg (s : State) (op : BlockOp) (f : CmdFields) : (s.acceptBlock op f).cfg = s.cfg := by
  rcases s.acceptBlock_cases op f with ⟨-, e⟩ | ⟨-, -, e⟩ | ⟨-, -, ⟨-, e⟩ | ⟨p, -, ⟨-, e⟩ | ⟨-, e⟩⟩⟩ <;> simp [e]

@[simp] theorem State.writeCtrl_cfg (s : State) (v : Word) : (s.writeCtrl v).cfg = s.cfg := by
  unfold State.writeCtrl
  split_ifs
  · exact s.softReset_cfg
  · rfl

theorem CmdEffect.cfg_eq {w : Word} {b t : State} (h : CmdEffect w b t) : t.cfg = b.cfg := by
  cases h with
  | ignored _ e => rw [e]
  | fatal _ c _ e => simp [e]
  | nop _ _ e => simp [e]
  | block _ i op f _ _ e => simp [e]

theorem AccessEffect.cfg_eq {s t : State} {rest : List Event} (h : AccessEffect s t rest) : t.cfg = s.cfg := by
  have served (a : Answer) : (s.served rest a).cfg = s.cfg := rfl
  cases h with
  | answered a e => rw [e, served]
  | ctrl v _ e => rw [e, State.writeCtrl_cfg, served]
  | status v _ e => rw [e, State.statusW1C_cfg, served]
  | pos v _ _ e => rw [e, served]
  | tol v _ _ e => rw [e, served]
  | cmd v _ _ e => rw [e.cfg_eq, served]
  | re i v _ _ _ e => rw [e, State.setRe_cfg, served]
  | im i v _ _ _ e => rw [e, State.setIm_cfg, served]

/-- The ENGINE's turn keeps the configuration, the completion of a command included (R164). -/
theorem engineTurn_cfg {s t : State} {es : List Event}
    (h : engineTurn { s with events := es, answer := none } = .next t) : t.cfg = s.cfg := by
  rcases engineTurn_effect h with ⟨-, e⟩ | ⟨-, e | e⟩ <;> rw [e]

/-- Settles O15: a reset, a turn of the ENGINE and a served access each keep the configuration. -/
theorem configurationIsConstant : Obligations.ConfigurationIsConstant := by
  intro s t h
  rcases step_cases h with ⟨rest, -, e⟩ | ⟨es, -, hturn⟩ | ⟨r, rest, he, hst, hserve⟩
  · rw [e, State.hardwareReset_cfg]
  · exact engineTurn_cfg hturn
  · exact (serve_effect he hst hserve).cfg_eq

end Sys2Proof.Machine
end

section
/-! PROOFS. `fl` rounds to the nearest binary64, ties to even (R14): the two parts of a rounded magnitude, its nearest
multiple of the unit in the last place, and where it overflows. -/

namespace Sys2Proof.Machine.Fp

/-! ### Rounding a quotient to an integer -/

/-- The rounded quotient is `n / d` or the integer after it. -/
theorem roundDiv_bounds (n d : Nat) : n / d ≤ roundDiv n d ∧ roundDiv n d ≤ n / d + 1 := by
  unfold roundDiv
  dsimp only
  split_ifs <;> omega

/-- At a midpoint the even neighbour is taken. -/
theorem roundDiv_even_of_tie {n d : Nat} (hd : 0 < d)
    (h : 2 * n = (2 * roundDiv n d + 1) * d ∨ 2 * n + d = 2 * roundDiv n d * d) : roundDiv n d % 2 = 0 := by
  have hn := Nat.div_add_mod n d
  have hr := Nat.mod_lt n hd
  unfold roundDiv at h ⊢
  dsimp only at h ⊢
  generalize n / d = q at *
  generalize n % d = r at *
  subst hn
  split_ifs at h ⊢
  all_goals
    have htie : 2 * r = d := by rcases h with h | h <;> nlinarith
    omega

/-- No integer is nearer to `n / d`, and of two that are as near the even one is taken. -/
theorem roundDiv_nearest (n d : Nat) (hd : 0 < d) (k : Int) :
    |(roundDiv n d : Int) * d - n| ≤ |k * d - n| ∧
      (|(roundDiv n d : Int) * d - n| = |k * d - n| → k ≠ roundDiv n d → roundDiv n d % 2 = 0) := by
  have heven := roundDiv_even_of_tie (n := n) hd
  obtain ⟨hlo, hhi⟩ := roundDiv_close n d hd
  generalize roundDiv n d = m at *
  zify at hlo hhi hd heven
  have hhalf : 2 * |(m : Int) * d - n| ≤ d := by
    rw [← abs_two, ← abs_mul, abs_le]; constructor <;> linarith
  by_cases hk : k = m
  · exact ⟨by rw [hk], fun _ hne => absurd hk hne⟩
  · have hstep : (d : Int) ≤ |k * d - m * d| := by
      rw [← sub_mul, abs_mul, abs_of_pos hd]
      exact le_mul_of_one_le_left hd.le (Int.one_le_abs (sub_ne_zero.mpr hk))
    have htri : |k * d - m * d| ≤ |k * d - n| + |(m : Int) * d - n| := by
      simpa [abs_sub_comm (n : Int)] using abs_sub_le (k * d) (n : Int) (m * d)
    refine ⟨by linarith, fun heq _ => ?_⟩
    have htie : 2 * |(m : Int) * d - n| = d := by linarith
    zify
    apply heven
    rcases abs_cases ((m : Int) * d - n) with ⟨h, -⟩ | ⟨h, -⟩ <;> rw [h] at htie
    · exact .inr (by linarith)
    · exact .inl (by linarith)

/-- An even integer is reached from the midpoint below it on, the midpoint included. -/
theorem le_roundDiv_iff {n d k : Nat} (hd : 0 < d) (hk : k % 2 = 0) :
    k ≤ roundDiv n d ↔ 2 * k * d ≤ 2 * n + d := by
  obtain ⟨hlo, hhi⟩ := roundDiv_close n d hd
  constructor
  · intro h
    exact (Nat.mul_le_mul_right d (by omega)).trans hhi
  · refine fun h => not_lt.mp fun hlt => ?_
    have hsucc : k = roundDiv n d + 1 := by
      have : 2 * k * d ≤ (2 * roundDiv n d + 2) * d := by linarith
      have := Nat.le_of_mul_le_mul_right this hd
      omega
    have heven := roundDiv_even_of_tie hd (.inl (hlo.antisymm (by rw [hsucc] at h; linarith)))
    omega

/-- Rounding a fraction does not depend on how it is written. -/
theorem roundDiv_mul_right {c : Nat} (hc : 0 < c) (n d : Nat) : roundDiv (n * c) (d * c) = roundDiv n d := by
  unfold roundDiv
  dsimp only
  rw [Nat.mul_div_mul_right _ _ hc, Nat.mul_mod_mul_right, ← mul_assoc]
  simp [Nat.mul_lt_mul_right hc, Nat.mul_left_inj hc.ne']

theorem roundMag_mul_right {c : Nat} (hc : 0 < c) (n d : Nat) : roundMag (n * c) (d * c) = roundMag n d := by
  unfold roundMag
  dsimp only
  rw [Nat.mul_div_mul_right _ _ hc, Nat.mul_right_comm, roundDiv_mul_right hc]

/-! ### The two parts of a rounded magnitude -/

/-- The exponent `roundMag` works with: the unit in the last place of `n / d` is `2 ^ ulpExp n d`. -/
def ulpExp (n d : Nat) : Nat := (n / d).log2 - 52

/-- The significand of `n / d`: its multiple of the unit in the last place, rounded. -/
def significand (n d : Nat) : Nat := roundDiv n (d * 2 ^ ulpExp n d)

theorem roundMag_eq (n d : Nat) : roundMag n d = min (ulpExp n d * 2 ^ 52 + significand n d) infPattern := rfl

/-- Before rounding, the significand has at most 53 bits. -/
theorem div_ulp_lt (n d : Nat) : n / (d * 2 ^ ulpExp n d) < 2 ^ 53 := by
  rw [← Nat.div_div_eq_div_mul, Nat.div_lt_iff_lt_mul (Nat.two_pow_pos _), ← pow_add]
  exact Nat.lt_log2_self.trans_le (Nat.pow_le_pow_right (by decide) (by unfold ulpExp; omega))

/-- Before rounding, the significand has 53 bits unless the value is subnormal. -/
theorem le_div_ulp {n d : Nat} (h : ulpExp n d ≠ 0) : 2 ^ 52 ≤ n / (d * 2 ^ ulpExp n d) := by
  have hlog : ulpExp n d + 52 ≤ (n / d).log2 := by unfold ulpExp at h ⊢; omega
  have hq : n / d ≠ 0 := fun h0 => h (by simp [ulpExp, h0])
  rw [← Nat.div_div_eq_div_mul, Nat.le_div_iff_mul_le (Nat.two_pow_pos _), ← pow_add]
  exact (Nat.pow_le_pow_right (by decide) (by omega)).trans (Nat.log2_self_le hq)

theorem significand_le (n d : Nat) : significand n d ≤ 2 ^ 53 :=
  (roundDiv_bounds _ _).2.trans (div_ulp_lt n d)

theorem le_significand {n d : Nat} (h : ulpExp n d ≠ 0) : 2 ^ 52 ≤ significand n d :=
  (le_div_ulp h).trans (roundDiv_bounds _ _).1

/-! ### Signs -/

/-- The factor a sign bit stands for. -/
def signFactor (neg : Bool) : Int := if neg then -1 else 1

@[simp] theorem signFactor_mul_self_mul (neg : Bool) (k : Int) : signFactor neg * (signFactor neg * k) = k := by
  cases neg <;> simp [signFactor]

@[simp] theorem abs_signFactor_mul (neg : Bool) (k : Int) : |signFactor neg * k| = |k| := by
  cases neg <;> simp [signFactor]

theorem scaled_eq (x : F64) : scaled x = signFactor (sign x) * mag x := by
  unfold scaled signFactor
  split_ifs <;> simp

theorem natAbs_scaled (x : F64) : (scaled x).natAbs = mag x := by
  unfold scaled
  split_ifs <;> simp

theorem mag_ne_zero {x : F64} (h : scaled x ≠ 0) : mag x ≠ 0 := by
  rwa [← natAbs_scaled, Int.natAbs_ne_zero]

/-! ### Overflow -/

/-- The least magnitude that rounds to an infinity, 2^1024 − 2^970, in units of 2^-1074. -/
def overflowMag : Nat := (2 ^ 54 - 1) * 2 ^ 2044

theorem cast_overflowMag : (overflowMag : ℚ) = (2 ^ 1024 - 2 ^ 970) * unit := by
  have h1 : (2 : ℚ) ^ 1024 = 2 ^ 54 * 2 ^ 970 := by rw [← pow_add]
  have h2 : (2 : ℚ) ^ 2044 = 2 ^ 970 * 2 ^ 1074 := by rw [← pow_add]
  rw [overflowMag, unit, h1]
  push_cast
  rw [h2]
  generalize (2 : ℚ) ^ 970 = u, (2 : ℚ) ^ 1074 = v
  ring

/-- With `2 * w` as the unit in the last place, the significand carries to `2 ^ 53` from half a unit below it on. -/
theorem significand_carry_iff {n d w : Nat} (hd : 0 < d) (hw : 0 < w) :
    2 ^ 53 ≤ roundDiv n (d * (w * 2)) ↔ (2 ^ 54 - 1) * w * d ≤ n := by
  have hulp : d * (w * 2) = 2 * (w * d) := by ring
  rw [hulp, le_roundDiv_iff (by positivity) (by decide), mul_assoc _ w]
  omega

/-- A pattern reaches that of an infinity exactly from the overflow threshold on. -/
theorem infPattern_le_iff {n d : Nat} (hd : 0 < d) :
    infPattern ≤ ulpExp n d * 2 ^ 52 + significand n d ↔ overflowMag * d ≤ n := by
  have hulp : 0 < d * 2 ^ ulpExp n d := Nat.mul_pos hd (Nat.two_pow_pos _)
  have hsig := significand_le n d
  unfold infPattern overflowMag
  rcases lt_trichotomy (ulpExp n d) 2045 with he | he | he
  · have hn : n < 2 ^ 53 * (d * 2 ^ ulpExp n d) := (Nat.div_lt_iff_lt_mul hulp).mp (div_ulp_lt n d)
    have hpow : 2 ^ ulpExp n d ≤ 2 ^ 2044 := Nat.pow_le_pow_right (by decide) (by omega)
    generalize (2 : Nat) ^ 2044 = w at *
    refine iff_of_false (by omega) (not_le.mpr (hn.trans_le ?_))
    calc 2 ^ 53 * (d * 2 ^ ulpExp n d) ≤ (2 ^ 54 - 1) * (d * w) := Nat.mul_le_mul (by decide) (by gcongr)
      _ = (2 ^ 54 - 1) * w * d := by ring
  · have hpow : 2 ^ 2044 * 2 = 2 ^ ulpExp n d := by rw [he, pow_succ 2 2044]
    rw [← significand_carry_iff hd (Nat.two_pow_pos 2044), hpow]
    change _ ↔ _ ≤ significand n d
    omega
  · have hle : 2 ^ 52 ≤ significand n d := le_significand (by omega)
    have hn : 2 ^ 52 * (d * 2 ^ ulpExp n d) ≤ n := (Nat.le_div_iff_mul_le hulp).mp (le_div_ulp (by omega))
    have hpow : 2 ^ 2044 * 4 ≤ 2 ^ ulpExp n d := by
      rw [show 4 = 2 ^ 2 from rfl, ← pow_add]
      exact Nat.pow_le_pow_right (by decide) he
    generalize (2 : Nat) ^ 2044 = w at *
    refine iff_of_true (by omega) (le_trans ?_ hn)
    calc (2 ^ 54 - 1) * w * d ≤ 2 ^ 54 * w * d := by gcongr; decide
      _ = 2 ^ 52 * (d * (w * 4)) := by ring
      _ ≤ 2 ^ 52 * (d * 2 ^ ulpExp n d) := by gcongr

theorem roundMag_of_overflow {n d : Nat} (hd : 0 < d) (h : overflowMag * d ≤ n) : roundMag n d = infPattern :=
  min_eq_right ((infPattern_le_iff hd).mpr h)

/-- Below the threshold the result is finite, its magnitude is the significand times the unit in the last place, and its
fraction has the significand's parity. -/
theorem pack_roundMag_of_lt (neg : Bool) {n d : Nat} (hd : 0 < d) (h : n < overflowMag * d) :
    finite (pack neg (roundMag n d)) = true ∧
      scaled (pack neg (roundMag n d)) = signFactor neg * (significand n d * 2 ^ ulpExp n d) ∧
      fraction (pack neg (roundMag n d)) % 2 = significand n d % 2 := by
  have hinf : ulpExp n d * 2 ^ 52 + significand n d < infPattern :=
    not_le.mp fun hle => absurd ((infPattern_le_iff hd).mp hle) (not_le.mpr h)
  have he : ulpExp n d < 2046 ∧ ulpExp n d * 2 ^ 52 + significand n d < 2 ^ 63 := by
    unfold infPattern at hinf
    have hsig := le_significand (n := n) (d := d)
    omega
  obtain ⟨hfin, hmag⟩ := mag_pack neg _ _ he.1 (significand_le n d) (or_iff_not_imp_left.mpr le_significand) hinf
  obtain ⟨hsign, -, hfrac⟩ := pack_fields neg _ he.2
  rw [roundMag_eq, min_eq_left hinf.le]
  refine ⟨hfin, ?_, by rw [hfrac]; omega⟩
  rw [scaled_eq, hsign, hmag]
  push_cast
  rfl

/-! ### The nearest binary64 -/

/-- A finite magnitude is a multiple of `2 ^ e`, or too small to have 53 bits above it. -/
theorem dvd_mag_or_lt (z : F64) (e : Nat) : 2 ^ e ∣ mag z ∨ mag z < 2 ^ 52 * 2 ^ e := by
  have hfrac : fraction z < 2 ^ 52 := bits_lt z 0 52
  unfold mag
  split_ifs with h0
  · exact .inr (hfrac.trans_le (Nat.le_mul_of_pos_right _ (Nat.two_pow_pos e)))
  · rcases Nat.lt_or_ge (expField z - 1) e with hlt | hge
    · refine .inr ?_
      calc (2 ^ 52 + fraction z) * 2 ^ (expField z - 1) < 2 ^ 53 * 2 ^ (expField z - 1) :=
            Nat.mul_lt_mul_of_pos_right (by omega) (Nat.two_pow_pos _)
        _ = 2 ^ 52 * 2 ^ (expField z - 1 + 1) := by ring
        _ ≤ 2 ^ 52 * 2 ^ e := Nat.mul_le_mul_left _ (Nat.pow_le_pow_right (by decide) hlt)
    · exact .inl ((pow_dvd_pow 2 hge).mul_left _)

theorem dvd_signFactor_mul_scaled_or_lt (neg : Bool) (z : F64) (e : Nat) :
    (2 ^ e : Int) ∣ signFactor neg * scaled z ∨ |signFactor neg * scaled z| < 2 ^ 52 * 2 ^ e := by
  rw [← dvd_abs, abs_signFactor_mul, Int.abs_eq_natAbs, natAbs_scaled]
  exact_mod_cast dvd_mag_or_lt z e

/-- The rounded magnitude is nearest to `n / d` among the multiples `Z` of the unit in the last place and among the
values below all of 53 bits, and in a tie its significand is even. -/
theorem significand_nearest {n d : Nat} (hd : 0 < d) (Z : Int)
    (hZ : (2 ^ ulpExp n d : Int) ∣ Z ∨ |Z| < 2 ^ 52 * 2 ^ ulpExp n d) :
    |(significand n d * 2 ^ ulpExp n d : Int) * d - n| ≤ |Z * d - n| ∧
      (|(significand n d * 2 ^ ulpExp n d : Int) * d - n| = |Z * d - n| → Z ≠ significand n d * 2 ^ ulpExp n d →
        significand n d % 2 = 0) := by
  have hulp : 0 < d * 2 ^ ulpExp n d := Nat.mul_pos hd (Nat.two_pow_pos _)
  have hnear (k : Int) := roundDiv_nearest n (d * 2 ^ ulpExp n d) hulp k
  have hassoc (k : Int) : k * ((d * 2 ^ ulpExp n d : Nat) : Int) = k * 2 ^ ulpExp n d * d := by push_cast; ring
  simp only [hassoc] at hnear
  unfold significand
  by_cases hdvd : (2 ^ ulpExp n d : Int) ∣ Z
  · obtain ⟨k, rfl⟩ := hdvd
    rw [mul_comm (2 ^ ulpExp n d : Int) k]
    exact ⟨(hnear k).1, fun heq hne => (hnear k).2 heq fun hk => hne (by rw [hk])⟩
  · have hsmall := hZ.resolve_left hdvd
    have he : ulpExp n d ≠ 0 := fun he => hdvd (by simp [he])
    have hgap : |(significand n d * 2 ^ ulpExp n d : Int) * d - n| < |Z * d - n| := by
      have hbase : (2 ^ 52 * 2 ^ ulpExp n d : Int) * d ≤ n := by
        have := (Nat.le_div_iff_mul_le hulp).mp (le_div_ulp he)
        zify at this
        linarith
      have hbelow : Z * d < 2 ^ 52 * 2 ^ ulpExp n d * d :=
        mul_lt_mul_of_pos_right (lt_of_abs_lt hsmall) (by exact_mod_cast hd)
      refine (hnear (2 ^ 52)).1.trans_lt ?_
      rw [abs_of_nonpos (by linarith), abs_of_neg (by linarith)]
      linarith
    exact ⟨hgap.le, fun heq => absurd heq hgap.ne⟩

/-- The distance of a value from a fraction, over a common denominator and with the fraction's sign taken out. -/
theorem abs_value_sub (z : F64) (n : Int) {d : Nat} (hd : 0 < d) :
    |Exact.value z - n / d| =
      ((|signFactor (decide (n < 0)) * scaled z * d - (n.natAbs * unit : Nat)| : Int) : ℚ) / (unit * d) := by
  have hd' : (0 : ℚ) < d := by exact_mod_cast hd
  have hu := unit_pos
  have hn : signFactor (decide (n < 0)) * n = n.natAbs := by
    rw [signFactor]
    simp only [decide_eq_true_eq]
    split_ifs <;> omega
  have hsign : |signFactor (decide (n < 0)) * scaled z * d - (n.natAbs * unit : Nat)| = |scaled z * d - n * unit| := by
    rw [Nat.cast_mul, ← hn, mul_assoc, mul_assoc, ← mul_sub, abs_signFactor_mul]
  rw [hsign, Exact.value]
  push_cast
  generalize (unit : ℚ) = u at *
  rw [div_sub_div _ _ hu.ne' hd'.ne', abs_div, abs_of_pos (mul_pos hu hd'), mul_comm u (n : ℚ)]

/-- The magnitude reaches the threshold exactly where the fraction does. -/
theorem overflow_iff (n : Int) {d : Nat} (hd : 0 < d) :
    (2 : ℚ) ^ 1024 - 2 ^ 970 ≤ |(n : ℚ) / d| ↔ overflowMag * d ≤ n.natAbs * unit := by
  have hd' : (0 : ℚ) < d := by exact_mod_cast hd
  rw [← Nat.cast_le (α := ℚ), Nat.cast_mul, Nat.cast_mul, cast_overflowMag, abs_div, abs_of_pos hd', le_div_iff₀ hd',
    Nat.cast_natAbs, Int.cast_abs]
  have hu := unit_pos
  generalize (2 : ℚ) ^ 1024 - 2 ^ 970 = t, (unit : ℚ) = u at *
  rw [mul_right_comm, mul_le_mul_iff_left₀ hu]

/-- Settles O54: below the threshold the significand of `r` is nearest to it among all finite values, whichever side of zero
they lie on, and even in a tie; from the threshold on the pattern is that of an infinity. -/
theorem roundsToNearestEven : Obligations.RoundsToNearestEven := by
  intro n d hd
  refine ⟨fun hlt => ?_, fun hge => ?_⟩
  · have hmag : n.natAbs * unit < overflowMag * d := not_le.mp (mt (overflow_iff n hd).mpr hlt.not_ge)
    obtain ⟨hfin, hscaled, hfrac⟩ := pack_roundMag_of_lt (decide (n < 0)) hd hmag
    refine ⟨hfin, fun z _ => ?_⟩
    obtain ⟨hle, htie⟩ := significand_nearest hd (signFactor (decide (n < 0)) * scaled z)
      (dvd_signFactor_mul_scaled_or_lt _ z _)
    have hden : (0 : ℚ) < unit * d := mul_pos unit_pos (by exact_mod_cast hd)
    rw [abs_value_sub z n hd, abs_value_sub _ n hd, fl, hscaled, signFactor_mul_self_mul, hfrac,
      div_le_div_iff_of_pos_right hden, div_left_inj' hden.ne', Int.cast_le, Int.cast_inj]
    refine ⟨hle, fun heq hne => htie heq fun hZ => hne ?_⟩
    rw [Exact.value, Exact.value, hscaled, ← hZ, signFactor_mul_self_mul]
  · rw [fl, roundMag_of_overflow hd ((overflow_iff n hd).mp hge), inf]

end Sys2Proof.Machine.Fp
end

section
/-! PROOFS. Each of the four operations on finite values is `fl` of the exact result (R14). -/

namespace Sys2Proof.Machine.Fp

/-- `fl` of a fraction, written with any multiple of its numerator and denominator. -/
theorem fl_eq_pack {n : Int} {d m k c : Nat} {neg : Bool} (hneg : decide (n < 0) = neg) (hc : 0 < c)
    (hn : n.natAbs * unit = m * c) (hd : d = k * c) : fl n d = pack neg (roundMag m k) := by
  rw [fl, hneg, hn, hd, roundMag_mul_right hc]

theorem unit_pos_nat : 0 < unit := Nat.cast_pos.mp unit_pos

theorem fl_unit (n : Int) : fl n unit = pack (decide (n < 0)) (roundMag n.natAbs 1) := by
  rw [fl, ← roundMag_mul_right unit_pos_nat n.natAbs 1, one_mul]

/-- A nonzero sum of finite values is rounded once. -/
theorem addSigned_eq_fl (op : FloatOp) {a b : F64} {sb : Bool} (ha : finite a = true) (hb : finite b = true)
    (h : scaled a + signFactor sb * mag b ≠ 0) : addSigned op a b sb = fl (scaled a + signFactor sb * mag b) unit := by
  have hsb : (if sb then -(mag b : Int) else (mag b : Int)) = signFactor sb * mag b := by cases sb <;> simp [signFactor]
  simp [addSigned, addFinite, not_special ha, not_special hb, hsb, h, fl_unit]

/-- A product of nonzero values is negative exactly where their signs differ. -/
theorem decide_signFactor_mul_neg (s t : Bool) {m k : Nat} (hm : m ≠ 0) (hk : k ≠ 0) :
    decide (signFactor s * m * (signFactor t * k) < 0) = (s != t) := by
  have hm : (0 : Int) < m := by omega
  have hk : (0 : Int) < k := by omega
  have := mul_pos hm hk
  cases s <;> cases t <;> simp [signFactor] <;> linarith

/-- A nonzero product of finite values is rounded once. -/
theorem fmul_eq_fl {a b : F64} (ha : finite a = true) (hb : finite b = true) (h : scaled a * scaled b ≠ 0) :
    fmul a b = fl (scaled a * scaled b) (unit * unit) := by
  obtain ⟨ha0, hb0⟩ := mul_ne_zero_iff.mp h
  have hneg : decide (scaled a * scaled b < 0) = (sign a != sign b) := by
    rw [scaled_eq a, scaled_eq b, decide_signFactor_mul_neg _ _ (mag_ne_zero ha0) (mag_ne_zero hb0)]
  have hmag : (scaled a * scaled b).natAbs * unit = mag a * mag b * unit := by
    rw [Int.natAbs_mul, natAbs_scaled, natAbs_scaled]
  rw [fl_eq_pack hneg unit_pos_nat hmag rfl]
  simp [fmul, not_special ha, not_special hb]

theorem sign_scaled {b : F64} (hb0 : scaled b ≠ 0) : (scaled b).sign = signFactor (sign b) := by
  have hpos : (0 : Int) < mag b := by exact_mod_cast Nat.pos_of_ne_zero (mag_ne_zero hb0)
  rw [scaled_eq, Int.sign_mul, Int.sign_eq_one_of_pos hpos]
  cases sign b <;> rfl

/-- A nonzero quotient of finite values is rounded once. -/
theorem fdiv_eq_fl {a b : F64} (ha : finite a = true) (hb : finite b = true) (ha0 : scaled a ≠ 0) (hb0 : scaled b ≠ 0) :
    fdiv a b = fl (scaled a * (scaled b).sign) (scaled b).natAbs := by
  have hneg : decide (scaled a * (scaled b).sign < 0) = (sign a != sign b) := by
    rw [scaled_eq a, sign_scaled hb0]
    simpa using decide_signFactor_mul_neg (sign a) (sign b) (mag_ne_zero ha0) one_ne_zero
  have hmag : (scaled a * (scaled b).sign).natAbs * unit = mag a * unit * 1 := by
    rw [Int.natAbs_mul, natAbs_scaled, Int.natAbs_sign_of_ne_zero hb0, mul_one, mul_one]
  rw [fl_eq_pack hneg one_pos hmag ((natAbs_scaled b).trans (mul_one _).symm)]
  simp [fdiv, not_special ha, not_special hb, isZero, mag_ne_zero hb0]

/-- Settles O55: a sum over the common unit, a product over its square and a quotient of magnitudes are each the fraction
`roundMag` rounds, and the sign is that of the exact result. -/
theorem operationsRoundOnce : Obligations.OperationsRoundOnce := by
  intro a b ha hb
  have hsub : scaled a + signFactor (!sign b) * mag b = scaled a - scaled b := by
    rw [scaled_eq b]
    cases sign b <;> simp [signFactor, sub_eq_add_neg]
  refine ⟨fun h => ?_, fun h => ?_, fmul_eq_fl ha hb, fdiv_eq_fl ha hb⟩
  · rw [scaled_eq b] at h ⊢
    exact addSigned_eq_fl .add ha hb h
  · rw [← hsub] at h ⊢
    exact addSigned_eq_fl .sub ha hb h

end Sys2Proof.Machine.Fp
end

section
/-! PROOFS. Every step keeps the invariant (R22, R23, R30, R39, R42, R137): first the buffers, whose writes and erasures
keep whole entries inside the buffer, then the registers, effect by effect. -/

namespace Sys2Proof.Machine

/-! ### Buffers of whole entries -/

/-- What the invariant asks of one buffer of `n` entries at `base`. -/
structure Memory.Sound (m : Memory) (base n : Nat) : Prop where
  wf : m.wf = true
  whole : m.wholeEntries base n
  within : m.within base n

/-- An entry whose eight bytes read as in a buffer of whole entries is whole. -/
theorem Memory.whole_of_readByte_eq {m m' : Memory} {off : Nat}
    (h : (∀ k < 8, m.readByte (off + k) = none) ∨ ∀ k < 8, m.readByte (off + k) ≠ none)
    (heq : ∀ k < 8, m'.readByte (off + k) = m.readByte (off + k)) :
    (∀ k < 8, m'.readByte (off + k) = none) ∨ ∀ k < 8, m'.readByte (off + k) ≠ none :=
  h.imp (fun h k hk => (heq k hk).trans (h k hk)) fun h k hk => heq k hk ▸ h k hk

theorem Memory.mem_writeBytes {m : Memory} {off v n : Nat} {c : Host.Cell} (h : c ∈ m.writeBytes off v n) :
    (off ≤ c.1 ∧ c.1 < off + n) ∨ c ∈ m := by
  induction n generalizing m off v with
  | zero => exact .inr h
  | succ n ih =>
    rcases ih h with hc | hc
    · exact .inl (by omega)
    · rcases Memory.mem_writeByte hc with rfl | hc
      · exact .inl ⟨le_rfl, by simp⟩
      · exact .inr hc

theorem Memory.mem_eraseBytes {m : Memory} {off n : Nat} {c : Host.Cell} (h : c ∈ m.eraseBytes off n) : c ∈ m := by
  induction n generalizing m off with
  | zero => exact h
  | succ n ih => exact Memory.mem_eraseByte (ih h)

/-- Every byte of an entry just written is known. -/
theorem Memory.readByte_writeEntry_inside (m : Memory) (off : Nat) (v : Word) {k : Nat} (hk : k < 8) :
    (m.writeEntry off v).readByte (off + k) ≠ none := by
  rw [Memory.writeEntry, Memory.readByte_writeBytes, if_pos (by omega)]
  simp

theorem Memory.Sound.writeEntry {m : Memory} {base n i : Nat} (h : m.Sound base n) (hi : i < n) (v : Word) :
    (m.writeEntry (entryOffset base i) v).Sound base n where
  wf := Memory.wf_writeEntry h.wf _ _
  whole j hj := by
    rcases eq_or_ne j i with rfl | hne
    · exact .inr fun k hk => Memory.readByte_writeEntry_inside m _ v hk
    · refine Memory.whole_of_readByte_eq (h.whole j hj) fun k hk => Memory.readByte_writeEntry_outside _ _ _ _ ?_
      unfold entryOffset
      omega
  within c hc := by
    rcases Memory.mem_writeBytes hc with hc | hc
    · unfold entryOffset at hc
      omega
    · exact h.within c hc

/-- Entries written from entry `i` on, none of them beyond the last. -/
theorem Memory.Sound.writeEntries_from {m : Memory} {base n i : Nat} {vs : List Word} (h : m.Sound base n)
    (hle : i + vs.length ≤ n) : (m.writeEntries (entryOffset base i) vs).Sound base n := by
  induction vs generalizing m i with
  | nil => exact h
  | cons v vs ih =>
    rw [List.length_cons] at hle
    exact ih (i := i + 1) (h.writeEntry (by omega) v) (by omega)

theorem Memory.Sound.writeEntries {m : Memory} {base n : Nat} {vs : List Word} (h : m.Sound base n)
    (hle : vs.length ≤ n) : (m.writeEntries base vs).Sound base n :=
  h.writeEntries_from (i := 0) (by omega)

/-- An aborted block leaves whole entries: each is erased or untouched (R125). -/
theorem Memory.Sound.eraseEntries {m : Memory} {base n : Nat} (h : m.Sound base n) (N : Nat) :
    (m.eraseEntries base N).Sound base n where
  wf := Memory.wf_eraseEntries h.wf _ _
  whole j hj := by
    rcases Nat.lt_or_ge j N with hlt | hge
    · refine .inl fun k hk => ?_
      unfold entryOffset
      rw [Memory.eraseEntries, Memory.readByte_eraseBytes, if_pos (by omega)]
    · refine Memory.whole_of_readByte_eq (h.whole j hj) fun k hk => Memory.readByte_eraseEntries_outside _ _ _ _ ?_
      unfold entryOffset
      omega
  within c hc := h.within c (Memory.mem_eraseBytes hc)

/-- Both buffers meet the invariant. -/
structure State.BuffersSound (s : State) : Prop where
  re : s.re.Sound reBase s.cfg.maxN
  im : s.im.Sound imBase s.cfg.maxN

theorem MachineInv.buffers {s : State} (h : MachineInv s) : s.BuffersSound :=
  ⟨⟨h.reWf, h.reWhole, h.reWithin⟩, ⟨h.imWf, h.imWhole, h.imWithin⟩⟩

theorem State.BuffersSound.setRe {s : State} {i : Nat} (h : s.BuffersSound) (hi : i < s.cfg.maxN) (v : F64) :
    (s.setRe i v).BuffersSound := ⟨h.re.writeEntry hi v, h.im⟩

theorem State.BuffersSound.setIm {s : State} {i : Nat} (h : s.BuffersSound) (hi : i < s.cfg.maxN) (v : F64) :
    (s.setIm i v).BuffersSound := ⟨h.re, h.im.writeEntry hi v⟩

theorem State.BuffersSound.writeBlock {s : State} {alg : Alg} {z : Block} (h : s.BuffersSound)
    (h1 : z.1.length ≤ s.cfg.maxN) (h2 : alg.usesIm = true → z.2.length ≤ s.cfg.maxN) :
    (s.writeBlock alg z).BuffersSound where
  re := h.re.writeEntries h1
  im := by
    rw [State.writeBlock_im]
    split_ifs with hu
    · exact h.im.writeEntries (h2 hu)
    · exact h.im

theorem State.BuffersSound.softReset {s : State} (h : s.BuffersSound) : s.softReset.BuffersSound where
  re := by
    rw [State.softReset_re, State.softReset_cfg]
    split_ifs
    · exact h.re.eraseEntries _
    · exact h.re
  im := by
    rw [State.softReset_im, State.softReset_cfg]
    split_ifs
    · exact h.im.eraseEntries _
    · exact h.im

/-! ### Completions -/

/-- What a completion needs to stay inside the buffers: the latches passed the checks of R133. -/
structure State.LatchesLegal (s : State) : Prop where
  cfg : s.cfg.legal = true
  size : sizeOk s.cfg.maxSize s.cur.alg s.cur.size = true

theorem State.LatchesLegal.entries_le {s : State} (h : s.LatchesLegal) : s.cur.entries ≤ s.cfg.maxN :=
  (sizeOk_entries h.cfg h.size).1

theorem sizeOk_algAllows {maxSize : Nat} {alg : Alg} {size : Nat} (h : sizeOk maxSize alg size = true) :
    algAllows alg size = true := by
  simp only [sizeOk, Bool.and_eq_true] at h
  exact h.2

theorem transformBody_buffers {dir : Direction} {s t : State} (hs : s.BuffersSound) (hl : s.LatchesLegal)
    (h : transformBody dir s = .ok t) : t.BuffersSound := by
  obtain ⟨z, -, rfl⟩ := transformBody_ok h
  refine hs.writeBlock ?_ fun hu => ?_
  · exact (length_xform_re _ _ _ _ _ (sizeOk_algAllows hl.size)).trans_le hl.entries_le
  · exact (length_xform_im _ _ _ _ _ hu).trans_le hl.entries_le

theorem setbitBody_buffers {s t : State} (hs : s.BuffersSound) (hp : s.cur.epos.toNat < s.cfg.maxN)
    (h : setbitBody s = .ok t) : t.BuffersSound := by
  obtain ⟨x, y, -, -, rfl⟩ := setbitBody_ok h
  exact hs.setRe hp y

theorem getbitBody_buffers {s t : State} (hs : s.BuffersSound) (h : getbitBody s = .ok t) : t.BuffersSound := by
  obtain ⟨x, b, -, -, rfl⟩ := getbitBody_ok h
  exact ⟨hs.re, hs.im⟩

/-- A body that goes through, or raises NUMERIC, leaves sound buffers. -/
theorem bodyOf_buffers {op : BlockOp} {s t : State} (hs : s.BuffersSound) (hl : s.LatchesLegal)
    (hp : op.usesParity = true → s.cur.epos.toNat < s.cur.entries)
    (h : bodyOf op s = .ok t ∨ bodyOf op s = .numeric t) : t.BuffersSound := by
  have hpos (hop : op.usesParity = true) : s.cur.epos.toNat < s.cfg.maxN := (hp hop).trans_le hl.entries_le
  cases op with
  | fwd => exact h.elim (transformBody_buffers hs hl) fun h => absurd h (transformBody_not_numeric _ _ _)
  | inv => exact h.elim (transformBody_buffers hs hl) fun h => absurd h (transformBody_not_numeric _ _ _)
  | setbit => exact h.elim (setbitBody_buffers hs (hpos rfl)) fun h => setbitBody_numeric h ▸ hs
  | getbit => exact h.elim (getbitBody_buffers hs) fun h => getbitBody_numeric h ▸ hs
  | embed =>
    rcases h with h | h
    · obtain ⟨u, v, hu, hv, ht⟩ := embedBody_ok h
      have hub := transformBody_buffers hs hl hu
      obtain ⟨z, -, rfl⟩ := transformBody_ok hu
      have hvb := setbitBody_buffers hub (hpos rfl) hv
      obtain ⟨x, y, -, -, rfl⟩ := setbitBody_ok hv
      exact transformBody_buffers hvb ⟨hl.cfg, hl.size⟩ ht
    · exact transformBody_buffers hs hl (embedBody_numeric h).1
  | extract =>
    rcases h with h | h
    · obtain ⟨u, hu, ht⟩ := extractBody_ok h
      exact getbitBody_buffers (transformBody_buffers hs hl hu) ht
    · exact transformBody_buffers hs hl (extractBody_numeric h).1

/-! ### The invariant, effect by effect -/

/-- The part of the invariant that is about registers and latches. -/
structure RegistersInv (s : State) : Prop where
  cfgLegal : s.cfg.legal = true
  errNamed : s.err = true ↔ s.errCode ≠ .none
  haltedFatal : s.fsm = .halted ↔ isFatal s.errCode = true
  busyFlags : s.fsm = .busy → s.done = false ∧ s.rvalid = false
  busySize : s.fsm = .busy → sizeOk s.cfg.maxSize s.cur.alg s.cur.size = true
  busyParity : s.fsm = .busy → s.cur.op.usesParity = true →
    s.cur.tol = s.tol ∧ toleranceOk s.tol = true ∧ s.cur.epos = s.epos ∧ s.epos.toNat < s.cur.entries
  eposRange : s.epos.toNat < s.cfg.maxN

theorem MachineInv.registers {s : State} (h : MachineInv s) : RegistersInv s := { h with }

theorem RegistersInv.machineInv {s : State} (h : RegistersInv s) (hb : s.BuffersSound) : MachineInv s :=
  { h with
    reWf := hb.re.wf, reWhole := hb.re.whole, reWithin := hb.re.within
    imWf := hb.im.wf, imWhole := hb.im.whole, imWithin := hb.im.within }

/-- Nothing in the invariant looks at what is still to come or at the answer. -/
theorem MachineInv.withEvents {s : State} (h : MachineInv s) (es : List Event) (a : Option Answer) :
    MachineInv { s with events := es, answer := a } := { h with }

theorem MachineInv.served {s : State} (h : MachineInv s) (rest : List Event) (a : Answer) :
    MachineInv (s.served rest a) := h.withEvents rest _

theorem MachineInv.hardwareReset {s : State} (h : MachineInv s) : MachineInv s.hardwareReset :=
  (machineInv_resetOf h.cfgLegal).withEvents s.events none

theorem machineInv_softReset {s : State} (h : MachineInv s) : MachineInv s.softReset :=
  RegistersInv.machineInv
    { cfgLegal := by simpa using h.cfgLegal
      errNamed := by simp
      haltedFatal := by simp [isFatal]
      busyFlags := by simp
      busySize := by simp
      busyParity := by simp
      eposRange := by simpa using (Config.maxN_le h.cfgLegal).1.trans_lt' (by decide) }
    h.buffers.softReset

theorem MachineInv.writeCtrl {s : State} (h : MachineInv s) (v : Word) : MachineInv (s.writeCtrl v) := by
  unfold State.writeCtrl
  split_ifs
  · exact machineInv_softReset h
  · exact { h with }

/-- W1C clears ERR and ERRCODE together, and only outside HALTED (R126). -/
theorem MachineInv.statusW1C {s : State} (h : MachineInv s) (v : Word) : MachineInv (s.statusW1C v) := by
  rw [State.statusW1C_eq]
  refine RegistersInv.machineInv { h.registers with errNamed := ?_, haltedFatal := ?_, busyFlags := ?_ }
    ⟨h.buffers.re, h.buffers.im⟩
  · have := h.errNamed
    by_cases hc : (bit v 2 && !s.halted) = true <;> simp [hc, this]
  · have := h.haltedFatal
    by_cases hc : (bit v 2 && !s.halted) = true
    · have hnot : s.fsm ≠ .halted := by simp_all [State.halted]
      simp [hc, hnot, isFatal]
    · simp [hc, this]
  · exact fun hb => by simp [h.busyFlags hb]

/-- Acceptance leaves an error that is not fatal, or latches that passed every check (R133, R136). -/
theorem MachineInv.blockEffect {b t : State} (h : MachineInv b) (hidle : b.fsm = .idle) (e : BlockEffect b t) :
    MachineInv t := by
  have hbuf := h.buffers
  cases e with
  | failed c hc e =>
    subst e
    refine RegistersInv.machineInv
      { cfgLegal := h.cfgLegal, errNamed := ?_, haltedFatal := ?_, busyFlags := nofun, busySize := nofun
        busyParity := nofun, eposRange := h.eposRange } ⟨hbuf.re, hbuf.im⟩
    all_goals rcases hc with rfl | rfl | rfl <;> simp [isFatal]
  | started cur ep hs hp hn e =>
    subst e
    have hfatal : isFatal b.errCode ≠ true := fun hf => by
      simpa [hidle] using h.haltedFatal.mpr hf
    refine RegistersInv.machineInv
      { cfgLegal := h.cfgLegal, errNamed := h.errNamed, haltedFatal := by simp [hfatal]
        busyFlags := fun _ => ⟨rfl, rfl⟩, busySize := fun _ => hs, busyParity := fun _ => hp, eposRange := ?_ }
      ⟨hbuf.re, hbuf.im⟩
    cases hop : cur.op.usesParity with
    | false => exact hn hop ▸ h.eposRange
    | true =>
      obtain ⟨-, -, -, hlt⟩ := hp hop
      exact hlt.trans_le (sizeOk_entries h.cfgLegal hs).1

theorem MachineInv.cmdEffect {w : Word} {b t : State} (h : MachineInv b) (e : CmdEffect w b t) : MachineInv t := by
  have hbuf := h.buffers
  cases e with
  | ignored _ e => exact e ▸ h
  | fatal _ c d e =>
    subst e
    refine RegistersInv.machineInv
      { cfgLegal := h.cfgLegal, errNamed := ?_, haltedFatal := ?_, busyFlags := nofun, busySize := nofun
        busyParity := nofun, eposRange := h.eposRange } ⟨hbuf.re, hbuf.im⟩
    all_goals rcases decode_fatal d with rfl | rfl <;> simp [isFatal]
  | nop hidle _ e =>
    subst e
    exact RegistersInv.machineInv { h.registers with busyFlags := fun hb => by simp [hidle] at hb } ⟨hbuf.re, hbuf.im⟩
  | block hidle i op f _ _ e => exact e ▸ h.blockEffect hidle (acceptBlock_effect h.cfgLegal op f)

theorem MachineInv.accessEffect {s t : State} {rest : List Event} (h : MachineInv s) (e : AccessEffect s t rest) :
    MachineInv t := by
  have hserved := h.served rest .okayWrite
  cases e with
  | answered a e => exact e ▸ h.served rest a
  | ctrl v _ e => exact e ▸ hserved.writeCtrl v
  | status v _ e => exact e ▸ hserved.statusW1C v
  | pos v _ _ e => exact e ▸ { hserved with }
  | tol v hb _ e => exact e ▸ { hserved with busyParity := fun hbusy => absurd hbusy hb }
  | cmd v _ _ e => exact hserved.cmdEffect e
  | re i v _ hi _ e => exact e ▸ RegistersInv.machineInv { hserved.registers with } (hserved.buffers.setRe hi v)
  | im i v _ hi _ e => exact e ▸ RegistersInv.machineInv { hserved.registers with } (hserved.buffers.setIm hi v)

/-- A command in progress that meets the invariant has legal latches, and a parity command's position is in its block. -/
theorem MachineInv.latchesLegal {s : State} (h : MachineInv s) (hbusy : s.fsm = .busy) : s.LatchesLegal :=
  ⟨h.cfgLegal, h.busySize hbusy⟩

theorem MachineInv.epos_lt {s : State} (h : MachineInv s) (hbusy : s.fsm = .busy) (hop : s.cur.op.usesParity = true) :
    s.cur.epos.toNat < s.cur.entries := by
  obtain ⟨-, -, hepos, hlt⟩ := h.busyParity hbusy hop
  exact hepos ▸ hlt

theorem engineTurn_buffers {s t : State} (h : MachineInv s) (ht : engineTurn s = .next t) : t.BuffersSound := by
  rcases engineTurn_next ht with ⟨-, rfl⟩ | ⟨hbusy, ⟨u, hu, rfl⟩ | ⟨u, hu, rfl⟩⟩
  · exact h.buffers
  · have hb := bodyOf_buffers h.buffers (h.latchesLegal hbusy) (h.epos_lt hbusy) (.inl hu)
    exact ⟨hb.re, hb.im⟩
  · have hb := bodyOf_buffers h.buffers (h.latchesLegal hbusy) (h.epos_lt hbusy) (.inr hu)
    exact ⟨hb.re, hb.im⟩

/-- After the ENGINE's turn a command that ran is not BUSY any more, and if it failed it names NUMERIC, which is not fatal
(R110, R164). -/
theorem MachineInv.engineTurn {s t : State} {es : List Event} (h : MachineInv s)
    (ht : engineTurn { s with events := es, answer := none } = .next t) : MachineInv t := by
  refine RegistersInv.machineInv ?_ (engineTurn_buffers (h.withEvents es none) ht)
  rcases engineTurn_effect ht with ⟨-, e⟩ | ⟨hbusy, e | e⟩
  · exact e ▸ (h.withEvents es none).registers
  · have hfatal : isFatal s.errCode ≠ true := fun hf => by simpa [hbusy] using h.haltedFatal.mpr hf
    rw [e]
    exact { h.registers with
      haltedFatal := by simp [hfatal], busyFlags := nofun, busySize := nofun, busyParity := nofun }
  · rw [e]
    exact { h.registers with
      errNamed := by simp, haltedFatal := by simp [isFatal], busyFlags := nofun, busySize := nofun
      busyParity := nofun }

/-- Settles O11: a reset starts afresh, a turn of the ENGINE ends the command in progress inside its block, and a served
access does one of the effects above. -/
theorem stepKeepsInvariant : Obligations.StepKeepsInvariant := by
  intro s t h hstep
  rcases step_cases hstep with ⟨rest, -, rfl⟩ | ⟨es, -, hturn⟩ | ⟨r, rest, he, hst, hserve⟩
  · exact (h.withEvents rest s.answer).hardwareReset
  · exact h.engineTurn hturn
  · exact h.accessEffect (serve_effect he hst hserve)

end Sys2Proof.Machine
end

section
/-! PROOFS. The ENGINE state, ERR and the IRQ line over every step (R22, R30, R39, R40, R137, R141). -/

namespace Sys2Proof.Machine

open Sys2Proof.Claims

/-! ### What one step is -/

/-- Every step is a hardware reset, a turn of the ENGINE or an access served (log entry 2). -/
theorem step_forms (s : State) :
    (∃ rest, s.events = .hardwareReset :: rest ∧ step s = .next { s with events := rest }.hardwareReset) ∨
      (∃ es, EngineNext s es ∧ step s = engineTurn { s with events := es, answer := none }) ∨
      (∃ r rest, s.events = .access r :: rest ∧ stalled r s = false ∧
        step s = serve r { s with events := rest, answer := none }) := by
  rcases he : s.events with _ | ⟨_ | _ | _, rest⟩
  case nil => exact .inr (.inl ⟨[], .inl ⟨he, rfl⟩, by simp [step, advance, he, State.answering]⟩)
  case tick => exact .inr (.inl ⟨rest, .inr (.inl he), by simp [step, advance, he]⟩)
  case hardwareReset => exact .inl ⟨rest, rfl, by simp [step, advance, he]⟩
  case access r =>
    cases hst : stalled r s with
    | false => exact .inr (.inr ⟨r, rest, rfl, hst, step_access he hst⟩)
    | true => exact .inr (.inl ⟨s.events, .inr (.inr ⟨r, rest, he, hst, rfl⟩), step_stalled he hst⟩)

/-- A step that goes on, inverted, with the effect of each of its three forms. -/
inductive StepEffect (s t : State) : Prop where
  | reset (rest : List Event) (he : s.events = .hardwareReset :: rest) (e : t = { s with events := rest }.hardwareReset)
  | turn (es : List Event) (he : EngineNext s es) (h : engineTurn { s with events := es, answer := none } = .next t)
  | served (r : Request) (rest : List Event) (he : s.events = .access r :: rest) (e : AccessEffect s t rest)

theorem step_effect {s t : State} (h : step s = .next t) : StepEffect s t := by
  rcases step_forms s with ⟨rest, he, e⟩ | ⟨es, he, e⟩ | ⟨r, rest, he, hst, e⟩ <;> rw [e] at h
  · cases h; exact .reset rest he rfl
  · exact .turn es he h
  · exact .served r rest he (serve_effect he hst h)

/-! ### CTRL writes -/

/-- A CTRL write is a soft reset exactly if bit 0 is set (R29, R124). -/
theorem State.writeCtrl_cases (s : State) (v : Word) :
    (v.getLsbD 0 = true ∧ s.writeCtrl v = s.softReset) ∨
      (v.getLsbD 0 = false ∧ s.writeCtrl v = { s with irqEn := bit v 1 }) := by
  rw [State.writeCtrl, bit_eq_getLsbD]
  cases v.getLsbD 0 <;> simp

/-! ### Acceptance -/

/-- Acceptance of a block command ends BUSY with ERR as it was, or IDLE with ERR set (R133, R136). -/
theorem State.acceptBlock_flags (s : State) (op : BlockOp) (f : CmdFields) :
    ((s.acceptBlock op f).fsm = .busy ∧ (s.acceptBlock op f).err = s.err) ∨
      ((s.acceptBlock op f).fsm = .idle ∧ (s.acceptBlock op f).err = true) := by
  rcases s.acceptBlock_cases op f with ⟨-, e⟩ | ⟨-, -, e⟩ | ⟨-, -, ⟨-, e⟩ | ⟨p, -, ⟨-, e⟩ | ⟨-, e⟩⟩⟩ <;> simp [e]

/-- Where a CMD write served outside BUSY takes the ENGINE state, and what it does to ERR (R22, R133). -/
theorem CmdEffect.flags {w : Word} {b t : State} (h : CmdEffect w b t) :
    (t.fsm = b.fsm ∧ (b.err = true → t.err = true)) ∨
      (b.fsm = .idle ∧ t.fsm = .halted ∧ t.err = true ∧ ∃ c, decode w = .fatal c) ∨
      (b.fsm = .idle ∧ t.fsm = .busy ∧ t.err = b.err ∧ ∃ i, decode w = .cmd i ∧ i ≠ .nop) := by
  cases h with
  | ignored _ e => exact .inl ⟨by rw [e], fun h => e ▸ h⟩
  | fatal hb c d e => exact .inr (.inl ⟨hb, by simp [e], by simp [e], c, d⟩)
  | nop hb _ e => exact .inl ⟨by simp [e], fun h => by simp [e, h]⟩
  | block hb i op f d hf e =>
    have hi : i ≠ .nop := fun hi => by simp [hi, Instr.fields] at hf
    rcases b.acceptBlock_flags op f with ⟨h1, h2⟩ | ⟨h1, h2⟩
    · exact .inr (.inr ⟨hb, e ▸ h1, e ▸ h2, i, d, hi⟩)
    · exact .inl ⟨by rw [e, h1, hb], fun _ => e ▸ h2⟩

/-! ### Served accesses and turns of the ENGINE -/

/-- A served access leaves the ENGINE state, but for a soft reset and for a CMD write in IDLE (R22). -/
theorem AccessEffect.fsm_cases {s t : State} {rest : List Event} (h : AccessEffect s t rest) :
    t.fsm = s.fsm ∨ (t = (s.served rest .okayWrite).softReset ∧ ∃ v, NextWrite s 0x10 v rest ∧ v.getLsbD 0 = true) ∨
      (s.fsm = .idle ∧ ∃ w, NextWrite s 0x30 w rest ∧
        ((t.fsm = .halted ∧ t.err = true ∧ ∃ c, decode w = .fatal c) ∨
          (t.fsm = .busy ∧ t.err = s.err ∧ ∃ i, decode w = .cmd i ∧ i ≠ .nop))) := by
  cases h with
  | answered a e => exact .inl (by rw [e]; rfl)
  | ctrl v he e =>
    rcases (s.served rest .okayWrite).writeCtrl_cases v with ⟨hv, hw⟩ | ⟨-, hw⟩ <;> rw [hw] at e
    · exact .inr (.inl ⟨e, v, he, hv⟩)
    · exact .inl (by rw [e]; rfl)
  | status v _ e => exact .inl (by rw [e, State.statusW1C_fsm]; rfl)
  | pos v _ _ e => exact .inl (by rw [e]; rfl)
  | tol v _ _ e => exact .inl (by rw [e]; rfl)
  | re i v _ _ _ e => exact .inl (by rw [e]; rfl)
  | im i v _ _ _ e => exact .inl (by rw [e]; rfl)
  | cmd w _ he e =>
    rcases e.flags with ⟨h, -⟩ | ⟨hb, h⟩ | ⟨hb, h⟩
    · exact .inl h
    · exact .inr (.inr ⟨hb, w, he, .inl h⟩)
    · exact .inr (.inr ⟨hb, w, he, .inr h⟩)

/-- The ENGINE's turn leaves BUSY with DONE or ERR set; without a command it keeps the ENGINE state (R164). -/
theorem engineTurn_flags {s t : State} {es : List Event}
    (h : engineTurn { s with events := es, answer := none } = .next t) :
    (s.fsm ≠ .busy ∧ t.fsm = s.fsm ∧ t.err = s.err) ∨
      (s.fsm = .busy ∧ t.fsm = .idle ∧ (t.done = true ∧ t.err = s.err ∨ t.err = true)) := by
  rcases engineTurn_effect h with ⟨hb, e⟩ | ⟨hb, e | e⟩ <;> rw [e]
  · exact .inl ⟨hb, rfl, rfl⟩
  · exact .inr ⟨hb, rfl, .inl ⟨rfl, rfl⟩⟩
  · exact .inr ⟨hb, rfl, .inr rfl⟩

/-! ### The claims -/

/-- Settles O12: a reset ends IDLE, a turn of the ENGINE leaves BUSY for IDLE alone, and a served access changes the ENGINE
state only by a soft reset or by a CMD write in IDLE. -/
theorem engineTransitions : Obligations.EngineTransitions := by
  intro s t h
  cases step_effect h with
  | reset rest he e =>
    have hfsm : t.fsm = .idle := by rw [e]; rfl
    exact ⟨by simp [hfsm], by simp [hfsm], by simp [hfsm], fun _ _ => .inr (.inl ⟨rest, he⟩),
      fun _ _ => ⟨hfsm, .inl ⟨rest, he⟩⟩⟩
  | turn es he hturn =>
    rcases engineTurn_flags hturn with ⟨hb, hfsm, -⟩ | ⟨hb, hfsm, -⟩
    · cases hs : s.fsm <;> simp_all
    · exact ⟨by simp [hfsm], by simp [hfsm], by simp [hfsm], fun _ _ => .inl ⟨es, he⟩, by simp [hb]⟩
  | served r rest he e =>
    rcases e.fsm_cases with hfsm | ⟨ht, v, hw, hv⟩ | ⟨hidle, w, hw, ⟨hfsm, herr, c, hd⟩ | ⟨hfsm, herr, i, hd, hi⟩⟩
    · cases hs : s.fsm <;> simp [hfsm, hs]
    · have hfsm : t.fsm = .idle := by rw [ht]; rfl
      exact ⟨by simp [hfsm], by simp [hfsm], by simp [hfsm], fun _ _ => .inr (.inr ⟨v, rest, hw, hv⟩),
        fun _ _ => ⟨hfsm, .inr ⟨v, rest, hw, hv⟩⟩⟩
    · exact ⟨by simp [hfsm], fun _ _ => ⟨w, rest, c, hw, hd, herr⟩, by simp [hidle], by simp [hidle], by simp [hidle]⟩
    · exact ⟨fun _ _ => ⟨w, rest, i, hw, hd, hi, herr⟩, by simp [hfsm], by simp [hidle], by simp [hidle], by simp [hidle]⟩

/-- A served access that clears ERR is a soft reset or a W1C of bit 2 outside HALTED (R30, R139). -/
theorem AccessEffect.err_cleared {s t : State} {rest : List Event} (h : AccessEffect s t rest) (hs : s.err = true)
    (ht : t.err = false) : (∃ v, NextWrite s 0x10 v rest ∧ v.getLsbD 0 = true) ∨
      (∃ v, NextWrite s 0x18 v rest ∧ v.getLsbD 2 = true ∧ s.fsm ≠ .halted) := by
  have hkept (hb : t.err = s.err) : False := by simp [hb, hs] at ht
  cases h with
  | answered a e => exact (hkept (by rw [e]; rfl)).elim
  | ctrl v he e =>
    rcases (s.served rest .okayWrite).writeCtrl_cases v with ⟨hv, -⟩ | ⟨-, hw⟩
    · exact .inl ⟨v, he, hv⟩
    · exact (hkept (by rw [e, hw]; rfl)).elim
  | status v he e =>
    have hclear : bit v 2 = true ∧ s.fsm ≠ .halted := by
      simpa [e, State.served, State.halted, hs] using ht
    exact .inr ⟨v, he, bit_eq_getLsbD v 2 ▸ hclear.1, hclear.2⟩
  | pos v _ _ e => exact (hkept (by rw [e]; rfl)).elim
  | tol v _ _ e => exact (hkept (by rw [e]; rfl)).elim
  | re i v _ _ _ e => exact (hkept (by rw [e]; rfl)).elim
  | im i v _ _ _ e => exact (hkept (by rw [e]; rfl)).elim
  | cmd w _ _ e =>
    rcases e.flags with ⟨-, h⟩ | ⟨-, -, h, -⟩ | ⟨-, -, h, -⟩
    · simp [h hs] at ht
    · simp [h] at ht
    · exact (hkept h).elim

/-- Settles O13: a turn of the ENGINE keeps ERR or sets it, and of the accesses only the two named ones clear it. -/
theorem errorIsSticky : Obligations.ErrorIsSticky := by
  intro s t h hs ht
  cases step_effect h with
  | reset rest he _ => exact .inl ⟨rest, he⟩
  | turn es _ hturn =>
    rcases engineTurn_flags hturn with ⟨-, -, herr⟩ | ⟨-, -, ⟨-, herr⟩ | herr⟩ <;> simp_all
  | served r rest _ e =>
    rcases e.err_cleared hs ht with ⟨v, hv⟩ | ⟨v, hv⟩
    · exact .inr (.inl ⟨v, rest, hv⟩)
    · exact .inr (.inr ⟨v, rest, hv⟩)

/-- Settles O20: a completion sets DONE or ERR, and either reset clears IRQ_EN. -/
theorem commandEndRaisesIrq : Obligations.CommandEndRaisesIrq := by
  intro s t hbusy h hend
  have hreset (hen : t.irqEn = false) : t.irq = t.irqEn := by simp [State.irq, hen]
  cases step_effect h with
  | reset rest _ e => exact hreset (by rw [e]; rfl)
  | turn es _ hturn =>
    have hset : t.done = true ∨ t.err = true := by
      rcases engineTurn_flags hturn with ⟨hne, -⟩ | ⟨-, -, h⟩
      · exact absurd hbusy hne
      · exact h.imp_left And.left
    rcases hset with h | h <;> simp [State.irq, h]
  | served r rest _ e =>
    rcases e.fsm_cases with hfsm | ⟨ht, -⟩ | ⟨hidle, -⟩
    · exact absurd (hfsm.trans hbusy) hend
    · exact hreset (by rw [ht]; rfl)
    · simp [hidle] at hbusy

end Sys2Proof.Machine
end

section
/-! PROOFS. What the host reads from a register and writes to it (R24 to R34, R52, R53), and a CMD write as the acceptance
of its command (R33, R133). -/

namespace Sys2Proof.Machine

open Sys2Proof.Claims

/-! ### Accesses that are served at once -/

/-- A proper request to a target that does not stall, or outside BUSY, is not held back (R158). -/
theorem stalled_eq_false {r : Request} {s : State} {t : Target} (ht : r.target s.cfg.maxN = some t)
    (h : t.stalls = false ∨ s.fsm ≠ .busy) : stalled r s = false := by
  rcases h with h | h <;> simp [stalled, ht, State.busy, h]

theorem step_read {s : State} {off : Nat} {rest : List Event} {t : Target} (he : NextRead s off rest)
    (ht : locate s.cfg.maxN off 8 = some t) (h : t.stalls = false ∨ s.fsm ≠ .busy) :
    step s = readTarget t { s with events := rest, answer := none } := by
  rw [step_access he (stalled_eq_false (r := .read off 8) ht h)]
  simp [serve, Request.target, ht]

theorem step_write {s : State} {off : Nat} {v : Word} {rest : List Event} {t : Target} (he : NextWrite s off v rest)
    (ht : locate s.cfg.maxN off 8 = some t) (h : t.stalls = false ∨ s.fsm ≠ .busy) :
    step s = writeTarget t v { s with events := rest, answer := none } := by
  rw [step_access he (stalled_eq_false (r := .write off 8 v) ht h)]
  simp [serve, Request.target, ht]

/-- A read changes nothing but the answer, which is the register's word (R52, R127). -/
theorem step_read_register {s : State} {off : Nat} {rest : List Event} {t : Target} {w : Word} (he : NextRead s off rest)
    (ht : locate s.cfg.maxN off 8 = some t) (h : t.stalls = false ∨ s.fsm ≠ .busy)
    (hreg : ∀ b, readTarget t b = .next (b.answering (some (.okayRead (registerWord b t)))))
    (hw : registerWord { s with events := rest, answer := none } t = w) :
    step s = .next { s with events := rest, answer := some (.okayRead w) } := by
  rw [step_read he ht h, hreg, hw]
  rfl

/-- Settles O9: an IDLE engine holds nothing back and is not HALTED, so the write is accepted by its command. -/
theorem stepRunsCommandWrite : Obligations.StepRunsCommandWrite := by
  intro s w rest i hidle he hd
  rw [step_write he (locate_cmd _) (.inr (by simp [hidle]))]
  simp [writeTarget, accept, State.halted, hidle, hd, State.answering]

/-! ### Register words, field by field -/

/-- Fields side by side are a sum (R11). -/
theorem toNat_append_eq_add {m n : Nat} (x : BitVec m) (y : BitVec n) :
    (x ++ y).toNat = x.toNat * 2 ^ n + y.toNat := by
  rw [BitVec.toNat_append, ← Nat.shiftLeft_add_eq_or_of_lt y.isLt, Nat.shiftLeft_eq]

@[simp] theorem toNat_flag (b : Bool) : (flag b).toNat = b.toNat := by cases b <;> rfl

theorem idWord_fields : idWord = 0#16 ++ 0x0001#16 ++ 0x53544547#32 := by decide

theorem State.cfgWord_fields (s : State) : s.cfgWord = 0#51 ++ 0b11111#5 ++ BitVec.ofNat 8 s.cfg.maxSize := by
  apply BitVec.eq_of_toNat_eq
  simp only [State.cfgWord, toNat_append_eq_add, BitVec.toNat_ofNat]
  omega

theorem State.ctrlWord_fields (s : State) : s.ctrlWord = 0#62 ++ flag s.irqEn ++ 0#1 := by
  apply BitVec.eq_of_toNat_eq
  have := s.irqEn.toNat_le
  simp only [State.ctrlWord, toNat_append_eq_add, BitVec.toNat_ofNat, toNat_flag]
  omega

theorem State.statusWord_fields (s : State) : s.statusWord =
    0#52 ++ BitVec.ofNat 4 s.errCode.code ++ 0#4 ++ flag (decide (s.fsm = .halted)) ++ flag s.err ++ flag s.done ++
      flag (decide (s.fsm = .busy)) := by
  apply BitVec.eq_of_toNat_eq
  have hcode : s.errCode.code ≤ 6 := by cases s.errCode <;> decide
  have hbusy : s.busy = decide (s.fsm = .busy) := by cases h : s.fsm <;> simp [State.busy, h]
  have hhalted : s.halted = decide (s.fsm = .halted) := by cases h : s.fsm <;> simp [State.halted, h]
  have h0 := (decide (s.fsm = .busy)).toNat_le
  have h1 := s.done.toNat_le
  have h2 := s.err.toNat_le
  have h3 := (decide (s.fsm = .halted)).toNat_le
  simp only [State.statusWord, hbusy, hhalted, toNat_append_eq_add, BitVec.toNat_ofNat, toNat_flag]
  omega

theorem State.resultWord_fields (s : State) : s.resultWord =
    0#32 ++ s.epos ++ 0#14 ++ flag s.rvalid ++ flag s.rbit := by
  apply BitVec.eq_of_toNat_eq
  have h0 := s.rbit.toNat_le
  have h1 := s.rvalid.toNat_le
  have h2 := s.epos.isLt
  simp only [State.resultWord, toNat_append_eq_add, BitVec.toNat_ofNat, toNat_flag]
  omega

theorem State.posWord_fields (s : State) : s.posWord = 0#48 ++ s.pos := by
  apply BitVec.eq_of_toNat_eq
  have := s.pos.isLt
  simp only [State.posWord, toNat_append_eq_add, BitVec.toNat_ofNat]
  omega

/-! ### The claims -/

theorem locate_id (maxN : Nat) : locate maxN 0x00 8 = some .id := rfl

theorem locate_cfg (maxN : Nat) : locate maxN 0x08 8 = some .cfg := rfl

/-- Settles O46: neither register ever stalls, and a write to a read-only one is only answered. -/
theorem identificationReads : Obligations.IdentificationReads := by
  intro s rest v _
  refine ⟨fun h => ?_, fun h => ?_, ?_⟩
  · exact step_read_register h (locate_id _) (.inl rfl) (fun _ => rfl) idWord_fields
  · exact step_read_register h (locate_cfg _) (.inl rfl) (fun _ => rfl) (State.cfgWord_fields _)
  · rintro (h | h | h)
    · rw [step_write h (locate_id _) (.inl rfl)]; rfl
    · rw [step_write h (locate_cfg _) (.inl rfl)]; rfl
    · rw [step_write h (locate_result _) (.inl rfl)]; rfl

/-- Settles O47: CTRL, STATUS and RESULT never stall, and each word is its fields. -/
theorem statusReads : Obligations.StatusReads := by
  intro s rest _
  refine ⟨fun h => ?_, fun h => ?_, fun h => ?_⟩
  · exact step_read_register h (locate_ctrl _) (.inl rfl) (fun _ => rfl) (State.ctrlWord_fields _)
  · exact step_read_register h (locate_status _) (.inl rfl) (fun _ => rfl) (State.statusWord_fields _)
  · exact step_read_register h (locate_result _) (.inl rfl) (fun _ => rfl) (State.resultWord_fields _)

/-- Settles O48: outside BUSY the operand registers do not stall; POS keeps the low half-word. -/
theorem operandRegisters : Obligations.OperandRegisters := by
  intro s rest v hb _
  have hlow : BitVec.ofNat 16 v.toNat = v.extractLsb' 0 16 := by
    apply BitVec.eq_of_toNat_eq
    simp [BitVec.extractLsb'_toNat]
  refine ⟨fun h => ?_, fun h => ?_, fun h => ?_, fun h => ?_, fun h => ?_⟩
  · rw [step_write h (locate_pos _) (.inr hb), ← hlow]; rfl
  · exact step_read_register h (locate_pos _) (.inr hb) (fun _ => rfl) (State.posWord_fields _)
  · rw [step_write h (locate_tol _) (.inr hb)]; rfl
  · exact step_read_register h (locate_tol _) (.inr hb) (fun _ => rfl) rfl
  · exact step_read_register h (locate_cmd _) (.inr hb) (fun _ => rfl) rfl

end Sys2Proof.Machine
end

section
/-! PROOFS. When a command or a host read stops on an UNKNOWN entry, and that nothing else stops a step (R42, R156). -/

namespace Sys2Proof.Machine

open Sys2Proof.Claims

/-! ### Blocks with an UNKNOWN entry -/

theorem Memory.readEntries_eq_none {m : Memory} {off n : Nat} :
    m.readEntries off n = none ↔ ∃ i < n, m.readEntry (off + 8 * i) = none := by
  induction n generalizing off with
  | zero => simp [Memory.readEntries]
  | succ n ih =>
    have hsplit : (∃ i < n + 1, m.readEntry (off + 8 * i) = none) ↔
        m.readEntry off = none ∨ ∃ i < n, m.readEntry (off + 8 + 8 * i) = none := by
      rw [Nat.exists_lt_succ_left]
      simp only [mul_zero, add_zero, mul_add, mul_one, add_assoc, add_comm 8]
    rw [hsplit, ← ih, Memory.readEntries]
    cases m.readEntry off <;> cases m.readEntries (off + 8) n <;> simp

/-- A block cannot be read exactly if an entry of it is UNKNOWN, in IM only for an FFT (R42, R94). -/
theorem State.readBlock_eq_none {s : State} {alg : Alg} {n : Nat} :
    s.readBlock alg n = none ↔ ∃ j < n, s.reEntry j = none ∨ (alg.usesIm = true ∧ s.imEntry j = none) := by
  have hre : s.re.readEntries reBase n = none ↔ ∃ j < n, s.reEntry j = none := Memory.readEntries_eq_none
  have him : s.im.readEntries imBase n = none ↔ ∃ j < n, s.imEntry j = none := Memory.readEntries_eq_none
  have hread : s.readBlock alg n = none ↔
      s.re.readEntries reBase n = none ∨ (alg.usesIm = true ∧ s.im.readEntries imBase n = none) := by
    unfold State.readBlock
    cases s.re.readEntries reBase n <;> cases alg.usesIm <;> cases s.im.readEntries imBase n <;> simp
  rw [hread, hre, him]
  simp only [and_or_left, exists_or, and_left_comm (b := alg.usesIm = true), exists_and_left]

/-! ### Which bodies stop -/

theorem BodyResult.andThen_unknown {r : BodyResult} {k : State → BodyResult} :
    r.andThen k = .unknown ↔ r = .unknown ∨ ∃ u, r = .ok u ∧ k u = .unknown := by
  cases r <;> simp [BodyResult.andThen]

theorem BodyResult.conclude_eq_fault {r : BodyResult} : r.conclude = .fault .commandReadUnknown ↔ r = .unknown := by
  cases r <;> simp [BodyResult.conclude]

/-- A compound command stops where its forward transform does. -/
theorem embedBody_unknown_of_forward {s : State} (h : forwardBody s = .unknown) : embedBody s = .unknown := by
  simp [embedBody, h, BodyResult.andThen]

theorem extractBody_unknown_of_forward {s : State} (h : forwardBody s = .unknown) : extractBody s = .unknown := by
  simp [extractBody, h, BodyResult.andThen]

/-- Settles O38: an UNKNOWN entry of the block stops the transform, with it EMBED and EXTRACT, and an UNKNOWN RE[epos] stops
SETBIT and GETBIT. -/
theorem unknownEntryFaults : Obligations.UnknownEntryFaults := by
  intro s f hbusy
  have stops {op : BlockOp} {g : CmdFields} {b : State → BodyResult} (h : b s = .unknown) :
      s.byPhase op g b = .fault .commandReadUnknown := by rw [State.byPhase_busy hbusy, h]; rfl
  refine ⟨fun hblock => ?_, fun hcarrier => ?_⟩
  · have hdir (dir : Direction) : transformBody dir s = .unknown :=
      transformBody_unknown.mpr (State.readBlock_eq_none.mpr hblock)
    exact ⟨stops (hdir .forward), stops (hdir .inverse), stops (embedBody_unknown_of_forward (hdir .forward)),
      stops (extractBody_unknown_of_forward (hdir .forward))⟩
  · exact ⟨stops (setbitBody_unknown.mpr hcarrier), stops (getbitBody_unknown.mpr hcarrier)⟩

/-! ### The phases of a compound command after the first -/

/-- Every entry of a block just written is known. -/
theorem State.reEntry_writeBlock {s : State} {alg : Alg} {z : Block} {j : Nat} (h : j < z.1.length) :
    (s.writeBlock alg z).reEntry j = some z.1[j] := Memory.readEntry_writeEntries _ _ _ _ h

theorem State.imEntry_writeBlock {s : State} {alg : Alg} {z : Block} {j : Nat} (hu : alg.usesIm = true)
    (h : j < z.2.length) : (s.writeBlock alg z).imEntry j = some z.2[j] := by
  rw [State.imEntry, State.writeBlock_im, if_pos hu]
  exact Memory.readEntry_writeEntries _ _ _ _ h

/-- After a transform the whole block is known, RE[epos] with it. -/
theorem transformBody_known {dir : Direction} {s u : State} (hl : s.LatchesLegal) (h : transformBody dir s = .ok u) :
    ∀ j < s.cur.entries, u.reEntry j ≠ none ∧ (s.cur.alg.usesIm = true → u.imEntry j ≠ none) := by
  obtain ⟨z, -, rfl⟩ := transformBody_ok h
  intro j hj
  refine ⟨?_, fun hu => ?_⟩
  · rw [State.reEntry_writeBlock (by rwa [length_xform_re _ _ _ _ _ (sizeOk_algAllows hl.size)])]
    simp
  · rw [State.imEntry_writeBlock hu (by rwa [length_xform_im _ _ _ _ _ hu])]
    simp

/-- Writing an entry makes none UNKNOWN. -/
theorem State.reEntry_setRe_known {s : State} {i j : Nat} (v : F64) (h : s.reEntry j ≠ none) :
    (s.setRe i v).reEntry j ≠ none := by
  rcases eq_or_ne j i with rfl | hne
  · simp [State.reEntry, State.setRe_re]
  · rw [State.reEntry, State.setRe_re, Memory.readEntry_writeEntry_other _ _ _ _ (by unfold entryOffset; omega)]
    exact h

/-- A command with legal latches stops exactly on an entry it reads from the buffers as they stand: after its forward
transform a compound command meets no UNKNOWN entry (log entry 19). -/
theorem bodyOf_unknown_iff {s : State} (hl : s.LatchesLegal)
    (hp : s.cur.op.usesParity = true → s.cur.epos.toNat < s.cur.entries) :
    bodyOf s.cur.op s = .unknown ↔ s.inputsKnown = false := by
  have hblock (dir : Direction) : transformBody dir s = .unknown ↔
      (s.readBlock s.cur.alg s.cur.entries).isSome = false := by
    rw [transformBody_unknown, Option.isSome_eq_false_iff, Option.isNone_iff_eq_none]
  cases hop : s.cur.op <;> rw [hop] at hp <;> simp only [State.inputsKnown, hop, bodyOf]
  case fwd => exact hblock .forward
  case inv => exact hblock .inverse
  case setbit => rw [setbitBody_unknown, Option.isSome_eq_false_iff, Option.isNone_iff_eq_none]
  case getbit => rw [getbitBody_unknown, Option.isSome_eq_false_iff, Option.isNone_iff_eq_none]
  case extract =>
    rw [extractBody, BodyResult.andThen_unknown, ← hblock .forward]
    refine or_iff_left ?_
    rintro ⟨u, hu, hg⟩
    have hknown := transformBody_known hl hu _ (hp rfl)
    obtain ⟨z, -, rfl⟩ := transformBody_ok hu
    exact hknown.1 (getbitBody_unknown.mp hg)
  case embed =>
    rw [embedBody, BodyResult.andThen_unknown, BodyResult.andThen_unknown, ← hblock .forward, or_assoc]
    refine or_iff_left ?_
    rintro (⟨u, hu, hset⟩ | ⟨v, hv, hinv⟩)
    · have hknown := transformBody_known hl hu _ (hp rfl)
      obtain ⟨z, -, rfl⟩ := transformBody_ok hu
      exact hknown.1 (setbitBody_unknown.mp hset)
    · obtain ⟨u, hu, hset⟩ := BodyResult.andThen_ok hv
      have hknown := transformBody_known hl hu
      obtain ⟨z, -, rfl⟩ := transformBody_ok hu
      obtain ⟨x, y, -, -, rfl⟩ := setbitBody_ok hset
      obtain ⟨j, hj, hre | ⟨huse, him⟩⟩ := State.readBlock_eq_none.mp (transformBody_unknown.mp hinv)
      · exact State.reEntry_setRe_known y (hknown j hj).1 hre
      · exact (hknown j hj).2 huse him

/-! ### Which steps stop -/

theorem engineTurn_busy {s : State} (h : s.fsm = .busy) : engineTurn s = (bodyOf s.cur.op s).conclude := by
  rw [engineTurn, h]
  exact exec_cur_busy h

/-- The ENGINE's turn stops exactly if the command in progress reads an UNKNOWN entry. -/
theorem engineTurn_fault_iff {s : State} (h : MachineInv s) :
    (∃ e, engineTurn s = .fault e) ↔ s.fsm = .busy ∧ s.inputsKnown = false := by
  by_cases hbusy : s.fsm = .busy
  · rw [engineTurn_busy hbusy, ← bodyOf_unknown_iff (h.latchesLegal hbusy) (h.epos_lt hbusy)]
    exact ⟨fun ⟨e, he⟩ => ⟨hbusy, (BodyResult.conclude_fault he).1⟩,
      fun ⟨_, hu⟩ => ⟨.commandReadUnknown, BodyResult.conclude_eq_fault.mpr hu⟩⟩
  · refine iff_of_false ?_ fun h => hbusy h.1
    cases hf : s.fsm <;> simp_all [engineTurn]

/-- An accepted CMD write goes on. -/
theorem accept_goes_on {w : Word} {s : State} (hb : s.fsm ≠ .busy) : ∃ t, accept w s = .next t := by
  rcases accept_cases (w := w) hb with ⟨-, e⟩ | ⟨-, c, -, e⟩ | ⟨hidle, i, -, e⟩
  · exact ⟨_, e⟩
  · exact ⟨_, e⟩
  · rcases exec_idle hidle i with ⟨-, e'⟩ | ⟨op, f, -, e'⟩ <;> exact ⟨_, e.trans e'⟩

/-- A write that is not held back goes on. -/
theorem writeTarget_goes_on {tgt : Target} {v : Word} {s : State} (h : tgt.stalls = false ∨ s.fsm ≠ .busy) :
    ∃ t, writeTarget tgt v s = .next t := by
  cases tgt with
  | cmd => exact accept_goes_on (s := s.answering (some .okayWrite)) (h.resolve_left (by simp [Target.stalls]))
  | _ => exact ⟨_, rfl⟩

theorem answerEntry_fault_iff {s : State} {v : Option Word} :
    (∃ e, answerEntry s v = .fault e) ↔ v.isSome = false := by
  cases v <;> simp [answerEntry]

/-- A request that is not held back in BUSY names a target that never stalls (R158). -/
theorem stalls_of_not_stalled {r : Request} {s : State} {t : Target} (ht : r.target s.cfg.maxN = some t)
    (hst : stalled r s = false) : t.stalls = false ∨ s.fsm ≠ .busy := by
  simp only [stalled, ht, State.busy, Bool.and_eq_false_iff, beq_eq_false_iff_ne] at hst
  exact hst.symm

/-- Serving a request that is not held back stops exactly if it reads an UNKNOWN entry. -/
theorem serve_fault_iff {r : Request} {s : State} (hst : stalled r s = false) :
    (∃ e, serve r s = .fault e) ↔ s.readKnown r = false := by
  rcases serve_cases r s with ⟨ht, e⟩ | ⟨off, size, tgt, rfl, ht, e⟩ | ⟨off, size, v, tgt, rfl, ht, e⟩ <;> rw [e]
  · cases r <;> simp_all [State.readKnown, Request.target]
  · change locate s.cfg.maxN off size = some tgt at ht
    rw [State.readKnown, ht]
    cases tgt <;> simp [readTarget, answerEntry_fault_iff]
  · obtain ⟨t, ht⟩ := writeTarget_goes_on (v := v) (stalls_of_not_stalled ht hst)
    simp [ht, State.readKnown]

theorem engineTurn_not_refused (s : State) (e : Refusal) : engineTurn s ≠ .refused e := by
  cases hf : s.fsm <;> simp [engineTurn, hf, exec_not_refused]

theorem readTarget_not_refused (tgt : Target) (s : State) (e : Refusal) : readTarget tgt s ≠ .refused e := by
  have entry (v : Option Word) : answerEntry s v ≠ .refused e := by cases v <;> simp [answerEntry]
  cases tgt <;> simp [readTarget, entry]

theorem serve_not_refused {r : Request} {s : State} (hst : stalled r s = false) (e : Refusal) : serve r s ≠ .refused e := by
  rcases serve_cases r s with ⟨-, h⟩ | ⟨off, size, tgt, -, -, h⟩ | ⟨off, size, v, tgt, -, ht, h⟩ <;> rw [h]
  · simp
  · exact readTarget_not_refused tgt s e
  · obtain ⟨t, ht⟩ := writeTarget_goes_on (v := v) (stalls_of_not_stalled ht hst)
    simp [ht]

/-- The ENGINE is next only where no access is served. -/
theorem stalled_of_engineNext {s : State} {es rest : List Event} {r : Request} (h : EngineNext s es)
    (he : s.events = .access r :: rest) : stalled r s = true := by
  rcases h with ⟨h, -⟩ | h | ⟨r', rest', h, hst, -⟩ <;> rw [he] at h <;> cases h
  exact hst

/-- Settles O19: a reset goes on, a turn of the ENGINE stops on what its command reads, a served access on what a host read
names; and no meaning refuses. -/
theorem stopsExactlyOnUnknown : Obligations.StopsExactlyOnUnknown := by
  intro s h
  rcases step_forms s with ⟨rest, he, e⟩ | ⟨es, he, e⟩ | ⟨r, rest, he, hst, e⟩ <;> rw [e]
  · have hturn (es : List Event) : ¬EngineNext s es := by simp [EngineNext, he]
    simp [he, hturn]
  · have hserved : ¬∃ r rest, s.events = .access r :: rest ∧ stalled r s = false ∧ s.readKnown r = false := by
      rintro ⟨r, rest, her, hst, -⟩
      simp [stalled_of_engineNext he her] at hst
    refine ⟨?_, fun e => engineTurn_not_refused _ e⟩
    rw [engineTurn_fault_iff (h.withEvents es none), or_iff_left hserved]
    exact ⟨fun ⟨hb, hu⟩ => ⟨hb, ⟨es, he⟩, hu⟩, fun ⟨hb, _, hu⟩ => ⟨hb, hu⟩⟩
  · have hturn (es : List Event) : ¬EngineNext s es := fun hn => by simp [stalled_of_engineNext hn he] at hst
    refine ⟨?_, fun e => serve_not_refused (s := { s with events := rest, answer := none }) hst e⟩
    rw [serve_fault_iff (s := { s with events := rest, answer := none }) hst]
    constructor
    · exact fun hu => .inr ⟨r, rest, he, hst, hu⟩
    · rintro (⟨-, ⟨es, hn⟩, -⟩ | ⟨r', rest', he', -, hu⟩)
      · exact absurd hn (hturn es)
      · rw [he] at he'
        cases he'
        exact hu

end Sys2Proof.Machine
end

section
/-! PROOFS. A command reads and writes only its own block (R38): its body does the same in states whose blocks agree, and
leaves every byte outside the block. -/

namespace Sys2Proof.Machine

open Sys2Proof.Claims

/-! ### Legal sizes -/

/-- A size that R134 allows passes the size check. -/
theorem sizeOk_of_legalSize {c : Config} {alg : Alg} {size : Nat} (hc : c.legal = true)
    (h : LegalSize c.maxSize alg size) : sizeOk c.maxSize alg size = true := by
  obtain ⟨h1, h2, h3⟩ := h
  have hallows : algAllows alg size = true := by
    have hpow (hk : ∃ k, size = 2 ^ k) : powerOfTwo size = true := by
      obtain ⟨k, rfl⟩ := hk
      have hle : 2 ^ k < 2 ^ 7 := by
        simp only [Config.legal, Bool.and_eq_true, decide_eq_true_eq] at hc
        omega
      have hk : k < 7 := (Nat.pow_lt_pow_iff_right (by decide)).mp hle
      interval_cases k <;> simp_all [powerOfTwo]
    cases alg <;> simp_all [algAllows]
  simp [sizeOk, h1, h2, hallows]

/-! ### Reads and writes of agreeing buffers -/

/-- The same write keeps two buffers equal at every byte at which they were. -/
theorem Memory.readByte_writeEntry_congr {m m' : Memory} {b : Nat} (h : m.readByte b = m'.readByte b) (off : Nat)
    (v : Word) : (m.writeEntry off v).readByte b = (m'.writeEntry off v).readByte b := by
  simp only [Memory.writeEntry, Memory.readByte_writeBytes, h]

theorem Memory.readByte_writeEntries_congr {m m' : Memory} {b : Nat} (h : m.readByte b = m'.readByte b) (off : Nat)
    (vs : List Word) : (m.writeEntries off vs).readByte b = (m'.writeEntries off vs).readByte b := by
  induction vs generalizing m m' off with
  | nil => exact h
  | cons v vs ih => exact ih (Memory.readByte_writeEntry_congr h off v) _

theorem Memory.readEntries_congr {m m' : Memory} {off n : Nat} (h : AgreeOn m m' off n) :
    m.readEntries off n = m'.readEntries off n := by
  induction n generalizing off with
  | zero => rfl
  | succ n ih =>
    have hfirst : m.readEntry off = m'.readEntry off := Memory.readEntry_congr fun b h1 h2 => h b h1 (by omega)
    have hrest : m.readEntries (off + 8) n = m'.readEntries (off + 8) n :=
      ih fun a h1 h2 => h a (by omega) (by omega)
    rw [Memory.readEntries, Memory.readEntries, hfirst, hrest]

/-- An entry of an agreeing range reads the same. -/
theorem Memory.readEntry_of_agreeOn {m m' : Memory} {base n i : Nat} (h : AgreeOn m m' base n) (hi : i < n) :
    m.readEntry (entryOffset base i) = m'.readEntry (entryOffset base i) := by
  unfold entryOffset
  exact Memory.readEntry_congr fun b h1 h2 => h b (by omega) (by omega)

/-! ### States that agree on the block -/

/-- Two states that differ only in the buffers, and there not on the block of the command in progress; a DCT's block has
no part in IM (R38, R94). -/
structure SameBlock (s s' : State) : Prop where
  rest : s' = { s with re := s'.re, im := s'.im }
  re : AgreeOn s.re s'.re reBase s.cur.entries
  im : s.cur.alg.usesIm = true → AgreeOn s.im s'.im imBase s.cur.entries

namespace SameBlock

variable {s s' : State}

theorem cur_eq (h : SameBlock s s') : s'.cur = s.cur := by rw [h.rest]

theorem cfg_eq (h : SameBlock s s') : s'.cfg = s.cfg := by rw [h.rest]

theorem readBlock (h : SameBlock s s') :
    s'.readBlock s.cur.alg s.cur.entries = s.readBlock s.cur.alg s.cur.entries := by
  unfold State.readBlock
  rw [← Memory.readEntries_congr h.re]
  cases hu : s.cur.alg.usesIm with
  | false => rfl
  | true => rw [← Memory.readEntries_congr (h.im hu)]

theorem reEntry (h : SameBlock s s') (hp : s.cur.epos.toNat < s.cur.entries) :
    s'.reEntry s.cur.epos.toNat = s.reEntry s.cur.epos.toNat := (Memory.readEntry_of_agreeOn h.re hp).symm

theorem setRe (h : SameBlock s s') (i : Nat) (v : F64) : SameBlock (s.setRe i v) (s'.setRe i v) where
  rest := by
    conv_lhs => rw [h.rest]
    rfl
  re a h1 h2 := Memory.readByte_writeEntry_congr (h.re a h1 h2) _ v
  im := h.im

theorem writeBlock (h : SameBlock s s') (z : Block) :
    SameBlock (s.writeBlock s.cur.alg z) (s'.writeBlock s.cur.alg z) where
  rest := by
    conv_lhs => rw [h.rest]
    rfl
  re a h1 h2 := Memory.readByte_writeEntries_congr (h.re a h1 h2) _ _
  im hu a h1 h2 := by
    have hu : s.cur.alg.usesIm = true := hu
    simp only [State.writeBlock_im, hu, if_true]
    exact Memory.readByte_writeEntries_congr (h.im hu a h1 h2) _ _

theorem setResult (h : SameBlock s s') (b : Bool) :
    SameBlock { s with rbit := b, rvalid := true } { s' with rbit := b, rvalid := true } where
  rest := by
    conv_lhs => rw [h.rest]
  re := h.re
  im := h.im

theorem finish (h : SameBlock s s') : SameBlock s.finish s'.finish where
  rest := by
    conv_lhs => rw [h.rest]
    rfl
  re := h.re
  im := h.im

theorem raiseError (h : SameBlock s s') (c : ErrCode) : SameBlock (s.raiseError c) (s'.raiseError c) where
  rest := by
    conv_lhs => rw [h.rest]
    rfl
  re := h.re
  im := h.im

end SameBlock

/-! ### Bodies on agreeing states -/

/-- Two bodies that end alike, in states that agree on the block. -/
inductive BodyResult.Agree : BodyResult → BodyResult → Prop where
  | ok {s s' : State} (h : SameBlock s s') : Agree (.ok s) (.ok s')
  | numeric {s s' : State} (h : SameBlock s s') : Agree (.numeric s) (.numeric s')
  | unknown : Agree .unknown .unknown

/-- A phase ends alike wherever the states before it agree on the block and its position lies in it. -/
def RespectsBlock (k : State → BodyResult) : Prop :=
  ∀ s s', SameBlock s s' → s.cur.epos.toNat < s.cur.entries → BodyResult.Agree (k s) (k s')

theorem transformBody_respectsBlock (dir : Direction) : RespectsBlock (transformBody dir) := by
  intro s s' h _
  unfold transformBody
  rw [h.cur_eq, h.cfg_eq, h.readBlock]
  cases s.readBlock s.cur.alg s.cur.entries with
  | none => exact .unknown
  | some z => exact .ok (h.writeBlock _)

theorem setbitBody_respectsBlock : RespectsBlock setbitBody := by
  intro s s' h hp
  unfold setbitBody
  rw [h.cur_eq, h.reEntry hp]
  cases s.reEntry s.cur.epos.toNat with
  | none => exact .unknown
  | some x =>
    cases hy : setParity s.cur.bit x s.cur.tol with
    | none => simpa [hy] using .numeric h
    | some y => simpa [hy] using .ok (h.setRe _ y)

theorem getbitBody_respectsBlock : RespectsBlock getbitBody := by
  intro s s' h hp
  unfold getbitBody
  rw [h.cur_eq, h.reEntry hp]
  cases s.reEntry s.cur.epos.toNat with
  | none => exact .unknown
  | some x =>
    cases hb : getParity x s.cur.tol with
    | none => simpa [hb] using .numeric h
    | some b =>
      have hset := h.setResult b
      rw [h.cur_eq] at hset
      simpa [hb] using .ok hset

/-- Phases one after the other, the first of which keeps the latches. -/
theorem RespectsBlock.andThen {j k : State → BodyResult} (hj : RespectsBlock j) (hk : RespectsBlock k)
    (hcur : ∀ {s u}, j s = .ok u → u.cur = s.cur) : RespectsBlock fun s => (j s).andThen k := by
  intro s s' h hp
  have hagree := hj s s' h hp
  show BodyResult.Agree ((j s).andThen k) ((j s').andThen k)
  generalize hr : j s = r, j s' = r' at hagree
  cases hagree with
  | ok hu => exact hk _ _ hu (hcur hr ▸ hp)
  | numeric hu => exact .numeric hu
  | unknown => exact .unknown

theorem transformBody_cur {dir : Direction} {s u : State} (h : transformBody dir s = .ok u) : u.cur = s.cur := by
  obtain ⟨z, -, rfl⟩ := transformBody_ok h
  rfl

theorem setbitBody_cur {s u : State} (h : setbitBody s = .ok u) : u.cur = s.cur := by
  obtain ⟨x, y, -, -, rfl⟩ := setbitBody_ok h
  rfl

theorem bodyOf_respectsBlock (op : BlockOp) : RespectsBlock (bodyOf op) := by
  have hforward := transformBody_respectsBlock .forward
  have hinverse := transformBody_respectsBlock .inverse
  cases op with
  | fwd => exact hforward
  | inv => exact hinverse
  | setbit => exact setbitBody_respectsBlock
  | getbit => exact getbitBody_respectsBlock
  | embed =>
    refine (hforward.andThen setbitBody_respectsBlock transformBody_cur).andThen hinverse fun h => ?_
    obtain ⟨u, hu, hv⟩ := BodyResult.andThen_ok h
    exact (setbitBody_cur hv).trans (transformBody_cur hu)
  | extract => exact hforward.andThen getbitBody_respectsBlock transformBody_cur

/-! ### Bytes outside the block -/

/-- Nothing outside the block of the command in progress changes between two states, nor anything of IM for a DCT. -/
structure KeepsOutside (s t : State) : Prop where
  cfg : t.cfg = s.cfg
  cur : t.cur = s.cur
  re : ∀ a, a < reBase ∨ reBase + 8 * s.cur.entries ≤ a → t.re.readByte a = s.re.readByte a
  im : ∀ a, a < imBase ∨ imBase + 8 * s.cur.entries ≤ a → t.im.readByte a = s.im.readByte a
  dct : s.cur.alg.usesIm = false → t.im = s.im

namespace KeepsOutside

theorem refl (s : State) : KeepsOutside s s := ⟨rfl, rfl, fun _ _ => rfl, fun _ _ => rfl, fun _ => rfl⟩

theorem trans {s t u : State} (h : KeepsOutside s t) (h' : KeepsOutside t u) : KeepsOutside s u where
  cfg := h'.cfg.trans h.cfg
  cur := h'.cur.trans h.cur
  re a ha := (h'.re a (by rwa [h.cur])).trans (h.re a ha)
  im a ha := (h'.im a (by rwa [h.cur])).trans (h.im a ha)
  dct hu := (h'.dct (by rwa [h.cur])).trans (h.dct hu)

theorem latchesLegal {s t : State} (h : KeepsOutside s t) (hl : s.LatchesLegal) : t.LatchesLegal :=
  ⟨h.cfg ▸ hl.cfg, by rw [h.cfg, h.cur]; exact hl.size⟩

end KeepsOutside

theorem transformBody_keepsOutside {dir : Direction} {s t : State} (hl : s.LatchesLegal)
    (h : transformBody dir s = .ok t) : KeepsOutside s t := by
  obtain ⟨z, -, rfl⟩ := transformBody_ok h
  refine ⟨rfl, rfl, fun a ha => ?_, fun a ha => ?_, fun hu => by simp [hu]⟩
  · refine Memory.readByte_writeEntries_outside _ _ _ _ ?_
    rwa [length_xform_re _ _ _ _ _ (sizeOk_algAllows hl.size)]
  · rw [State.writeBlock_im]
    split_ifs with hu
    · refine Memory.readByte_writeEntries_outside _ _ _ _ ?_
      rwa [length_xform_im _ _ _ _ _ hu]
    · rfl

theorem setbitBody_keepsOutside {s t : State} (hp : s.cur.epos.toNat < s.cur.entries) (h : setbitBody s = .ok t) :
    KeepsOutside s t := by
  obtain ⟨x, y, -, -, rfl⟩ := setbitBody_ok h
  refine ⟨rfl, rfl, fun a ha => Memory.readByte_writeEntry_outside _ _ _ _ ?_, fun _ _ => rfl, fun _ => rfl⟩
  unfold entryOffset
  omega

theorem getbitBody_keepsOutside {s t : State} (h : getbitBody s = .ok t) : KeepsOutside s t := by
  obtain ⟨x, b, -, -, rfl⟩ := getbitBody_ok h
  exact ⟨rfl, rfl, fun _ _ => rfl, fun _ _ => rfl, fun _ => rfl⟩

/-- A body that goes through, or raises NUMERIC, writes only the block (R38). -/
theorem bodyOf_keepsOutside {op : BlockOp} {s t : State} (hl : s.LatchesLegal) (hp : s.cur.epos.toNat < s.cur.entries)
    (h : bodyOf op s = .ok t ∨ bodyOf op s = .numeric t) : KeepsOutside s t := by
  cases op with
  | fwd => exact h.elim (transformBody_keepsOutside hl) fun h => absurd h (transformBody_not_numeric _ _ _)
  | inv => exact h.elim (transformBody_keepsOutside hl) fun h => absurd h (transformBody_not_numeric _ _ _)
  | setbit => exact h.elim (setbitBody_keepsOutside hp) fun h => setbitBody_numeric h ▸ .refl s
  | getbit => exact h.elim getbitBody_keepsOutside fun h => getbitBody_numeric h ▸ .refl s
  | embed =>
    rcases h with h | h
    · obtain ⟨u, v, hu, hv, ht⟩ := embedBody_ok h
      have hforward := transformBody_keepsOutside hl hu
      have hset := hforward.trans (setbitBody_keepsOutside (by rwa [hforward.cur]) hv)
      exact hset.trans (transformBody_keepsOutside (hset.latchesLegal hl) ht)
    · exact transformBody_keepsOutside hl (embedBody_numeric h).1
  | extract =>
    rcases h with h | h
    · obtain ⟨u, hu, ht⟩ := extractBody_ok h
      exact (transformBody_keepsOutside hl hu).trans (getbitBody_keepsOutside ht)
    · exact transformBody_keepsOutside hl (extractBody_numeric h).1

/-! ### The claim -/

/-- In BUSY a command of the table concludes the body of its operation (R164). -/
theorem exec_busy {i : Instr} {op : BlockOp} {f : CmdFields} {s : State}
    (hi : (i, op) ∈ transforms f ++ parityCommands f) (hb : s.fsm = .busy) : exec i s = (bodyOf op s).conclude := by
  simp only [transforms, parityCommands, List.cons_append, List.nil_append, List.mem_cons, List.not_mem_nil, or_false,
    Prod.mk.injEq] at hi
  rcases hi with ⟨rfl, rfl⟩ | ⟨rfl, rfl⟩ | ⟨rfl, rfl⟩ | ⟨rfl, rfl⟩ | ⟨rfl, rfl⟩ | ⟨rfl, rfl⟩ <;>
    exact State.byPhase_busy hb _ _ _

/-- Bodies that end alike end the command alike. -/
theorem BodyResult.Agree.conclude {r r' : BodyResult} {t : State} (h : r.Agree r') (ht : r.conclude = .next t) :
    ∃ u, r'.conclude = .next u ∧ SameBlock t u := by
  cases h with
  | ok h => cases ht; exact ⟨_, rfl, h.finish⟩
  | numeric h => cases ht; exact ⟨_, rfl, h.raiseError .numeric⟩
  | unknown => cases ht

/-- A command that completes, with or without NUMERIC, writes only its block. -/
theorem conclude_keepsOutside {op : BlockOp} {s t : State} (hl : s.LatchesLegal)
    (hp : s.cur.epos.toNat < s.cur.entries) (h : (bodyOf op s).conclude = .next t) : KeepsOutside s t := by
  rcases BodyResult.conclude_next h with ⟨u, hu, rfl⟩ | ⟨u, hu, rfl⟩
  · have hkeeps := bodyOf_keepsOutside hl hp (.inl hu)
    exact { hkeeps with }
  · have hkeeps := bodyOf_keepsOutside hl hp (.inr hu)
    exact { hkeeps with }

/-- Settles O43: the body ends alike in both states, and in each it keeps what lies outside the block. -/
theorem onlyTheBlockMatters : Obligations.OnlyTheBlockMatters := by
  intro s f i op m n t hi hb hc hsize hp hm hn ht
  have hl : s.LatchesLegal := ⟨hc, sizeOk_of_legalSize hc hsize⟩
  have hsame : SameBlock s { s with re := m, im := n } := ⟨rfl, hm, hn⟩
  rw [exec_busy hi hb] at ht
  obtain ⟨u, hu, htu⟩ := (bodyOf_respectsBlock op _ _ hsame hp).conclude ht
  have hs := conclude_keepsOutside hl hp ht
  have hs' := conclude_keepsOutside (s := { s with re := m, im := n }) ⟨hl.cfg, hl.size⟩ hp hu
  refine ⟨u, (exec_busy hi (s := { s with re := m, im := n }) hb).trans hu, htu.rest, hs.cur ▸ htu.re,
    fun a ha => ⟨hs'.re a ha, hs.re a ha⟩, ?_⟩
  split_ifs with huse
  · exact ⟨hs.cur ▸ htu.im (hs.cur ▸ huse), fun a ha => ⟨hs'.im a ha, hs.im a ha⟩⟩
  · have hdct : s.cur.alg.usesIm = false := by simpa using huse
    exact ⟨hs.dct hdct, hs'.dct hdct⟩

end Sys2Proof.Machine
end

section
/-! PROOFS. Outside BUSY no step reads the hidden latches (R23, R41, R153): with any others it does the same, layer by layer
from acceptance to the step. -/

namespace Sys2Proof.Machine

/-- The latches a command in progress will use agree; a transform uses neither position nor tolerance (R133). -/
structure Current.SameUsed (c d : Current) : Prop where
  op : c.op = d.op
  alg : c.alg = d.alg
  bit : c.bit = d.bit
  size : c.size = d.size
  parity : d.op.usesParity = true → c.epos = d.epos ∧ c.tol = d.tol

/-- Two outcomes that differ in the latches alone, and not in those a command in progress will use. -/
inductive SameButLatches : (o o' : Host.Outcome State Fault Refusal) → Prop where
  | next {u v : State} (e : u = { v with cur := u.cur }) (h : u.fsm = .busy → u.cur.SameUsed v.cur) :
      SameButLatches (.next u) (.next v)
  | fault (e : Fault) : SameButLatches (.fault e) (.fault e)
  | refused (e : Refusal) : SameButLatches (.refused e) (.refused e)

/-- The same state with other latches. -/
def State.withLatches (s : State) (c : Current) : State := { s with cur := c }

/-- An update that ends outside BUSY and does the same whatever the latches are. -/
theorem SameButLatches.of_withLatches {u t : State} {c : Current} (hb : t.fsm ≠ .busy) (h : u = t.withLatches c) :
    SameButLatches (.next u) (.next t) := by
  subst h
  exact .next rfl fun hbusy => absurd hbusy hb

/-! ### Acceptance -/

/-- Acceptance raises the same error, or latches the same command (R133). -/
theorem acceptBlock_sameButLatches (s : State) (c : Current) (op : BlockOp) (f : CmdFields) :
    SameButLatches (.next ((s.withLatches c).acceptBlock op f)) (.next (s.acceptBlock op f)) := by
  have failed (code : ErrCode) : SameButLatches (.next ((s.withLatches c).beginAcceptance.raiseError code))
      (.next (s.beginAcceptance.raiseError code)) := .next rfl nofun
  rcases s.acceptBlock_cases op f with ⟨h1, e⟩ | ⟨h1, h2, e⟩ | ⟨h1, h2, ⟨h3, e⟩ | ⟨p, h3, ⟨h4, e⟩ | ⟨h4, e⟩⟩⟩ <;> rw [e]
  · simpa [State.acceptBlock, State.withLatches, h1] using failed .badSize
  · rw [State.acceptBlock_transform (s := s.withLatches c) h2 h1]
    exact .next rfl fun _ => ⟨rfl, rfl, rfl, rfl, fun hop => by simp [h2] at hop⟩
  · simpa [State.acceptBlock, State.withLatches, h1, h2, h3] using failed .badPos
  · simpa [State.acceptBlock, State.withLatches, h1, h2, h3, h4] using failed .badTol
  · rw [State.acceptBlock_parity (s := s.withLatches c) h2 h1 h3 h4]
    exact .next rfl fun _ => ⟨rfl, rfl, rfl, rfl, fun _ => ⟨rfl, rfl⟩⟩

theorem execNop_idle {s : State} (h : s.fsm = .idle) : execNop s = .next { s.beginAcceptance with done := true } := by
  simp [execNop, h]

theorem exec_sameButLatches {s : State} (hidle : s.fsm = .idle) (c : Current) (i : Instr) :
    SameButLatches (exec i (s.withLatches c)) (exec i s) := by
  have hidle' : (s.withLatches c).fsm = .idle := hidle
  have block (op : BlockOp) (f : CmdFields) (b : State → BodyResult) :
      SameButLatches ((s.withLatches c).byPhase op f b) (s.byPhase op f b) := by
    rw [State.byPhase_idle hidle, State.byPhase_idle hidle']
    exact acceptBlock_sameButLatches s c op f
  cases i with
  | nop =>
    rw [exec, exec, execNop_idle hidle, execNop_idle hidle']
    exact .of_withLatches (c := c) (by simp [hidle]) rfl
  | fwd f => exact block .fwd f _
  | inv f => exact block .inv f _
  | setbit f => exact block .setbit f _
  | getbit f => exact block .getbit f _
  | embed f => exact block .embed f _
  | extract f => exact block .extract f _

theorem accept_sameButLatches {s : State} (hb : s.fsm ≠ .busy) (c : Current) (w : Word) :
    SameButLatches (accept w (s.withLatches c)) (accept w s) := by
  unfold accept
  have hhalted : (s.withLatches c).halted = s.halted := rfl
  rw [hhalted]
  split_ifs with hh
  · exact .of_withLatches hb rfl
  · have hidle : s.fsm = .idle := by
      cases hf : s.fsm <;> simp_all [State.halted]
    cases decode w with
    | fatal code => exact .next rfl nofun
    | cmd i => exact exec_sameButLatches hidle c i

/-! ### Served accesses -/

/-- Outside BUSY a soft reset aborts no command, so it does not look at the latched block (R125). -/
theorem State.writeCtrl_withLatches {s : State} (hb : s.fsm ≠ .busy) (c : Current) (v : Word) :
    (s.withLatches c).writeCtrl v = (s.writeCtrl v).withLatches c := by
  have hbusy : s.busy = false := by simp [State.busy, hb]
  have hbusy' : (s.withLatches c).busy = false := hbusy
  unfold State.writeCtrl State.softReset
  rw [hbusy, hbusy']
  cases bit v 0 <;> rfl

theorem State.writeCtrl_not_busy {s : State} (hb : s.fsm ≠ .busy) (v : Word) : (s.writeCtrl v).fsm ≠ .busy := by
  rcases s.writeCtrl_cases v with ⟨-, e⟩ | ⟨-, e⟩ <;> rw [e]
  · simp
  · exact hb

theorem State.statusW1C_withLatches (s : State) (c : Current) (v : Word) :
    (s.withLatches c).statusW1C v = (s.statusW1C v).withLatches c := by
  rw [State.statusW1C_eq, State.statusW1C_eq]
  rfl

theorem writeTarget_sameButLatches {s : State} (hb : s.fsm ≠ .busy) (c : Current) (tgt : Target) (v : Word) :
    SameButLatches (writeTarget tgt v (s.withLatches c)) (writeTarget tgt v s) := by
  have hb' : (s.answering (some .okayWrite)).fsm ≠ .busy := hb
  cases tgt with
  | id | cfg | result | pos | tol | re i | im i => exact .of_withLatches (c := c) hb rfl
  | ctrl => exact .of_withLatches (State.writeCtrl_not_busy hb' v) (State.writeCtrl_withLatches hb' c v)
  | status => exact .of_withLatches (by simpa using hb) (State.statusW1C_withLatches (s.answering _) c v)
  | cmd => exact accept_sameButLatches hb' c v

theorem readTarget_sameButLatches {s : State} (hb : s.fsm ≠ .busy) (c : Current) (tgt : Target) :
    SameButLatches (readTarget tgt (s.withLatches c)) (readTarget tgt s) := by
  have entry (v : Option Word) : SameButLatches (answerEntry (s.withLatches c) v) (answerEntry s v) := by
    cases v with
    | none => exact .fault _
    | some d => exact .of_withLatches (c := c) hb rfl
  cases tgt with
  | re i | im i => exact entry _
  | _ => exact .of_withLatches (c := c) hb rfl

theorem serve_sameButLatches {s : State} (hb : s.fsm ≠ .busy) (c : Current) (r : Request) :
    SameButLatches (serve r (s.withLatches c)) (serve r s) := by
  have hcfg : (s.withLatches c).cfg = s.cfg := rfl
  unfold serve
  rw [hcfg]
  cases r.target s.cfg.maxN with
  | none => exact .of_withLatches (c := c) hb rfl
  | some tgt =>
    cases r with
    | read off size => exact readTarget_sameButLatches hb c tgt
    | write off size v => exact writeTarget_sameButLatches hb c tgt v

/-! ### The step -/

theorem engineTurn_not_busy {s : State} (hb : s.fsm ≠ .busy) : engineTurn s = .next s := by
  cases h : s.fsm <;> simp_all [engineTurn]

theorem step_sameButLatches {s : State} (hb : s.fsm ≠ .busy) (c : Current) :
    SameButLatches (step (s.withLatches c)) (step s) := by
  have turn (es : List Event) : SameButLatches
      (engineTurn { s.withLatches c with events := es, answer := none })
      (engineTurn { s with events := es, answer := none }) := by
    rw [engineTurn_not_busy (s := { s with events := es, answer := none }) hb,
      engineTurn_not_busy (s := { s.withLatches c with events := es, answer := none }) hb]
    exact .of_withLatches (c := c) hb rfl
  have hevents : (s.withLatches c).events = s.events := rfl
  unfold step advance
  rw [hevents]
  rcases s.events with _ | ⟨r | _ | _, rest⟩
  case nil => exact turn s.events
  case tick => exact turn rest
  case hardwareReset => exact .next rfl nofun
  case access =>
    have hstalled : stalled r (s.withLatches c) = stalled r s := rfl
    simp only [hstalled]
    split_ifs
    · exact turn s.events
    · exact serve_sameButLatches (s := { s with events := rest, answer := none }) hb c r

/-- Settles O16: the two steps end alike but for the latches, and a command accepted in them has latched alike what it
will use. -/
theorem latchesUnreadOutsideBusy : Obligations.LatchesUnreadOutsideBusy := by
  intro s c hb
  have hsame : SameButLatches (step { s with cur := c }) (step s) := step_sameButLatches hb c
  refine ⟨fun u hu => ?_, fun e he => ?_⟩
  · rw [hu] at hsame
    generalize step s = o at hsame
    cases hsame with
    | next e h =>
      refine ⟨_, rfl, e, fun hbusy => ?_⟩
      obtain ⟨hop, halg, hbit, hsize, hparity⟩ := h hbusy
      exact ⟨hop, halg, hbit, hsize, hparity⟩
  · rw [he] at hsame
    generalize step s = o at hsame
    cases hsame
    rfl

end Sys2Proof.Machine
end

section
/-! PROOFS. The bus: which accesses are answered ERROR (R48 to R51, R140), what a host access of a buffer entry does (R35, R36,
R47, R52, R53), and that a command in progress keeps its operands (R56, R158). -/

namespace Sys2Proof.Machine

open Sys2Proof.Claims

/-! ### Proper accesses -/

/-- A proper access is one that names a target (R48, R49, R51). -/
theorem proper_iff_locate {maxN off size : Nat} (hN : maxN ≤ 4096) :
    Proper maxN off size ↔ ∃ t, locate maxN off size = some t := by
  constructor
  · rintro ⟨rfl, h8, hreg | ⟨hlo, hhi⟩ | ⟨hlo, hhi⟩⟩
    · obtain ⟨k, rfl⟩ : ∃ k, off = 8 * k := ⟨off / 8, by omega⟩
      have hk : k < 8 := by omega
      interval_cases k <;> exact ⟨_, rfl⟩
    · obtain ⟨i, rfl⟩ : ∃ i, off = 0x8000 + 8 * i := ⟨(off - 0x8000) / 8, by omega⟩
      exact ⟨_, locate_re hN (by omega)⟩
    · obtain ⟨i, rfl⟩ : ∃ i, off = 0x10000 + 8 * i := ⟨(off - 0x10000) / 8, by omega⟩
      exact ⟨_, locate_im hN (by omega)⟩
  · rintro ⟨t, ht⟩
    obtain ⟨rfl, hoff⟩ := (locate_eq_some hN).mp ht
    unfold Proper Mapped
    cases t <;> simp only at hoff <;> omega

/-- A request that names no target is answered ERROR at once, in BUSY as well, with no other effect (R140). -/
theorem step_untargeted {s : State} {r : Request} {rest : List Event} (he : s.events = .access r :: rest)
    (ht : r.target s.cfg.maxN = none) : step s = .next { s with events := rest, answer := some .error } := by
  rw [step_access he (by simp [stalled, ht])]
  simp [serve, ht, State.answering]

/-! ### The answer to an access that names a target -/

@[simp] theorem State.acceptBlock_answer (s : State) (op : BlockOp) (f : CmdFields) :
    (s.acceptBlock op f).answer = s.answer := by
  rcases s.acceptBlock_cases op f with ⟨-, e⟩ | ⟨-, -, e⟩ | ⟨-, -, ⟨-, e⟩ | ⟨p, -, ⟨-, e⟩ | ⟨-, e⟩⟩⟩ <;> simp [e]

@[simp] theorem State.writeCtrl_answer (s : State) (v : Word) : (s.writeCtrl v).answer = s.answer := by
  rcases s.writeCtrl_cases v with ⟨-, e⟩ | ⟨-, e⟩ <;> simp [e]

theorem CmdEffect.answer_eq {w : Word} {b t : State} (h : CmdEffect w b t) : t.answer = b.answer := by
  cases h with
  | ignored _ e => rw [e]
  | fatal _ c _ e => simp [e]
  | nop _ _ e => simp [e]
  | block _ i op f _ _ e => simp [e]

/-- A write that is not held back is answered OKAY, whatever it does (R53). -/
theorem writeTarget_answer {tgt : Target} {v : Word} {s t : State} (h : tgt.stalls = false ∨ s.fsm ≠ .busy)
    (hw : writeTarget tgt v s = .next t) : t.answer = some .okayWrite := by
  cases tgt with
  | cmd =>
    have hb : (s.answering (some .okayWrite)).fsm ≠ .busy := h.resolve_left (by simp [Target.stalls])
    exact (accept_effect hb hw).answer_eq
  | ctrl => cases hw; simp
  | status => cases hw; simp
  | _ => cases hw; rfl

/-- In the ENGINE's turn the port answers nothing (R158). -/
theorem engineTurn_answer {s t : State} {es : List Event}
    (h : engineTurn { s with events := es, answer := none } = .next t) : t.answer = none := by
  rcases engineTurn_effect h with ⟨-, e⟩ | ⟨-, e | e⟩ <;> rw [e]

/-- A request that names a target is not answered ERROR: it waits, or it is answered OKAY. -/
theorem step_targeted_answer {s t : State} {r : Request} {rest : List Event} {tgt : Target}
    (he : s.events = .access r :: rest) (htgt : r.target s.cfg.maxN = some tgt) (h : step s = .next t) :
    t.answer ≠ some .error := by
  cases hst : stalled r s with
  | true =>
    rw [step_stalled he hst] at h
    simp [engineTurn_answer (es := s.events) h]
  | false =>
    rw [step_access he hst] at h
    rcases serve_cases r { s with events := rest, answer := none } with ⟨hnone, -⟩ | ⟨off, size, tgt', -, -, e⟩ |
      ⟨off, size, v, tgt', -, ht', e⟩
    · simp [htgt] at hnone
    · obtain ⟨d, rfl⟩ := readTarget_next (e ▸ h)
      simp
    · simp [writeTarget_answer (stalls_of_not_stalled ht' hst) (e ▸ h)]

/-- Settles O44: the accesses that are not proper are those that name no target, and only those are answered ERROR. -/
theorem busErrors : Obligations.BusErrors := by
  intro s r rest off size v hc he hr _
  have hproper := proper_iff_locate (off := off) (size := size) (Config.maxN_le hc).2
  have htarget : r.target s.cfg.maxN = locate s.cfg.maxN off size := by rcases hr with rfl | rfl <;> rfl
  rw [hproper, ← htarget]
  refine ⟨fun hnone => ?_, fun ⟨tgt, htgt⟩ t h => step_targeted_answer he htgt h⟩
  exact step_untargeted he (Option.eq_none_iff_forall_ne_some.mpr fun tgt htgt => hnone ⟨tgt, htgt⟩)

/-! ### Buffer entries -/

/-- Byte `k` of an entry just written is bits `8k+7:8k` of the word (R47). -/
theorem Memory.readByte_writeEntry_byte (m : Memory) (off : Nat) (v : Word) {k : Nat} (hk : k < 8) :
    (m.writeEntry off v).readByte (off + k) = some (v.extractLsb' (8 * k) 8) := by
  rw [Memory.writeEntry, Memory.readByte_writeBytes, if_pos (by omega), Nat.add_sub_cancel_left]
  congr 1
  apply BitVec.eq_of_toNat_eq
  simp [BitVec.extractLsb'_toNat, Nat.shiftRight_eq_div_pow, pow_mul]

/-- Writing an entry stores its word, byte by byte, and leaves every byte outside it (R47). -/
theorem Memory.writeEntry_stores (m : Memory) (off : Nat) (v : Word) :
    (m.writeEntry off v).readEntry off = some v ∧
      (∀ k < 8, (m.writeEntry off v).readByte (off + k) = some (v.extractLsb' (8 * k) 8)) ∧
      (∀ a, a < off ∨ off + 8 ≤ a → (m.writeEntry off v).readByte a = m.readByte a) :=
  ⟨m.readEntry_writeEntry_same off v, fun _ hk => m.readByte_writeEntry_byte off v hk,
    fun a ha => m.readByte_writeEntry_outside off a v ha⟩

/-- Settles O49: outside BUSY the write is served, and writes the eight bytes of its entry. -/
theorem entryWrites : Obligations.EntryWrites := by
  intro s rest i v hb hc hi
  have hN := (Config.maxN_le hc).2
  refine ⟨fun h => ?_, fun h => ?_⟩
  · rw [step_write h (locate_re hN hi) (.inr hb)]
    exact ⟨_, rfl, rfl, s.re.writeEntry_stores _ v⟩
  · rw [step_write h (locate_im hN hi) (.inr hb)]
    exact ⟨_, rfl, rfl, s.im.writeEntry_stores _ v⟩

/-- Settles O50: outside BUSY the read is served, and answers the entry or stops as it is known or not. -/
theorem entryReads : Obligations.EntryReads := by
  intro s rest i hb hc hi
  have hN := (Config.maxN_le hc).2
  refine ⟨fun h => ?_, fun h => ?_⟩
  · rw [step_read h (locate_re hN hi) (.inr hb)]
    change answerEntry _ (s.reEntry i) = _
    cases s.reEntry i <;> rfl
  · rw [step_read h (locate_im hN hi) (.inr hb)]
    change answerEntry _ (s.imEntry i) = _
    cases s.imEntry i <;> rfl

/-! ### A command in progress -/

/-- An access served while a command stays BUSY changes at most IRQ_EN and STATUS (R158). -/
theorem AccessEffect.while_busy {s t : State} {rest : List Event} (h : AccessEffect s t rest) (hs : s.fsm = .busy)
    (ht : t.fsm = .busy) : t =
      { s with
        events := rest, answer := t.answer, irqEn := t.irqEn, done := t.done, err := t.err, errCode := t.errCode } := by
  cases h with
  | answered a e => rw [e]; rfl
  | ctrl v _ e =>
    rcases (s.served rest .okayWrite).writeCtrl_cases v with ⟨-, hw⟩ | ⟨-, hw⟩ <;> rw [hw] at e
    · simp [e] at ht
    · rw [e]; rfl
  | status v _ e => rw [e, State.statusW1C_eq]; rfl
  | pos v hb _ _ => exact absurd hs hb
  | tol v hb _ _ => exact absurd hs hb
  | cmd v hb _ _ => exact absurd hs hb
  | re i v hb _ _ _ => exact absurd hs hb
  | im i v hb _ _ _ => exact absurd hs hb

/-- Settles O17: a reset and a turn of the ENGINE end BUSY, and an access served while it stays changes only flags. -/
theorem busyKeepsOperands : Obligations.BusyKeepsOperands := by
  intro s t hs h ht
  cases step_effect h with
  | reset rest _ e => simp [e] at ht
  | turn es _ hturn =>
    rcases engineTurn_flags hturn with ⟨hne, -⟩ | ⟨-, hidle, -⟩
    · exact absurd hs hne
    · simp [hidle] at ht
  | served r rest _ e =>
    rw [e.while_busy hs ht]
    exact ⟨rfl, rfl, rfl, rfl, rfl, rfl, rfl, rfl⟩

end Sys2Proof.Machine
end

section
/-! PROOFS. The decoder and the encoder are inverse to each other (R69, R77): the codes of the fields, the decoder
verdict by verdict, and the encoded word as a sum and as an OR of its fields. -/

namespace Sys2Proof

/-! ### Codes -/

@[simp] theorem algOfCode_code (a : Alg) : algOfCode a.code = some a := by cases a <;> rfl

/-- The codes from 5 on are reserved (R65, R73). -/
theorem algOfCode_eq_none_iff {n : Nat} : algOfCode n = none ↔ 5 ≤ n := by
  constructor
  · intro h
    by_contra hn
    interval_cases n <;> cases h
  · intro h
    obtain ⟨k, rfl⟩ := Nat.exists_eq_add_of_le' h
    rfl

theorem algOfCode_eq_some_iff {n : Nat} {a : Alg} : algOfCode n = some a ↔ a.code = n := by
  constructor
  · intro h
    have hn : n < 5 := by
      by_contra hn
      simp [algOfCode_eq_none_iff.mpr (not_lt.mp hn)] at h
    interval_cases n <;> cases h <;> rfl
  · rintro rfl
    exact algOfCode_code a

theorem Instr.fields_eq_none_iff {i : Instr} : i.fields = none ↔ i = .nop := by cases i <;> simp [Instr.fields]

/-- A command with fields is the one its OP code and its fields name (R64). -/
theorem instrOfOp_op {i : Instr} {f : CmdFields} (h : i.fields = some f) : instrOfOp i.op f = some i := by
  cases i <;> cases h <;> rfl

/-- The codes 1 to 6 are those of the commands with fields (R64). -/
theorem exists_instr_of_op {op : Nat} (h1 : 1 ≤ op) (h6 : op ≤ 6) (f : CmdFields) :
    ∃ i : Instr, i.op = op ∧ i.fields = some f := by
  interval_cases op
  · exact ⟨.fwd f, rfl, rfl⟩
  · exact ⟨.inv f, rfl, rfl⟩
  · exact ⟨.setbit f, rfl, rfl⟩
  · exact ⟨.getbit f, rfl, rfl⟩
  · exact ⟨.embed f, rfl, rfl⟩
  · exact ⟨.extract f, rfl, rfl⟩

theorem Instr.op_bounds {i : Instr} {f : CmdFields} (h : i.fields = some f) : 1 ≤ i.op ∧ i.op ≤ 6 := by
  cases i <;> cases h <;> simp [Instr.op]

theorem Instr.wellFormed_of_fields {i : Instr} {f : CmdFields} (h : i.fields = some f) :
    i.wellFormed = f.wellFormed := by cases i <;> cases h <;> rfl

theorem encode_of_fields {i : Instr} {f : CmdFields} (h : i.fields = some f) :
    encode i = BitVec.ofNat 64 (i.op + encodeFields f) := by cases i <;> cases h <;> rfl

/-! ### The fields of a word -/

theorem bit_toNat (w : Word) (i : Nat) : (bit w i).toNat = bits w i 1 := by
  have h : bits w i 1 < 2 := bits_lt w i 1
  unfold bit
  interval_cases bits w i 1 <;> rfl

theorem reservedZero_iff {w : Word} :
    reservedZero w = true ↔ bits w 32 32 = 0 ∧ bits w 24 8 = 0 ∧ bits w 9 7 = 0 := by
  simp [reservedZero, and_assoc]

theorem fieldsOf_possel_code (w : Word) (a : Alg) : (fieldsOf w a).possel.code = bits w 8 1 := by
  rw [← bit_toNat]
  simp only [fieldsOf]
  cases bit w 8 <;> rfl

theorem fieldsOf_wellFormed (w : Word) (a : Alg) : (fieldsOf w a).wellFormed = true :=
  decide_eq_true (bits_lt w 16 8)

/-- A command with the fields of a word is encoded from those fields (R77). -/
theorem encodeFields_fieldsOf (w : Word) (a : Alg) : encodeFields (fieldsOf w a) =
    a.code * 16 + bits w 7 1 * 128 + bits w 8 1 * 256 + bits w 16 8 * 65536 := by
  rw [encodeFields, fieldsOf_possel_code, ← bit_toNat w 7]
  rfl

/-- A word whose reserved fields are 0 is the sum of its other fields (R63). -/
theorem toNat_eq_fields {w : Word} (h : reservedZero w = true) : w.toNat =
    bits w 0 4 + (bits w 4 3 * 16 + bits w 7 1 * 128 + bits w 8 1 * 256 + bits w 16 8 * 65536) := by
  obtain ⟨h2, h1, h0⟩ := reservedZero_iff.mp h
  have hw := w.isLt
  simp only [bits] at *
  omega

/-- The fields read back from the word of a well-formed command are its own (R69, R77). -/
theorem fieldsOf_encoded {f : CmdFields} {op : Nat} (hf : f.wellFormed = true) (hop : op < 16) :
    fieldsOf (BitVec.ofNat 64 (op + encodeFields f)) f.alg = f := by
  obtain ⟨-, -, hb, hp, hs, -⟩ := bits_of_fields hf hop
  obtain ⟨alg, b, p, size⟩ := f
  unfold fieldsOf bit
  congr 1
  · rw [hb]
    cases b <;> rfl
  · rw [hp]
    cases p <;> rfl

/-! ### The decoder, verdict by verdict -/

theorem decode_eq_illegal {w : Word} (h : reservedZero w = false ∨ 7 ≤ bits w 0 4) : decode w = .fatal .illegal := by
  unfold decode
  rcases h with h | h
  · simp [h]
  · simp [h]

theorem decode_eq_nop {w : Word} (hr : reservedZero w = true) (hop : bits w 0 4 = 0) : decode w = .cmd .nop := by
  simp [decode, hr, hop]

theorem decode_eq_badAlg {w : Word} (hr : reservedZero w = true) (h1 : 1 ≤ bits w 0 4) (h6 : bits w 0 4 ≤ 6)
    (ha : 5 ≤ bits w 4 3) : decode w = .fatal .badAlg := by
  have h7 : ¬7 ≤ bits w 0 4 := by omega
  have h0 : bits w 0 4 ≠ 0 := by omega
  simp [decode, hr, h7, h0, algOfCode_eq_none_iff.mpr ha]

theorem decode_eq_cmd {w : Word} {i : Instr} {a : Alg} (hr : reservedZero w = true) (hop : i.op = bits w 0 4)
    (ha : a.code = bits w 4 3) (hf : i.fields = some (fieldsOf w a)) : decode w = .cmd i := by
  obtain ⟨h1, h6⟩ := Instr.op_bounds hf
  have h7 : ¬7 ≤ i.op := by omega
  have h0 : i.op ≠ 0 := by omega
  simp [decode, hr, ← hop, ← ha, h7, h0, instrOfOp_op hf]

/-- A word that decodes to a command other than NOP holds its OP, its ALG and its fields, the reserved ones being 0. -/
theorem decode_cmd_fields {w : Word} {i : Instr} (h : decode w = .cmd i) (hi : i ≠ .nop) :
    reservedZero w = true ∧ ∃ a : Alg, i.op = bits w 0 4 ∧ a.code = bits w 4 3 ∧ i.fields = some (fieldsOf w a) := by
  cases hr : reservedZero w with
  | false => simp [decode_eq_illegal (.inl hr)] at h
  | true =>
    refine ⟨rfl, ?_⟩
    rcases Nat.lt_or_ge 6 (bits w 0 4) with h7 | h6
    · simp [decode_eq_illegal (.inr h7)] at h
    rcases Nat.eq_zero_or_pos (bits w 0 4) with h0 | h1
    · rw [decode_eq_nop hr h0] at h
      cases h
      exact absurd rfl hi
    cases ha : algOfCode (bits w 4 3) with
    | none => simp [decode_eq_badAlg hr h1 h6 (algOfCode_eq_none_iff.mp ha)] at h
    | some a =>
      obtain ⟨j, hop, hf⟩ := exists_instr_of_op h1 h6 (fieldsOf w a)
      have hcode := algOfCode_eq_some_iff.mp ha
      rw [decode_eq_cmd hr hop hcode hf] at h
      cases h
      exact ⟨a, hop, hcode, hf⟩

/-! ### The claims -/

/-- Settles O4: the fields of the encoded word are those of the command, so the decoder reads the command back. -/
theorem decodeInvertsEncode : Obligations.DecodeInvertsEncode := by
  intro i hi
  cases hf : i.fields with
  | none =>
    obtain rfl := Instr.fields_eq_none_iff.mp hf
    decide
  | some f =>
    have hw : f.wellFormed = true := Instr.wellFormed_of_fields hf ▸ hi
    obtain ⟨-, h6⟩ := Instr.op_bounds hf
    have hop : i.op < 16 := by omega
    obtain ⟨bop, balg, -, -, -, hr⟩ := bits_of_fields hw hop
    rw [encode_of_fields hf]
    exact decode_eq_cmd hr bop.symm balg.symm (by rw [fieldsOf_encoded hw hop, hf])

/-- Settles O5: a word whose reserved fields are 0 is the sum of its other fields, as the command's own word is. -/
theorem encodeInvertsDecode : Obligations.EncodeInvertsDecode := by
  intro w i h
  by_cases hi : i = .nop
  · exact ⟨by rw [hi]; rfl, absurd hi⟩
  obtain ⟨hr, a, hop, ha, hf⟩ := decode_cmd_fields h hi
  refine ⟨by rw [Instr.wellFormed_of_fields hf, fieldsOf_wellFormed], fun _ => ?_⟩
  rw [encode_of_fields hf, hop, encodeFields_fieldsOf, ha, ← toNat_eq_fields hr, BitVec.ofNat_toNat, BitVec.setWidth_eq]

/-- Settles O2: one clause per verdict of the decoder. -/
theorem decoderVerdict : Obligations.DecoderVerdict := by
  intro w reserved op alg
  have hr : reservedZero w = true ↔ ¬reserved := by
    simp [reserved, reservedZero_iff, bits_eq_extractLsb', BitVec.toNat_eq]
  have hop : bits w 0 4 = op := bits_eq_extractLsb' w 0 4
  have halg : bits w 4 3 = alg := bits_eq_extractLsb' w 4 3
  rw [← hop, ← halg]
  refine ⟨fun h => ?_, fun h => decode_eq_nop (hr.mpr h), fun h => decode_eq_badAlg (hr.mpr h), fun h h1 h6 h5 => ?_⟩
  · exact decode_eq_illegal (h.imp_left fun h => Bool.eq_false_iff.mpr fun hz => hr.mp hz h)
  · obtain ⟨a, ha⟩ := Option.ne_none_iff_exists'.mp fun hn => h5.not_ge (algOfCode_eq_none_iff.mp hn)
    have hcode := algOfCode_eq_some_iff.mp ha
    obtain ⟨i, hi, hf⟩ := exists_instr_of_op h1 h6 (fieldsOf w a)
    refine ⟨i, _, decode_eq_cmd (hr.mpr h) hi hcode hf, hi, hf, hcode, bit_eq_getLsbD w 7, ?_, bits_eq_extractLsb' w 16 8⟩
    rw [← bit_eq_getLsbD]
    simp [fieldsOf]

/-- A field ORed in above all the bits set so far is added. -/
theorem ofNat_or_shiftLeft {n k : Nat} (m : Nat) (h : n < 2 ^ k) :
    BitVec.ofNat 64 n ||| BitVec.ofNat 64 m <<< k = BitVec.ofNat 64 (n + m * 2 ^ k) := by
  have hs : BitVec.ofNat 64 m <<< k = BitVec.ofNat 64 (m <<< k) := by
    apply BitVec.eq_of_toNat_eq
    simp [Nat.shiftLeft_eq]
  rw [hs, ← BitVec.ofNat_or, Nat.lor_comm, ← Nat.shiftLeft_add_eq_or_of_lt h, Nat.shiftLeft_eq, Nat.add_comm]

/-- Settles O3: each field of the word is ORed in above the ones before it, so the OR is the sum. -/
theorem encodedWordLayout : Obligations.EncodedWordLayout := by
  refine ⟨rfl, fun i f hi hf => ?_⟩
  obtain ⟨-, hop⟩ := Instr.op_bounds hf
  have ha := f.alg.code_le
  have hb := f.bit.toNat_le
  have hp := f.possel.code_le
  rw [ofNat_or_shiftLeft _ (by omega), ofNat_or_shiftLeft _ (by omega), ofNat_or_shiftLeft _ (by omega),
    ofNat_or_shiftLeft _ (by omega), encode_of_fields hf]
  congr 1
  unfold encodeFields
  omega

end Sys2Proof
end

section
/-! PROOFS. The assembler (R76): which commands it takes, and the instruction and the word it gives them (R77, R80). -/

namespace Sys2Proof.Machine

open Sys2Proof.Claims

/-! ### Mnemonics -/

theorem Mnemonic.usesBit_iff {op : Mnemonic} : op.usesBit = true ↔ op = .setbit ∨ op = .embed := by
  cases op <;> decide

theorem Mnemonic.usesPossel_iff {op : Mnemonic} (h : op ≠ .nop) : op.usesPossel = true ↔ op ≠ .fwd ∧ op ≠ .inv := by
  cases op <;> simp_all [Mnemonic.usesPossel]

theorem Mnemonic.instr_op (op : Mnemonic) (f : CmdFields) : (op.instr f).op = opCode op := by cases op <;> rfl

theorem Mnemonic.instr_fields {op : Mnemonic} (h : op ≠ .nop) (f : CmdFields) : (op.instr f).fields = some f := by
  cases op with
  | nop => exact absurd rfl h
  | _ => rfl

/-! ### What the assembler answers -/

/-- The fields of a command with algorithm `a`, an omitted one being 0 (R76). -/
def AsmCommand.fieldsWith (c : AsmCommand) (a : Alg) : CmdFields :=
  { alg := a, bit := c.bit.getD false, possel := c.possel.getD .reg, size := c.size.getD 0 }

/-- A field is written that the OP ignores, or SIZE does not fit its eight bits (R76). -/
def AsmCommand.misfit (c : AsmCommand) : Bool :=
  (c.bit.isSome && !c.op.usesBit) || (c.possel.isSome && !c.op.usesPossel) || !decide (c.size.getD 0 < 256)

theorem AsmCommand.misfit_eq_false_iff {c : AsmCommand} (h : c.op ≠ .nop) : c.misfit = false ↔
    c.size.getD 0 ≤ 255 ∧ (c.bit ≠ none → c.op = .setbit ∨ c.op = .embed) ∧
      (c.possel ≠ none → c.op ≠ .fwd ∧ c.op ≠ .inv) := by
  rw [AsmCommand.misfit, ← Mnemonic.usesBit_iff, ← Mnemonic.usesPossel_iff h]
  cases c.bit <;> cases c.possel <;> simp [and_comm, Nat.lt_succ_iff]

theorem assemble_of_alg {c : AsmCommand} {a : Alg} (h : c.op ≠ .nop) (ha : c.alg = some a) :
    assemble c = if c.misfit then none else some (c.op.instr (c.fieldsWith a)) := by
  rw [assemble, if_neg h, ha]
  rfl

theorem assemble_nop_eq_some_iff {c : AsmCommand} (h : c.op = .nop) {i : Instr} : assemble c = some i ↔
    (c.alg = none ∧ c.size = none ∧ c.bit = none ∧ c.possel = none) ∧ i = .nop := by
  rw [eq_comm (a := i)]
  simp [assemble, h, and_assoc]

theorem assemble_eq_some_iff {c : AsmCommand} (h : c.op ≠ .nop) {i : Instr} : assemble c = some i ↔
    ∃ a, c.alg = some a ∧ c.misfit = false ∧ i = c.op.instr (c.fieldsWith a) := by
  cases ha : c.alg with
  | none => simp [assemble, h, ha]
  | some a =>
    rw [assemble_of_alg h ha]
    cases c.misfit <;> simp [eq_comm]

/-- A command the assembler takes has a word (R76). -/
theorem assemble_wellFormed {c : AsmCommand} {i : Instr} (h : assemble c = some i) : i.wellFormed = true := by
  by_cases hop : c.op = .nop
  · rw [((assemble_nop_eq_some_iff hop).mp h).2]
    rfl
  · obtain ⟨a, -, hm, rfl⟩ := (assemble_eq_some_iff hop).mp h
    obtain ⟨hs, -⟩ := (AsmCommand.misfit_eq_false_iff hop).mp hm
    rw [Instr.wellFormed_of_fields (Mnemonic.instr_fields hop _)]
    exact decide_eq_true (Nat.lt_succ_of_le hs)

theorem assembleWord_decodes {c : AsmCommand} {i : Instr} (h : assemble c = some i) :
    ∃ w, assembleWord c = some w ∧ decode w = .cmd i :=
  ⟨encode i, by rw [assembleWord, h]; rfl, decodeInvertsEncode i (assemble_wellFormed h)⟩

/-! ### The claims -/

/-- Settles O6: NOP is taken without operands, any other command with the fields its OP uses, and decoding gives it
back from its word. -/
theorem assemblerAccepts : Obligations.AssemblerAccepts := by
  intro c
  rw [Option.isSome_iff_exists]
  by_cases hop : c.op = .nop
  · simp only [assemble_nop_eq_some_iff hop]
    refine ⟨by simp [hop], fun i hi => ?_⟩
    have hw := assembleWord_decodes ((assemble_nop_eq_some_iff hop).mpr hi)
    obtain ⟨-, rfl⟩ := hi
    exact ⟨by rw [hop]; rfl, hw, by simp [Instr.fields]⟩
  · simp only [assemble_eq_some_iff hop]
    refine ⟨by simp [hop, AsmCommand.misfit_eq_false_iff hop, Option.ne_none_iff_exists'], fun i hi => ?_⟩
    have hw := assembleWord_decodes ((assemble_eq_some_iff hop).mpr hi)
    obtain ⟨a, ha, -, rfl⟩ := hi
    refine ⟨Mnemonic.instr_op _ _, hw, fun f hf => ?_⟩
    rw [Mnemonic.instr_fields hop] at hf
    cases hf
    exact ⟨ha, rfl, rfl, rfl⟩

/-- Settles O1: the ten rows of R80, evaluated. -/
theorem exampleWordsDecode : Obligations.ExampleWordsDecode := by
  unfold Obligations.ExampleWordsDecode
  decide

end Sys2Proof.Machine
end

section
/-! PROOFS. FWD and INV complete (R81, R82): a known block is read, its transform written in place, and nothing else
changes; and no DCT command, SETBIT or GETBIT has anything to do with IM (R94, R103). -/

namespace Sys2Proof.Machine

open Sys2Proof.Claims

/-! ### The completion of a transform -/

/-- A known block is what the transform reads. -/
theorem readBlock_of_blockIs {s : State} {x y : List F64} (h : BlockIs s x y) :
    s.readBlock s.cur.alg s.cur.entries = some (x, y) := by
  obtain ⟨hx, hre, him⟩ := h
  have hentries {m : Memory} {base : Nat} {z : List F64} (hz : z.length = s.cur.entries)
      (hm : ∀ i < s.cur.entries, m.readEntry (entryOffset base i) = z[i]?) :
      m.readEntries base s.cur.entries = some z :=
    Memory.readEntries_eq_some.mpr ⟨hz, fun i hi => (hm i (hz ▸ hi)).trans (List.getElem?_eq_getElem hi)⟩
  rw [State.readBlock_eq_some]
  refine ⟨hentries hx hre, ?_⟩
  split_ifs at him ⊢
  · exact hentries him.1 him.2
  · exact him

/-- Writing N entries, in IM only for an FFT, writes the block and no byte beside it. -/
theorem blockWritten_writeBlock {s : State} {z : Block} (hre : z.1.length = s.cur.entries)
    (him : s.cur.alg.usesIm = true → z.2.length = s.cur.entries) :
    BlockWritten s (s.writeBlock s.cur.alg z) z := by
  refine ⟨fun i hi => ⟨_, List.getElem?_eq_getElem (hre ▸ hi), State.reEntry_writeBlock _⟩, fun a ha => ?_, ?_⟩
  · exact Memory.readByte_writeEntries_outside _ _ _ _ (by rwa [hre])
  · rw [State.writeBlock_im]
    split_ifs with hu
    · have hlen := him hu
      refine ⟨fun i hi => ⟨_, List.getElem?_eq_getElem (hlen ▸ hi), State.imEntry_writeBlock hu _⟩, fun a ha => ?_⟩
      exact Memory.readByte_writeEntries_outside _ _ _ _ (by rwa [hlen])
    · rfl

/-- A transform whose block is known goes through. -/
theorem transformBody_of_readBlock {dir : Direction} {s : State} {z : Block}
    (h : s.readBlock s.cur.alg s.cur.entries = some z) :
    transformBody dir s = .ok (s.writeBlock s.cur.alg (xform s.cfg.numerics s.cur.alg dir s.cur.size z)) := by
  rw [transformBody, h]

/-- A transform of a known block of legal size completes with its output written in place (R81, R82, R96). -/
theorem transformBody_completes (dir : Direction) {s : State} {x y : List F64} (hc : s.cfg.legal = true)
    (hsize : LegalSize s.cfg.maxSize s.cur.alg s.cur.size) (h : BlockIs s x y) :
    ∃ t, (transformBody dir s).conclude = .next t ∧ t = { s with re := t.re, im := t.im, fsm := .idle, done := true } ∧
      BlockWritten s t (xform s.cfg.numerics s.cur.alg dir s.cur.size (x, y)) := by
  rw [transformBody_of_readBlock (readBlock_of_blockIs h)]
  exact ⟨_, rfl, rfl, blockWritten_writeBlock
    (length_xform_re _ _ _ _ _ (sizeOk_algAllows (sizeOk_of_legalSize hc hsize))) (length_xform_im _ _ _ _ _)⟩

/-- Settles O28: in BUSY, FWD is its body, concluded. -/
theorem forwardCompletes : Obligations.ForwardCompletes := by
  intro s f x y hb hc hsize h
  obtain ⟨t, ht, hframe, hblock⟩ := transformBody_completes .forward hc hsize h
  exact ⟨t, (State.byPhase_busy hb _ _ _).trans ht, hframe, hblock⟩

/-- Settles O29, as FWD with the inverse transform. -/
theorem inverseCompletes : Obligations.InverseCompletes := by
  intro s f x y hb hc hsize h
  obtain ⟨t, ht, hframe, hblock⟩ := transformBody_completes .inverse hc hsize h
  exact ⟨t, (State.byPhase_busy hb _ _ _).trans ht, hframe, hblock⟩

/-! ### Phases that have nothing to do with IM -/

/-- The state with other contents of IM. -/
def State.withIm (s : State) (m : Memory) : State := { s with im := m }

/-- A phase's end with other contents of IM. -/
def BodyResult.withIm (m : Memory) : BodyResult → BodyResult
  | .ok s => .ok (s.withIm m)
  | .numeric s => .numeric (s.withIm m)
  | .unknown => .unknown

/-- From `s`, the phase does the same with any IM and leaves it as it is. -/
def IgnoresIm (k : State → BodyResult) (s : State) : Prop := ∀ m, k (s.withIm m) = (k s).withIm m

/-- What ignores IM leaves it: with the IM there is, its end is the end with that IM. -/
theorem IgnoresIm.im_eq {k : State → BodyResult} {s t : State} (h : IgnoresIm k s)
    (ht : k s = .ok t ∨ k s = .numeric t) : t.im = s.im := by
  have hsame : k s = (k s).withIm s.im := h s.im
  show t.im = (t.withIm s.im).im
  rcases ht with ht | ht <;> rw [ht, BodyResult.withIm] at hsame
  · exact congrArg State.im (BodyResult.ok.inj hsame)
  · exact congrArg State.im (BodyResult.numeric.inj hsame)

theorem IgnoresIm.andThen {j k : State → BodyResult} {s : State} (hj : IgnoresIm j s)
    (hk : ∀ u, j s = .ok u → IgnoresIm k u) : IgnoresIm (fun s => (j s).andThen k) s := by
  intro m
  show (j (s.withIm m)).andThen k = ((j s).andThen k).withIm m
  rw [hj m]
  cases hr : j s with
  | ok u => exact hk u hr m
  | numeric u => rfl
  | unknown => rfl

/-- A DCT's block has no part in IM (R94). -/
theorem transformBody_ignoresIm (dir : Direction) {s : State} (h : s.cur.alg.usesIm = false) :
    IgnoresIm (transformBody dir) s := by
  intro m
  have hread : (s.withIm m).readBlock s.cur.alg s.cur.entries = s.readBlock s.cur.alg s.cur.entries := by
    simp [State.readBlock, State.withIm, h]
  have hwrite (z : Block) : (s.withIm m).writeBlock s.cur.alg z = (s.writeBlock s.cur.alg z).withIm m := by
    simp [State.writeBlock, State.withIm, h]
  cases hz : s.readBlock s.cur.alg s.cur.entries with
  | none => rw [transformBody_unknown.mpr hz]; exact transformBody_unknown.mpr (hread.trans hz)
  | some z =>
    rw [transformBody_of_readBlock hz]
    exact (transformBody_of_readBlock (hread.trans hz)).trans (congrArg BodyResult.ok (hwrite _))

/-- SETBIT reads and writes RE[epos] alone (R103). -/
theorem setbitBody_ignoresIm (s : State) : IgnoresIm setbitBody s := by
  intro m
  have hread : (s.withIm m).reEntry (s.withIm m).cur.epos.toNat = s.reEntry s.cur.epos.toNat := rfl
  have hcur : (s.withIm m).cur = s.cur := rfl
  unfold setbitBody
  rw [hread, hcur]
  cases s.reEntry s.cur.epos.toNat with
  | none => rfl
  | some x =>
    dsimp only
    cases setParity s.cur.bit x s.cur.tol <;> rfl

/-- GETBIT reads RE[epos] alone and writes no buffer (R103). -/
theorem getbitBody_ignoresIm (s : State) : IgnoresIm getbitBody s := by
  intro m
  have hread : (s.withIm m).reEntry (s.withIm m).cur.epos.toNat = s.reEntry s.cur.epos.toNat := rfl
  have hcur : (s.withIm m).cur = s.cur := rfl
  unfold getbitBody
  rw [hread, hcur]
  cases s.reEntry s.cur.epos.toNat with
  | none => rfl
  | some x =>
    dsimp only
    cases getParity x s.cur.tol <;> rfl

/-- Every command of a DCT, and SETBIT and GETBIT of every algorithm, ignore IM: a compound one phase by phase, none of
which changes the latches. -/
theorem bodyOf_ignoresIm {op : BlockOp} {s : State} (h : s.cur.alg.usesIm = false ∨ op = .setbit ∨ op = .getbit) :
    IgnoresIm (bodyOf op) s := by
  cases op with
  | setbit => exact setbitBody_ignoresIm s
  | getbit => exact getbitBody_ignoresIm s
  | fwd => exact transformBody_ignoresIm .forward (by simpa using h)
  | inv => exact transformBody_ignoresIm .inverse (by simpa using h)
  | extract =>
    exact (transformBody_ignoresIm .forward (by simpa using h)).andThen fun u _ => getbitBody_ignoresIm u
  | embed =>
    have hdct : s.cur.alg.usesIm = false := by simpa using h
    refine ((transformBody_ignoresIm .forward hdct).andThen fun u _ => setbitBody_ignoresIm u).andThen fun v hv => ?_
    obtain ⟨u, hu, hset⟩ := BodyResult.andThen_ok hv
    have hcur : v.cur = s.cur := (setbitBody_cur hset).trans (transformBody_cur hu)
    exact transformBody_ignoresIm .inverse (hcur ▸ hdct)

/-- Settles O42: a body that ignores IM ends the command alike with any IM, a fault included. -/
theorem imaginaryBufferUntouched : Obligations.ImaginaryBufferUntouched := by
  intro s f i op m hi hb h
  have hbody := bodyOf_ignoresIm h
  have hother : exec i { s with im := m } = ((bodyOf op s).withIm m).conclude :=
    (exec_busy hi (s := s.withIm m) hb).trans (congrArg BodyResult.conclude (hbody m))
  rw [exec_busy hi hb, hother]
  refine ⟨fun t ht => ?_, fun e he => ?_⟩
  · rcases BodyResult.conclude_next ht with ⟨u, hu, rfl⟩ | ⟨u, hu, rfl⟩
    · exact ⟨hbody.im_eq (t := u) (.inl hu), by rw [hu]; rfl⟩
    · exact ⟨hbody.im_eq (t := u) (.inr hu), by rw [hu]; rfl⟩
  · obtain ⟨hu, rfl⟩ := BodyResult.conclude_fault he
    rw [hu]
    rfl

end Sys2Proof.Machine
end

section
/-! PROOFS. Every output entry of REF is the sum R99 writes: the lists of REF are square grids, on which its passes act
row by row and its transposes swap the two indices. -/

namespace Sys2Proof.Machine

open Sys2Proof.Claims

/-! ### Square grids -/

/-- The flattened S×S block whose element (r, c) is `g r c` (R12). -/
def grid (S : Nat) (g : Nat → Nat → F64) : List F64 := (List.range S).flatMap fun r => (List.range S).map (g r)

/-- Row and column of the index of element (r, c) (R12). -/
theorem div_mod_index {S c : Nat} (r : Nat) (hc : c < S) : (r * S + c) / S = r ∧ (r * S + c) % S = c := by
  rw [Nat.mul_comm, Nat.mul_add_div (by omega), Nat.mul_add_mod, Nat.div_eq_of_lt hc, Nat.mod_eq_of_lt hc]
  exact ⟨rfl, rfl⟩

theorem flatMap_map_range {α : Type} (S L : Nat) (g : Nat → Nat → α) :
    ((List.range S).flatMap fun r => (List.range L).map (g r)) =
      (List.range (S * L)).map fun e => g (e / L) (e % L) := by
  induction S with
  | zero => simp
  | succ S ih =>
    rw [List.range_succ, List.flatMap_append, ih, Nat.succ_mul, List.range_add, List.map_append, List.map_map]
    congr 1
    simp only [List.flatMap_cons, List.flatMap_nil, List.append_nil]
    refine List.map_congr_left fun c hc => ?_
    obtain ⟨hdiv, hmod⟩ := div_mod_index S (List.mem_range.mp hc)
    simp [hdiv, hmod]

theorem grid_eq_map (S : Nat) (g : Nat → Nat → F64) :
    grid S g = (List.range (S * S)).map fun e => g (e / S) (e % S) := flatMap_map_range S S g

theorem getElem?_grid {S e : Nat} (g : Nat → Nat → F64) (he : e < S * S) :
    (grid S g)[e]? = some (g (e / S) (e % S)) := by
  simp [grid_eq_map, List.getElem?_range he]

theorem elem_grid {S r c : Nat} (g : Nat → Nat → F64) (hr : r < S) (hc : c < S) : elem S (grid S g) r c = g r c := by
  have hlt : r * S + c < S * S := by nlinarith
  obtain ⟨hdiv, hmod⟩ := div_mod_index r hc
  rw [elem, List.getD_eq_getElem?_getD, getElem?_grid g hlt, hdiv, hmod]
  rfl

theorem eq_map_range {n : Nat} {x : List F64} (h : x.length = n) : x = (List.range n).map fun i => x.getD i 0#64 := by
  refine List.ext_getElem (by simp [h]) fun i hi _ => ?_
  rw [List.getElem_map, List.getElem_range, List.getD_eq_getElem _ _ hi]

/-- A block of S² entries is the grid of its elements. -/
theorem eq_grid {S : Nat} {x : List F64} (h : x.length = S * S) : x = grid S (elem S x) := by
  simpa only [grid_eq_map, elem, Nat.div_add_mod'] using eq_map_range h

theorem map_grid (S : Nat) (f : F64 → F64) (g : Nat → Nat → F64) : (grid S g).map f = grid S fun r c => f (g r c) := by
  simp [grid, List.map_flatMap, Function.comp_def]

theorem grid_congr {S : Nat} {g h : Nat → Nat → F64} (hgh : ∀ r < S, ∀ c < S, g r c = h r c) : grid S g = grid S h := by
  unfold grid
  refine List.flatMap_congr fun r hr => List.map_congr_left fun c hc => ?_
  exact hgh r (List.mem_range.mp hr) c (List.mem_range.mp hc)

theorem transpose_grid (S : Nat) (g : Nat → Nat → F64) : transpose S (grid S g) = grid S fun r c => g c r :=
  grid_congr fun _ hr _ hc => elem_grid g hc hr

theorem rows_grid (S : Nat) (g : Nat → Nat → F64) :
    rows S (grid S g) = (List.range S).map fun r => (List.range S).map (g r) := by
  unfold rows
  refine List.map_congr_left fun r hr => List.map_congr_left fun c hc => ?_
  exact elem_grid g (List.mem_range.mp hr) (List.mem_range.mp hc)

/-! ### The passes -/

/-- A fold over indices, its first step taken. -/
theorem foldl_range_succ {α : Type} (f : α → Nat → α) (m : Nat) (acc : α) :
    (List.range (m + 1)).foldl f acc = (List.range m).foldl (fun acc i => f acc (i + 1)) (f acc 0) := by
  rw [List.range_succ_eq_map, List.foldl_cons, List.foldl_map]

theorem dotFrom_map_range (coeff : Nat → F64) (m : Nat) (h : Nat → F64) (n : Nat) (acc : F64) :
    dotFrom coeff n ((List.range m).map h) acc =
      (List.range m).foldl (fun acc i => Fp.fadd acc (Fp.fmul (coeff (n + i)) (h i))) acc := by
  induction m generalizing h n acc with
  | zero => rfl
  | succ m ih =>
    rw [foldl_range_succ, List.range_succ_eq_map, List.map_cons, List.map_map, dotFrom, ih]
    simp [Nat.add_assoc, Nat.add_comm 1]

/-- A dot product is an ordered sum. -/
theorem dotFrom_eq_orderedSum (coeff : Nat → F64) (S : Nat) (h : Nat → F64) :
    dotFrom coeff 0 ((List.range S).map h) 0#64 = orderedSum S fun n => Fp.fmul (coeff n) (h n) := by
  simp [dotFrom_map_range, orderedSum]

theorem dftSum_map_range (L : Nat) (dir : Direction) (k m : Nat) (a b : Nat → F64) (n : Nat) (re im : F64) :
    dftSum L dir k n ((List.range m).map a) ((List.range m).map b) re im =
      ((List.range m).foldl (fun acc i => Fp.fadd acc (Fp.fsub (Fp.fmul (a i) (Trig.twiddleCos L (k * (n + i) % L)))
          (Fp.fmul (b i) (Trig.twiddleSin dir L (k * (n + i) % L))))) re,
       (List.range m).foldl (fun acc i => Fp.fadd acc (Fp.fadd (Fp.fmul (a i) (Trig.twiddleSin dir L (k * (n + i) % L)))
          (Fp.fmul (b i) (Trig.twiddleCos L (k * (n + i) % L))))) im) := by
  induction m generalizing a b n re im with
  | zero => rfl
  | succ m ih =>
    rw [foldl_range_succ, foldl_range_succ, List.range_succ_eq_map]
    simp only [List.map_cons, List.map_map, dftSum, ih]
    simp [Nat.add_assoc, Nat.add_comm 1]

/-- One FFT pass of R99, entry by entry. -/
theorem fftPass_map_range (L : Nat) (dir : Direction) (a b : Nat → F64) :
    fftPass L dir ((List.range L).map a, (List.range L).map b) =
      ((List.range L).map fun k => (dftEntry L dir a b k).1, (List.range L).map fun k => (dftEntry L dir a b k).2) := by
  cases dir <;> simp [fftPass, dft1, dftSum_map_range, dftEntry, orderedSum, natF64, Function.comp_def]

/-- A 1-D pass as a function of rows: output `k` of the row `h` is `P h k`. -/
def PassIs (S : Nat) (pass : List F64 → List F64) (P : (Nat → F64) → Nat → F64) : Prop :=
  ∀ h, pass ((List.range S).map h) = (List.range S).map (P h)

theorem dctPass_is (S : Nat) (K : Nat → Nat → F64) :
    PassIs S (dctPass S K) fun h k => orderedSum S fun n => Fp.fmul (K k n) (h n) :=
  fun h => List.map_congr_left fun k _ => dotFrom_eq_orderedSum (fun n => K k n) S h

theorem dctInversePass_is (S : Nat) (K : Nat → Nat → F64) :
    PassIs S (dctInversePass S K) fun h n => orderedSum S fun k => Fp.fmul (K k n) (h k) :=
  fun h => List.map_congr_left fun n _ => dotFrom_eq_orderedSum (fun k => K k n) S h

/-- Rows and then columns of a grid: the inner pass runs along each row, the outer one over the rows. -/
theorem rowsThenColumns_grid {S : Nat} {pass : List F64 → List F64} {P : (Nat → F64) → Nat → F64} (h : PassIs S pass P)
    (g : Nat → Nat → F64) : rowsThenColumns S pass (grid S g) = grid S fun u v => P (fun r => P (g r) v) u := by
  have honRows (g : Nat → Nat → F64) : (rows S (grid S g)).flatMap pass = grid S fun r => P (g r) := by
    rw [rows_grid, List.flatMap_map]
    exact List.flatMap_congr fun r _ => h (g r)
  unfold rowsThenColumns
  dsimp only
  rw [honRows, transpose_grid, honRows, transpose_grid]

theorem fftRows_grid (S : Nat) (dir : Direction) (g h : Nat → Nat → F64) :
    fftRows S dir (grid S g, grid S h) =
      (grid S fun r c => (dftEntry S dir (g r) (h r) c).1, grid S fun r c => (dftEntry S dir (g r) (h r) c).2) := by
  simp only [fftRows, rows_grid, List.zip_map', List.map_map, List.flatMap_map, Function.comp_def, fftPass_map_range]
  rfl

theorem fft2_grid (S : Nat) (dir : Direction) (g h : Nat → Nat → F64) :
    let row := fun r c => dftEntry S dir (g r) (h r) c
    let twice := fun u v => dftEntry S dir (fun r => (row r v).1) (fun r => (row r v).2) u
    fft2 S dir (grid S g, grid S h) = (grid S fun u v => (twice u v).1, grid S fun u v => (twice u v).2) := by
  simp only [fft2, fftRows_grid, transpose_grid]

/-! ### The claim -/

theorem getElem?_dctForward {S e : Nat} (K : Nat → Nat → F64) (a : Nat → F64) (he : e < S * S) :
    (rowsThenColumns S (dctPass S K) (grid S fun r c => a (r * S + c)))[e]? = some (separableEntry S K a e) := by
  rw [rowsThenColumns_grid (dctPass_is S K), getElem?_grid _ he]
  rfl

/-- The transposed use of the coefficients. -/
theorem getElem?_dctInverse {S e : Nat} (K : Nat → Nat → F64) (a : Nat → F64) (he : e < S * S) :
    (rowsThenColumns S (dctInversePass S K) (grid S fun r c => a (r * S + c)))[e]? =
      some (separableEntry S (fun n k => K k n) a e) := by
  rw [rowsThenColumns_grid (dctInversePass_is S K), getElem?_grid _ he]
  rfl

/-- Settles O58: a block is the grid of its elements, every pass of REF is one on grids, and entry `e` of a grid is that
of row `e / S` and column `e % S`. -/
theorem referenceEntries : Obligations.ReferenceEntries := by
  intro dir S x y e hx hy he a b fft1d fft2d
  have hxrange : x = (List.range (S * S)).map a := eq_map_range hx
  have hyrange : y = (List.range (S * S)).map b := eq_map_range hy
  have hxgrid : x = grid S fun r c => a (r * S + c) := eq_grid hx
  have hygrid : y = grid S fun r c => b (r * S + c) := eq_grid hy
  refine ⟨?_, ?_, ?_, ?_, ?_, ?_⟩
  · have hout : fft1d = fftPass (S * S) dir ((List.range (S * S)).map a, (List.range (S * S)).map b) := by
      rw [← hxrange, ← hyrange]
      rfl
    rw [hout, fftPass_map_range]
    simp [List.getElem?_range he]
  · have hout : fft2d = fft2 S dir (grid S fun r c => a (r * S + c), grid S fun r c => b (r * S + c)) := by
      rw [← hxgrid, ← hygrid]
      rfl
    rw [hout, fft2_grid]
    exact ⟨getElem?_grid _ he, getElem?_grid _ he⟩
  · clear_value a b
    subst hxgrid
    cases dir with
    | forward =>
      show (rowsThenColumns S (dctPass S (Trig.dctCoeff S)) (List.map _ _))[e]? = _
      rw [map_grid]
      exact getElem?_dctForward _ (fun i => Fp.fsub (a i) levelShift) he
    | inverse =>
      show (List.map _ _)[e]? = _
      rw [List.getElem?_map, getElem?_dctInverse _ _ he]
      rfl
  · rintro rfl
    clear_value a b
    subst hxgrid
    cases dir with
    | forward => exact getElem?_dctForward _ _ he
    | inverse => exact getElem?_dctInverse _ _ he
  · rintro rfl
    clear_value a b
    subst hxgrid
    cases dir with
    | forward => exact getElem?_dctForward _ _ he
    | inverse => exact getElem?_dctInverse _ _ he
  · intro alg halg
    cases alg with
    | fft1d | fft2d => cases halg
    | dct2d | fdct8 | fdctlee => rfl

end Sys2Proof.Machine
end

section
/-! PROOFS. The exact transforms over the reals: INV undoes FWD (R95), because each kernel is orthogonal to its inverse,
and what a change of one coefficient adds to every sample (R101), because the inverses are linear. -/

namespace Sys2Proof.Machine.Exact

open Finset Sys2Proof.Claims

/-! ### Kernels that undo each other -/

/-- The kernel `G`, summed over its first index, undoes the kernel `K`. -/
def Inverts {R : Type} [CommRing R] (N : ℕ) (G K : ℕ → ℕ → R) : Prop :=
  ∀ n < N, ∀ m < N, ∑ k ∈ range N, G k n * K k m = if n = m then 1 else 0

/-- One dimension: the inverse sums give the input back. -/
theorem Inverts.roundTrip {R : Type} [CommRing R] {N : ℕ} {G K : ℕ → ℕ → R} (h : Inverts N G K) (x : ℕ → R) {n : ℕ}
    (hn : n < N) : ∑ k ∈ range N, G k n * ∑ m ∈ range N, K k m * x m = x n := by
  calc ∑ k ∈ range N, G k n * ∑ m ∈ range N, K k m * x m
      = ∑ m ∈ range N, (∑ k ∈ range N, G k n * K k m) * x m := by
        simp only [mul_sum, sum_mul, mul_assoc]
        exact sum_comm
    _ = ∑ m ∈ range N, if n = m then x m else 0 :=
        sum_congr rfl fun m hm => by rw [h n hn m (mem_range.mp hm), ite_mul, one_mul, zero_mul]
    _ = x n := by simp [hn]

/-- Two dimensions: the columns come back first, then the rows. -/
theorem Inverts.roundTrip_separable {R : Type} [CommRing R] {S : ℕ} {G K : ℕ → ℕ → R} (h : Inverts S G K) (x : ℕ → R)
    {e : ℕ} (he : e < S * S) :
    ∑ u ∈ range S, ∑ v ∈ range S, G u (e / S) * G v (e % S) *
      ∑ r ∈ range S, ∑ c ∈ range S, K ((u * S + v) / S) r * K ((u * S + v) % S) c * x (r * S + c) = x e := by
  have hS : 0 < S := Nat.pos_of_ne_zero fun h0 => by simp [h0] at he
  have hrow : e / S < S := Nat.div_lt_of_lt_mul he
  calc ∑ u ∈ range S, ∑ v ∈ range S, G u (e / S) * G v (e % S) *
        ∑ r ∈ range S, ∑ c ∈ range S, K ((u * S + v) / S) r * K ((u * S + v) % S) c * x (r * S + c)
      = ∑ u ∈ range S, ∑ v ∈ range S, ∑ r ∈ range S,
          G u (e / S) * (K u r * (G v (e % S) * ∑ c ∈ range S, K v c * x (r * S + c))) := by
        refine sum_congr rfl fun u _ => sum_congr rfl fun v hv => ?_
        obtain ⟨hdiv, hmod⟩ := div_mod_index u (mem_range.mp hv)
        rw [hdiv, hmod, mul_sum]
        refine sum_congr rfl fun r _ => ?_
        simp only [mul_sum]
        exact sum_congr rfl fun c _ => by ring
    _ = ∑ u ∈ range S, G u (e / S) * ∑ r ∈ range S, K u r *
          ∑ v ∈ range S, G v (e % S) * ∑ c ∈ range S, K v c * x (r * S + c) := by
        refine sum_congr rfl fun u _ => ?_
        rw [sum_comm]
        simp only [mul_sum]
    _ = ∑ u ∈ range S, G u (e / S) * ∑ r ∈ range S, K u r * x (r * S + e % S) := by
        simp only [h.roundTrip (fun c => x (_ * S + c)) (Nat.mod_lt e hS)]
    _ = x e := by rw [h.roundTrip (fun r => x (r * S + e % S)) hrow, Nat.div_add_mod']

/-! ### The Fourier kernels -/

/-- The forward kernel of a DFT of length `N` (R84). -/
noncomputable def fourier (N k n : ℕ) : ℂ := Complex.exp (-(2 * Real.pi * Complex.I * k * n / N))

/-- The inverse kernel, its divisor included (R85). -/
noncomputable def fourierInverse (N k n : ℕ) : ℂ := 1 / N * Complex.exp (2 * Real.pi * Complex.I * k * n / N)

theorem fft1dForward_eq (N : ℕ) (z : ℕ → ℂ) (k : ℕ) : fft1dForward N z k = ∑ n ∈ range N, fourier N k n * z n :=
  sum_congr rfl fun _ _ => mul_comm _ _

theorem fft1dInverse_eq (N : ℕ) (Z : ℕ → ℂ) (n : ℕ) :
    fft1dInverse N Z n = ∑ k ∈ range N, fourierInverse N k n * Z k := by
  rw [fft1dInverse, mul_sum]
  exact sum_congr rfl fun k _ => by rw [fourierInverse]; ring

theorem fft2dForward_eq (S : ℕ) (z : ℕ → ℂ) (e : ℕ) : fft2dForward S z e =
    ∑ r ∈ range S, ∑ c ∈ range S, fourier S (e / S) r * fourier S (e % S) c * z (r * S + c) := by
  refine sum_congr rfl fun r _ => sum_congr rfl fun c _ => ?_
  rw [fourier, fourier, ← Complex.exp_add, mul_comm]
  congr 2
  ring

theorem fft2dInverse_eq (S : ℕ) (Z : ℕ → ℂ) (e : ℕ) : fft2dInverse S Z e =
    ∑ u ∈ range S, ∑ v ∈ range S, fourierInverse S u (e / S) * fourierInverse S v (e % S) * Z (u * S + v) := by
  simp only [fft2dInverse, mul_sum]
  refine sum_congr rfl fun u _ => sum_congr rfl fun v _ => ?_
  have hexp : Complex.exp (2 * Real.pi * Complex.I * (u * (e / S : ℕ) + v * (e % S : ℕ)) / S) =
      Complex.exp (2 * Real.pi * Complex.I * u * (e / S : ℕ) / S) *
        Complex.exp (2 * Real.pi * Complex.I * v * (e % S : ℕ) / S) := by
    rw [← Complex.exp_add]
    congr 1
    ring
  rw [hexp, fourierInverse, fourierInverse]
  push_cast
  ring

/-- The angle `2 π k n / N` of both kernels. -/
noncomputable def angle (N k n : ℕ) : ℝ := 2 * Real.pi * k * n / N

theorem exp_angle (N k n : ℕ) : Complex.exp (2 * Real.pi * Complex.I * k * n / N) =
    ⟨Real.cos (angle N k n), Real.sin (angle N k n)⟩ := by
  have hangle : 2 * Real.pi * Complex.I * k * n / N = (angle N k n : ℝ) * Complex.I := by
    rw [angle]
    push_cast
    ring
  rw [hangle]
  exact Complex.ext (Complex.exp_ofReal_mul_I_re _) (Complex.exp_ofReal_mul_I_im _)

theorem fourier_eq (N k n : ℕ) : fourier N k n = ⟨Real.cos (angle N k n), -Real.sin (angle N k n)⟩ := by
  rw [fourier, Complex.exp_neg, exp_angle, Complex.inv_def]
  have hnorm : Complex.normSq ⟨Real.cos (angle N k n), Real.sin (angle N k n)⟩ = 1 := by
    rw [Complex.normSq_mk, ← sq, ← sq, Real.cos_sq_add_sin_sq]
  rw [hnorm, inv_one, Complex.ofReal_one, mul_one]
  rfl

theorem fourierInverse_eq (N k n : ℕ) :
    fourierInverse N k n = (1 / N : ℝ) * ⟨Real.cos (angle N k n), Real.sin (angle N k n)⟩ := by
  rw [fourierInverse, exp_angle]
  push_cast
  rfl

/-- The powers of a root of unity other than 1 sum to zero. -/
theorem fourierInverse_inverts (N : ℕ) : Inverts N (fourierInverse N) (fourier N) := by
  intro n hn m hm
  have hN : (N : ℂ) ≠ 0 := by exact_mod_cast (by omega : N ≠ 0)
  have hroot := Complex.isPrimitiveRoot_exp N (by omega)
  set ζ := Complex.exp (2 * Real.pi * Complex.I / N) with hζ
  have hterm (k : ℕ) : fourierInverse N k n * fourier N k m = 1 / N * (ζ ^ n / ζ ^ m) ^ k := by
    rw [fourierInverse, fourier, mul_assoc, ← Complex.exp_add, hζ, ← Complex.exp_nat_mul, ← Complex.exp_nat_mul,
      ← Complex.exp_sub, ← Complex.exp_nat_mul]
    congr 2
    ring
  simp only [hterm, ← mul_sum]
  have hζ0 : ζ ≠ 0 := Complex.exp_ne_zero _
  split_ifs with hnm
  · rw [hnm, div_self (pow_ne_zero m hζ0)]
    simp [hN]
  · have hne : ζ ^ n / ζ ^ m ≠ 1 := fun h1 => hnm (hroot.pow_inj hn hm ((div_eq_one_iff_eq (pow_ne_zero m hζ0)).mp h1))
    have hpow : (ζ ^ n / ζ ^ m) ^ N = 1 := by
      rw [div_pow, ← pow_mul, ← pow_mul, mul_comm n, mul_comm m, pow_mul, pow_mul, hroot.pow_eq_one, one_pow, one_pow,
        div_one]
    rw [geom_sum_eq hne, hpow, sub_self, zero_div, mul_zero]

/-! ### The cosine kernels -/

/-- The cosine over the samples sums to zero at every frequency but the multiples of 2 S. -/
theorem sum_cos_samples {S : ℕ} {j : ℤ} (hS : 0 < S) (hj : ¬(2 * S : ℤ) ∣ j) :
    ∑ n ∈ range S, Real.cos (Real.pi * (2 * n + 1) * j / (2 * S)) = 0 := by
  have hpi : Real.pi / S ≠ 0 := div_ne_zero Real.pi_ne_zero (by exact_mod_cast hS.ne')
  have hzero := (mul_eq_zero.mp (Polynomial.Chebyshev.sumZeroes_T_of_not_dvd hj)).resolve_left hpi
  rw [← hzero]
  refine sum_congr rfl fun n _ => ?_
  rw [Polynomial.Chebyshev.T_real_cos]
  congr 1
  ring

theorem alpha_mul_self {S : ℕ} (k : ℕ) : alpha S k * alpha S k = (if k = 0 then 1 else 2) / S := by
  unfold alpha
  split_ifs <;> exact Real.mul_self_sqrt (by positivity)

/-- The rows of the DCT basis are orthonormal (R88): a product of two cosines is a sum of two, of the frequencies'
difference and of their sum. -/
theorem sum_basis_mul_basis {S k l : ℕ} (hk : k < S) (hl : l < S) :
    ∑ n ∈ range S, basis S k n * basis S l n = if k = l then 1 else 0 := by
  have hS : 0 < S := by omega
  have hSr : (S : ℝ) ≠ 0 := by exact_mod_cast hS.ne'
  have hproduct (n : ℕ) : basis S k n * basis S l n = alpha S k * alpha S l / 2 *
      (Real.cos (Real.pi * (2 * n + 1) * (k - l : ℤ) / (2 * S)) +
        Real.cos (Real.pi * (2 * n + 1) * (k + l : ℤ) / (2 * S))) := by
    have h := Real.two_mul_cos_mul_cos (Real.pi * (2 * n + 1) * k / (2 * S)) (Real.pi * (2 * n + 1) * l / (2 * S))
    rw [← sub_div, ← add_div, ← mul_sub, ← mul_add] at h
    push_cast
    rw [← h, basis, basis]
    ring
  simp only [hproduct, ← mul_sum, sum_add_distrib]
  split_ifs with hkl
  · subst hkl
    rw [alpha_mul_self]
    rcases Nat.eq_zero_or_pos k with rfl | hk0
    · simp
      field_simp
      norm_num
    · have hdouble : ¬(2 * S : ℤ) ∣ k + k := fun h => by
        have := Int.le_of_dvd (by omega) h
        omega
      rw [sum_cos_samples hS hdouble]
      simp [hk0.ne']
      field_simp
  · rw [sum_cos_samples hS fun h => ?_, sum_cos_samples hS fun h => ?_, add_zero, mul_zero]
    · have := Int.le_of_dvd (by omega) h
      omega
    · rcases lt_or_gt_of_ne hkl with hlt | hlt
      · have := Int.le_of_dvd (by omega) ((Int.dvd_neg).mpr h)
        omega
      · have := Int.le_of_dvd (by omega) h
        omega

/-- The DCT basis as a square matrix. -/
noncomputable def basisMatrix (S : ℕ) : Matrix (Fin S) (Fin S) ℝ := .of fun k n => basis S k n

/-- A square matrix with orthonormal rows has orthonormal columns. -/
theorem basis_inverts (S : ℕ) : Inverts S (basis S) (basis S) := by
  have hrows : basisMatrix S * (basisMatrix S).transpose = 1 := by
    ext k l
    simpa [basisMatrix, Matrix.mul_apply, Matrix.one_apply, Fin.ext_iff, sum_range] using
      sum_basis_mul_basis k.isLt l.isLt
  intro n hn m hm
  have hentry : ((basisMatrix S).transpose * basisMatrix S) ⟨n, hn⟩ ⟨m, hm⟩ =
      (1 : Matrix (Fin S) (Fin S) ℝ) ⟨n, hn⟩ ⟨m, hm⟩ := by
    rw [mul_eq_one_comm.mp hrows]
  simpa [basisMatrix, Matrix.mul_apply, Matrix.one_apply, sum_range] using hentry

/-- The weights of FDCTLEE are those the orthonormal basis of side 8 has twice (R92, R93). -/
theorem leeWeight_eq (k : ℕ) : leeWeight k = alpha 8 k * alpha 8 k := by
  rw [alpha_mul_self, leeWeight]
  split_ifs <;> norm_num

theorem basis_eq_leeKernel (k n : ℕ) : basis 8 k n = alpha 8 k * leeKernel k n := by
  rw [basis, leeKernel]
  norm_num

theorem leeKernel_inverts : Inverts 8 (fun k n => leeWeight k * leeKernel k n) leeKernel := by
  intro n hn m hm
  rw [← basis_inverts 8 n hn m hm]
  refine sum_congr rfl fun k _ => ?_
  dsimp only
  rw [leeWeight_eq, basis_eq_leeKernel, basis_eq_leeKernel]
  ring

/-! ### The round trip -/

/-- Settles O59: each inverse kernel undoes its forward kernel, on rows and on columns; the DCTs leave the imaginary
parts alone, and the level shift of DCT2D comes back. -/
theorem exactRoundTrip : Obligations.ExactRoundTrip := by
  intro alg S z i hsize hi
  cases alg with
  | fft1d =>
    show fft1dInverse (S * S) (fft1dForward (S * S) z) i = z i
    rw [fft1dInverse_eq, funext (fft1dForward_eq (S * S) z)]
    exact (fourierInverse_inverts _).roundTrip z hi
  | fft2d =>
    show fft2dInverse S (fft2dForward S z) i = z i
    rw [fft2dInverse_eq, funext (fft2dForward_eq S z)]
    exact (fourierInverse_inverts S).roundTrip_separable z hi
  | dct2d =>
    refine Complex.ext ?_ rfl
    have hback := (basis_inverts S).roundTrip_separable (fun i => (z i).re - 128) hi
    exact (congrArg (128 + ·) hback).trans (add_sub_cancel _ _)
  | fdct8 =>
    obtain ⟨-, -, rfl⟩ := hsize
    exact Complex.ext ((basis_inverts 8).roundTrip_separable (fun i => (z i).re) hi) rfl
  | fdctlee =>
    obtain ⟨-, -, rfl⟩ := hsize
    exact Complex.ext (leeKernel_inverts.roundTrip_separable (fun i => (z i).re) hi) rfl

/-! ### A change of one coefficient -/

/-- One dimension: the sum is linear in its coefficients. -/
theorem sum_mul_update {R : Type} [CommRing R] {N p : ℕ} (A Z : ℕ → R) (δ : R) (hp : p < N) :
    ∑ k ∈ range N, A k * Function.update Z p (Z p + δ) k = (∑ k ∈ range N, A k * Z k) + A p * δ := by
  have hterm (k : ℕ) : A k * Function.update Z p (Z p + δ) k = A k * Z k + if k = p then A p * δ else 0 := by
    rcases eq_or_ne k p with rfl | hne
    · simp [mul_add]
    · simp [hne]
  simp [hterm, sum_add_distrib, hp]

/-- Coefficient `p` stands in row `p / S` and column `p % S` (R83). -/
theorem index_eq_iff {S u v p : ℕ} (hv : v < S) : u * S + v = p ↔ u = p / S ∧ v = p % S := by
  constructor
  · rintro rfl
    obtain ⟨hdiv, hmod⟩ := div_mod_index u hv
    exact ⟨hdiv.symm, hmod.symm⟩
  · rintro ⟨rfl, rfl⟩
    exact Nat.div_add_mod' p S

/-- Two dimensions. -/
theorem sum_sum_mul_update {R : Type} [CommRing R] {S p : ℕ} (A : ℕ → ℕ → R) (Z : ℕ → R) (δ : R) (hp : p < S * S) :
    ∑ u ∈ range S, ∑ v ∈ range S, A u v * Function.update Z p (Z p + δ) (u * S + v) =
      (∑ u ∈ range S, ∑ v ∈ range S, A u v * Z (u * S + v)) + A (p / S) (p % S) * δ := by
  have hS : 0 < S := Nat.pos_of_ne_zero fun h0 => by simp [h0] at hp
  have hterm (u : ℕ) : ∑ v ∈ range S, A u v * Function.update Z p (Z p + δ) (u * S + v) =
      (∑ v ∈ range S, A u v * Z (u * S + v)) + if u = p / S then A u (p % S) * δ else 0 := by
    split_ifs with hu
    · have hrow := sum_mul_update (A u) (fun v => Z (u * S + v)) δ (Nat.mod_lt p hS)
      have hp' : u * S + p % S = p := (index_eq_iff (Nat.mod_lt p hS)).mpr ⟨hu, rfl⟩
      rw [← hrow]
      refine sum_congr rfl fun v hv => ?_
      congr 1
      rw [Function.update_apply, Function.update_apply, hp']
      exact if_congr (by rw [index_eq_iff (mem_range.mp hv), and_iff_right hu]) rfl rfl
    · rw [add_zero]
      refine sum_congr rfl fun v hv => ?_
      rw [Function.update_of_ne fun h => hu ((index_eq_iff (mem_range.mp hv)).mp h).1]
  simp [hterm, sum_add_distrib, Nat.div_lt_of_lt_mul hp]

/-- A change of a coefficient's real part reaches the real parts alone. -/
theorem re_update (Z : ℕ → ℂ) (p : ℕ) (δ : ℝ) :
    (fun i => (Function.update Z p (Z p + δ) i).re) =
      Function.update (fun i => (Z i).re) p ((Z p).re + δ) := by
  funext i
  rcases eq_or_ne i p with rfl | hne
  · simp
  · simp [hne]

theorem im_update (Z : ℕ → ℂ) (p e : ℕ) (δ : ℝ) : (Function.update Z p (Z p + δ) e).im = (Z e).im := by
  rcases eq_or_ne e p with rfl | hne
  · simp
  · simp [hne]

/-- The change of every sample under a separable inverse, the imaginary part left alone (R94, R101). -/
theorem separableInverse_update {S p : ℕ} (K : ℕ → ℕ → ℝ) (Z : ℕ → ℂ) (δ : ℝ) (e : ℕ) (hp : p < S * S) :
    separableInverse S K (fun i => (Function.update Z p (Z p + δ) i).re) e =
      separableInverse S K (fun i => (Z i).re) e + K (p / S) (e / S) * K (p % S) (e % S) * δ := by
  rw [re_update]
  exact sum_sum_mul_update (fun u v => K u (e / S) * K v (e % S)) (fun i => (Z i).re) δ hp

/-- The constant basis function, the carrier of DCT2D. -/
theorem basis_zero (S n : ℕ) : basis S 0 n = alpha S 0 := by simp [basis]

/-- The fastest basis function, the carrier of FDCT8. -/
theorem basis_seven (n : ℕ) : basis 8 7 n = 1 / 2 * Real.cos (Real.pi * (2 * n + 1) * 7 / 16) := by
  have hroot : Real.sqrt (2 / 8) = 1 / 2 := by
    rw [show (2 / 8 : ℝ) = (1 / 2) ^ 2 by norm_num, Real.sqrt_sq (by norm_num)]
  rw [basis_eq_leeKernel, leeKernel, alpha, if_neg (by decide)]
  push_cast
  rw [hroot]

theorem fourierInverse_zero (N n : ℕ) : fourierInverse N 0 n = 1 / N := by simp [fourierInverse]

/-- Settles O60: the inverses are linear, and the kernel at the carrier is the factor R101 gives. -/
theorem carrierChangesSamples : Obligations.CarrierChangesSamples := by
  intro S Z δ e p hS he changed w
  have hzero : 0 < S * S := by omega
  have hreal {a b d : ℝ} {z z' : ℂ} (hre : a = b + d) (him : z'.im = z.im) :
      (⟨a, z'.im⟩ : ℂ) = (⟨b, z.im⟩ : ℂ) + (d : ℝ) := Complex.ext (by simpa using hre) (by simpa using him)
  refine ⟨?_, ?_, ?_, ?_, ?_⟩
  · show fft2dInverse S (changed 0) e = fft2dInverse S Z e + _
    rw [fft2dInverse_eq, fft2dInverse_eq, sum_sum_mul_update _ Z δ hzero, Nat.zero_div, Nat.zero_mod,
      fourierInverse_zero, fourierInverse_zero]
    push_cast
    ring
  · refine hreal ?_ (im_update Z 0 e δ)
    rw [dct2dInverse, dct2dInverse, separableInverse_update _ Z δ e hzero, Nat.zero_div, Nat.zero_mod, basis_zero,
      basis_zero, alpha_mul_self, if_pos rfl]
    ring
  · rintro rfl
    refine hreal ?_ (im_update Z 63 e δ)
    rw [fdct8Inverse, fdct8Inverse, separableInverse_update _ Z δ e (by decide), basis_seven, basis_seven]
    ring
  · rintro rfl
    refine hreal ?_ (im_update Z 63 e δ)
    rw [fdctleeInverse, fdctleeInverse, separableInverse_update _ Z δ e (by decide)]
    simp only [leeWeight, leeKernel]
    norm_num
    ring
  · intro hp
    show fft1dInverse (S * S) (changed p) e = fft1dInverse (S * S) Z e + _
    rw [fft1dInverse_eq, fft1dInverse_eq, sum_mul_update _ Z δ hp, fourierInverse_eq, angle]
    congr 1
    refine Complex.ext ?_ ?_
    · simp
      ring
    · simp
      ring

end Sys2Proof.Machine.Exact
end

section
/-! PROOFS. The constants of REF against the exact reals (R99, R100): those of the passes of length 2 and 4 are exact,
and the 8-point coefficients are the reals rounded once, because the fixed-point value and the real round alike. -/

namespace Sys2Proof.Machine

open Sys2Proof.Claims

/-! ### The nearest binary64 of a real -/

/-- `fl` of a moderate fraction is the binary64 nearest to it (R14). -/
theorem nearestTo_fl (n : Int) {d : Nat} (hd : 0 < d) (h : |(n : ℝ) / d| ≤ 2) :
    NearestTo (Fp.fl n d) ((n : ℝ) / d) := by
  have hq : |(n : ℚ) / d| ≤ 2 := by exact_mod_cast h
  have hbound : (2 : ℚ) < 2 ^ 1024 - 2 ^ 970 := by
    have h1024 : (2 : ℚ) ^ 1024 = 2 ^ 54 * 2 ^ 970 := by rw [← pow_add]
    have h970 : (1 : ℚ) ≤ 2 ^ 970 := one_le_pow₀ (by norm_num)
    rw [h1024]
    generalize (2 : ℚ) ^ 970 = t at h970
    linarith
  obtain ⟨hfin, hnear⟩ := (Fp.roundsToNearestEven n d hd).1 (hq.trans_lt hbound)
  refine ⟨hfin, fun z hz => ?_⟩
  exact_mod_cast (hnear z hz).1

/-- What is nearest to both ends of an interval is nearest to every real in it. -/
theorem nearestTo_of_between {x : F64} {a b r : ℝ} (ha : NearestTo x a) (hb : NearestTo x b) (har : a ≤ r)
    (hrb : r ≤ b) : NearestTo x r := by
  refine ⟨ha.1, fun z hz => ?_⟩
  have hza := sq_le_sq.mpr (ha.2 z hz)
  have hzb := sq_le_sq.mpr (hb.2 z hz)
  generalize ((Exact.value x : ℚ) : ℝ) = v at *
  generalize ((Exact.value z : ℚ) : ℝ) = w at *
  rw [← sq_le_sq]
  rcases le_total v w with h | h <;> nlinarith

/-- A fraction rounds as it does 2^-60 below and 2^-60 above it. -/
def roundsAlike (n : Int) (d : Nat) : Bool :=
  Fp.fl (n * 2 ^ 60 - d) (d * 2 ^ 60) == Fp.fl n d && Fp.fl (n * 2 ^ 60 + d) (d * 2 ^ 60) == Fp.fl n d

/-- A real within 2^-60 of a fraction that rounds alike is rounded to the same binary64. -/
theorem nearestTo_of_roundsAlike {n : Int} {d : Nat} {r : ℝ} (hd : 0 < d) (h : roundsAlike n d = true) (hr : |r| ≤ 1)
    (hclose : |(n : ℝ) / d - r| ≤ 1 / 2 ^ 60) : NearestTo (Fp.fl n d) r := by
  have hd' : (d : ℝ) ≠ 0 := by exact_mod_cast hd.ne'
  obtain ⟨hlo, hhi⟩ := abs_le.mp hclose
  obtain ⟨hr1, hr2⟩ := abs_le.mp hr
  have hend (k : Int) (hk : -1 ≤ (k : ℝ) ∧ (k : ℝ) ≤ 1) :
      NearestTo (Fp.fl (n * 2 ^ 60 + k * d) (d * 2 ^ 60)) (n / d + k / 2 ^ 60) := by
    have hfraction : ((n * 2 ^ 60 + k * d : Int) : ℝ) / ((d * 2 ^ 60 : Nat) : ℝ) = n / d + k / 2 ^ 60 := by
      push_cast
      rw [add_div, mul_div_mul_right _ _ (by norm_num), mul_comm (k : ℝ), mul_div_mul_left _ _ hd']
      norm_num
    rw [← hfraction]
    refine nearestTo_fl _ (by positivity) ?_
    rw [hfraction, abs_le]
    constructor <;> linarith
  simp only [roundsAlike, Bool.and_eq_true, beq_iff_eq] at h
  have hbelow := hend (-1) (by norm_num)
  have habove := hend 1 (by norm_num)
  rw [neg_one_mul, ← sub_eq_add_neg, h.1] at hbelow
  rw [one_mul, h.2] at habove
  push_cast at hbelow habove
  exact nearestTo_of_between hbelow habove (by linarith) (by linarith)

/-! ### The 8-point coefficients -/

theorem leeForward_roundsAlike : ∀ k < 8, ∀ n < 8,
    roundsAlike (Trig.cosPi ((2 * n + 1) * k) 16) Trig.scale = true := by
  decide +kernel

theorem leeInverse_roundsAlike : ∀ k < 8, ∀ n < 8,
    roundsAlike (Trig.cosPi ((2 * n + 1) * k) 16) (Trig.scale * (if k = 0 then 8 else 4)) = true := by
  decide +kernel

theorem dctCoeff_roundsAlike : ∀ k < 8, ∀ n < 8,
    roundsAlike ((Trig.sqrtFixed (if k = 0 then 1 else 2) 8 : Int) * Trig.cosPi ((2 * n + 1) * k) (2 * 8))
      (Trig.scale * Trig.scale) = true := by
  decide +kernel

theorem leeForward_nearest {k n : Nat} (hk : k < 8) (hn : n < 8) :
    NearestTo (Trig.leeForward k n) (Exact.leeKernel k n) := by
  have hclose := Trig.cosPi_close ((2 * n + 1) * k) 16 (by decide)
  rw [Trig.lee_angle] at hclose
  exact nearestTo_of_roundsAlike Trig.scale_nat_pos (leeForward_roundsAlike k hk n hn) (Real.abs_cos_le_one _)
    (hclose.trans (by norm_num))

theorem leeWeight_eq_one_div (k : Nat) : Exact.leeWeight k = 1 / ((if k = 0 then 8 else 4 : Nat) : ℝ) := by
  unfold Exact.leeWeight
  split_ifs <;> norm_num

theorem leeInverse_nearest {k n : Nat} (hk : k < 8) (hn : n < 8) :
    NearestTo (Trig.leeInverse k n) (Exact.leeWeight k * Exact.leeKernel k n) := by
  have hclose := Trig.cosPi_close ((2 * n + 1) * k) 16 (by decide)
  rw [Trig.lee_angle] at hclose
  have hweight : |Exact.leeWeight k| ≤ 1 := by unfold Exact.leeWeight; split_ifs <;> norm_num [abs_le]
  have hpos : 0 < Trig.scale * (if k = 0 then 8 else 4) := Nat.mul_pos Trig.scale_nat_pos (by split_ifs <;> decide)
  refine nearestTo_of_roundsAlike hpos (leeInverse_roundsAlike k hk n hn) ?_ ?_
  · rw [abs_mul]
    exact mul_le_one₀ hweight (abs_nonneg _) (Real.abs_cos_le_one _)
  · have hfactor : ((Trig.cosPi ((2 * n + 1) * k) 16 : Int) : ℝ) / ((Trig.scale * (if k = 0 then 8 else 4) : Nat) : ℝ) =
        Exact.leeWeight k * (Trig.cosPi ((2 * n + 1) * k) 16 / Trig.scale) := by
      rw [leeWeight_eq_one_div, Nat.cast_mul, div_mul_div_comm, one_mul, mul_comm (Trig.scale : ℝ)]
    rw [hfactor, ← mul_sub, abs_mul]
    exact (mul_le_of_le_one_left (abs_nonneg _) hweight).trans (hclose.trans (by norm_num))

/-- A product is as near as its factors, the one at most 1 and the other at most 2. -/
theorem abs_mul_sub_mul_le {a b α c ε δ : ℝ} (ha : |a - α| ≤ ε) (hb : |b - c| ≤ δ) (hα : |α| ≤ 1) (hb2 : |b| ≤ 2) :
    |a * b - α * c| ≤ ε * 2 + δ := by
  have hε : 0 ≤ ε := (abs_nonneg _).trans ha
  calc |a * b - α * c| = |(a - α) * b + α * (b - c)| := by congr 1; ring
    _ ≤ |(a - α) * b| + |α * (b - c)| := abs_add_le _ _
    _ = |a - α| * |b| + |α| * |b - c| := by rw [abs_mul, abs_mul]
    _ ≤ ε * 2 + 1 * δ := add_le_add (mul_le_mul ha hb2 (abs_nonneg _) hε) (mul_le_mul hα hb (abs_nonneg _) zero_le_one)
    _ = ε * 2 + δ := by rw [one_mul]

theorem alpha_eq_sqrt (S k : Nat) : Exact.alpha S k = Real.sqrt ((if k = 0 then 1 else 2 : Nat) / (S : ℝ)) := by
  unfold Exact.alpha
  split_ifs <;> norm_num

theorem dctCoeff_nearest {k n : Nat} (hk : k < 8) (hn : n < 8) :
    NearestTo (Trig.dctCoeff 8 k n) (Exact.basis 8 k n) := by
  have hcos := Trig.cosPi_close ((2 * n + 1) * k) (2 * 8) (by decide)
  rw [Trig.lee_angle, Nat.cast_mul, Nat.cast_ofNat] at hcos
  have hroot := Trig.sqrtFixed_close (if k = 0 then 1 else 2) 8 (by decide) (by split_ifs <;> decide)
  rw [← alpha_eq_sqrt] at hroot
  have halpha : |Exact.alpha 8 k| ≤ 1 := by
    rw [alpha_eq_sqrt, abs_of_nonneg (Real.sqrt_nonneg _), Real.sqrt_le_one]
    split_ifs <;> norm_num
  have hcos1 := Real.abs_cos_le_one (Real.pi * (2 * n + 1) * k / (2 * (8 : Nat)))
  have hcos2 := abs_sub_abs_le_abs_sub ((Trig.cosPi ((2 * n + 1) * k) (2 * 8) : ℝ) / Trig.scale)
    (Real.cos (Real.pi * (2 * n + 1) * k / (2 * (8 : Nat))))
  have hscale : 1 / (Trig.scale : ℝ) ≤ 1 / 2 ^ 192 := by unfold Trig.scale; norm_num
  have hpos := Nat.mul_pos Trig.scale_nat_pos Trig.scale_nat_pos
  refine nearestTo_of_roundsAlike hpos (dctCoeff_roundsAlike k hk n hn) ?_ ?_
  · rw [Exact.basis, abs_mul]
    exact mul_le_one₀ halpha (abs_nonneg _) hcos1
  · rw [Int.cast_mul, Nat.cast_mul, Int.cast_natCast, ← div_mul_div_comm]
    refine (abs_mul_sub_mul_le hroot hcos halpha ?_).trans ?_
    · norm_num at hcos2 ⊢
      linarith
    · norm_num at hscale ⊢
      linarith

/-! ### The exact twiddles -/

/-- The cosine of `j` quarter turns, for `j` below 4. -/
def turnCos : Nat → Int
  | 0 => 1
  | 2 => -1
  | _ => 0

/-- The sine of `j` quarter turns, for `j` below 4. -/
def turnSin : Nat → Int
  | 1 => 1
  | 3 => -1
  | _ => 0

theorem abs_turnCos_le (j : Nat) : |turnCos j| ≤ 1 := by
  unfold turnCos
  split <;> decide

theorem abs_turnSin_le (j : Nat) : |turnSin j| ≤ 1 := by
  unfold turnSin
  split <;> decide

theorem cos_turn {j : Nat} (hj : j < 4) : Real.cos (j * (Real.pi / 2)) = turnCos j := by
  have h3 : (3 : ℝ) * (Real.pi / 2) = Real.pi / 2 + Real.pi := by ring
  have h2 : (2 : ℝ) * (Real.pi / 2) = Real.pi := by ring
  interval_cases j <;> simp [turnCos, h2, h3, Real.cos_add_pi]

theorem sin_turn {j : Nat} (hj : j < 4) : Real.sin (j * (Real.pi / 2)) = turnSin j := by
  have h3 : (3 : ℝ) * (Real.pi / 2) = Real.pi / 2 + Real.pi := by ring
  have h2 : (2 : ℝ) * (Real.pi / 2) = Real.pi := by ring
  interval_cases j <;> simp [turnSin, h2, h3, Real.sin_add_pi]

/-- The twiddles of a pass of length 2 or 4, evaluated: entry `m` is `m * (4 / L)` quarter turns. -/
theorem twiddles_eval : ∀ L ∈ [2, 4], ∀ m < L,
    Fp.scaled (Trig.twiddleCos L m) = turnCos (m * (4 / L)) * Fp.unit ∧
    Fp.scaled (Trig.twiddleSin .forward L m) = -turnSin (m * (4 / L)) * Fp.unit ∧
    Fp.scaled (Trig.twiddleSin .inverse L m) = turnSin (m * (4 / L)) * Fp.unit := by
  decide +kernel

theorem value_of_scaled {x : F64} {n : Int} (h : Fp.scaled x = n * Fp.unit) : Exact.value x = n := by
  rw [Exact.value, h, Int.cast_mul, Int.cast_natCast, mul_div_assoc, div_self Fp.unit_pos.ne', mul_one]

/-- An angle of a pass of length 2 or 4 is a number of quarter turns. -/
theorem angle_eq_turn {L : Nat} (hL : L = 2 ∨ L = 4) (m : Nat) :
    2 * Real.pi * m / L = (m * (4 / L) : Nat) * (Real.pi / 2) := by
  rcases hL with rfl | rfl <;> push_cast <;> ring

/-- The twiddles of a pass of length 2 or 4 are exact (R100). -/
theorem twiddles_exact {L m : Nat} (hL : L = 2 ∨ L = 4) (hm : m < L) :
    ((Exact.value (Trig.twiddleCos L m) : ℚ) : ℝ) = Real.cos (2 * Real.pi * m / L) ∧
    ((Exact.value (Trig.twiddleSin .forward L m) : ℚ) : ℝ) = -Real.sin (2 * Real.pi * m / L) ∧
    ((Exact.value (Trig.twiddleSin .inverse L m) : ℚ) : ℝ) = Real.sin (2 * Real.pi * m / L) := by
  obtain ⟨hc, hf, hi⟩ := twiddles_eval L (by simpa using hL) m hm
  have hturn : m * (4 / L) < 4 := by rcases hL with rfl | rfl <;> omega
  rw [angle_eq_turn hL, cos_turn hturn, sin_turn hturn, value_of_scaled hc, value_of_scaled hf, value_of_scaled hi]
  norm_cast

/-- Settles O56: the exact twiddles by their quarter turns, the 8-point coefficients because all that is near them rounds
alike, and every other constant by the bounds of its fixed-point value. -/
theorem referenceConstants : Obligations.ReferenceConstants := by
  refine ⟨fun L m hL hm => twiddles_exact hL hm, fun k n hk hn => ?_, fun L m hL _ _ => ?_, fun S k n hS _ _ _ => ?_⟩
  · exact ⟨dctCoeff_nearest hk hn, leeForward_nearest hk hn, leeInverse_nearest hk hn⟩
  · obtain ⟨hf, hi⟩ := Trig.twiddleSin_near L m hL
    refine ⟨(Trig.twiddleCos_near L m hL).2, ?_, hi.2⟩
    rw [← sub_neg_eq_add]
    exact hf.2
  · exact (Trig.dctCoeff_near S k n hS).2

end Sys2Proof.Machine
end

section
/-! PROOFS. Where rounding is exact (R14, R100): a result that is a small integer over a power of two is a binary64, and
so each operation gives it unrounded. -/

namespace Sys2Proof.Machine.Fp

/-! ### Exact roundings -/

theorem roundDiv_mul_cancel (q : Nat) {d : Nat} (hd : 0 < d) : roundDiv (q * d) d = q := by
  unfold roundDiv
  dsimp only
  rw [Nat.mul_div_cancel _ hd, Nat.mul_mod_left, if_neg (by omega)]

/-- A magnitude of 53 significant bits is its own significand. -/
theorem significand_mul_ulp {m t d : Nat} (hm : m < 2 ^ 53) (hd : 0 < d) :
    significand (m * 2 ^ t * d) d * 2 ^ ulpExp (m * 2 ^ t * d) d = m * 2 ^ t := by
  have hulp : ulpExp (m * 2 ^ t * d) d ≤ t := by
    rw [ulpExp, Nat.mul_div_cancel _ hd]
    rcases Nat.eq_zero_or_pos m with rfl | hm0
    · simp
    · have hlog : (m * 2 ^ t).log2 < 53 + t := by
        rw [Nat.log2_lt (by positivity), pow_add]
        exact Nat.mul_lt_mul_of_pos_right hm (Nat.two_pow_pos t)
      omega
  rw [significand]
  generalize ulpExp (m * 2 ^ t * d) d = e at hulp
  obtain ⟨k, rfl⟩ := Nat.exists_eq_add_of_le hulp
  have hfactor : m * 2 ^ (e + k) * d = m * 2 ^ k * (d * 2 ^ e) := by ring
  rw [hfactor, roundDiv_mul_cancel _ (Nat.mul_pos hd (Nat.two_pow_pos e))]
  ring

theorem lt_overflowMag {m t : Nat} (hm : m < 2 ^ 53) (ht : t ≤ 1074) : m * 2 ^ t < overflowMag := by
  have hpow : 2 ^ t ≤ 2 ^ 2044 := Nat.pow_le_pow_right (by decide) (by omega)
  have hpos : 0 < 2 ^ t := Nat.two_pow_pos t
  unfold overflowMag
  generalize 2 ^ 2044 = w at *
  exact Nat.mul_lt_mul_of_lt_of_le (hm.trans (by decide)) hpow (hpos.trans_le hpow)

theorem signFactor_mul_natAbs (n : Int) : signFactor (decide (n < 0)) * n.natAbs = n := by
  unfold signFactor
  simp only [decide_eq_true_eq]
  split_ifs <;> omega

/-- `fl` of a fraction that is a binary64 gives it (R14). -/
theorem fl_exact {n : Int} {d m t : Nat} (hd : 0 < d) (h : n.natAbs * unit = m * 2 ^ t * d) (hm : m < 2 ^ 53)
    (ht : t ≤ 1074) : finite (fl n d) = true ∧ Exact.value (fl n d) = n / d := by
  obtain ⟨hfin, hscaled, -⟩ := pack_roundMag_of_lt (decide (n < 0)) hd
    (Nat.mul_lt_mul_of_pos_right (lt_overflowMag hm ht) hd)
  have hsig : (significand (m * 2 ^ t * d) d * 2 ^ ulpExp (m * 2 ^ t * d) d : Int) = ((m * 2 ^ t : Nat) : Int) := by
    exact_mod_cast significand_mul_ulp hm hd
  rw [hsig] at hscaled
  rw [fl, h]
  refine ⟨hfin, ?_⟩
  have hcross : scaled (pack (decide (n < 0)) (roundMag (m * 2 ^ t * d) d)) * d = n * unit := by
    calc scaled (pack (decide (n < 0)) (roundMag (m * 2 ^ t * d) d)) * d
        = signFactor (decide (n < 0)) * ((m * 2 ^ t * d : Nat) : Int) := by rw [hscaled]; push_cast; ring
      _ = signFactor (decide (n < 0)) * n.natAbs * unit := by rw [← h]; push_cast; ring
      _ = n * unit := by rw [signFactor_mul_natAbs]
  have hd' : (d : ℚ) ≠ 0 := by exact_mod_cast hd.ne'
  rw [Exact.value, div_eq_div_iff unit_pos.ne' hd']
  exact_mod_cast hcross

/-! ### Results that are rounded once -/

/-- `x` is the fraction `n / d` rounded once; a zero may have either sign. -/
def RoundedOnce (x : F64) (n : Int) (d : Nat) : Prop := (n ≠ 0 ∧ x = fl n d) ∨ (n = 0 ∧ ∃ neg, x = pack neg 0)

theorem value_zero (neg : Bool) : finite (pack neg 0) = true ∧ Exact.value (pack neg 0) = 0 := by
  cases neg <;> decide +kernel

theorem roundMag_zero (d : Nat) : roundMag 0 d = 0 := by simp [roundMag, roundDiv]

theorem mag_eq_zero {x : F64} (h : scaled x = 0) : mag x = 0 := by rw [← natAbs_scaled, h, Int.natAbs_zero]

theorem addSigned_roundedOnce (op : FloatOp) {a b : F64} (sb : Bool) (ha : finite a = true) (hb : finite b = true) :
    RoundedOnce (addSigned op a b sb) (scaled a + signFactor sb * mag b) unit := by
  by_cases h : scaled a + signFactor sb * mag b = 0
  · have hsb : (if sb then -(mag b : Int) else (mag b : Int)) = signFactor sb * mag b := by
      cases sb <;> simp [signFactor]
    exact .inr ⟨h, sign a && sb, by simp [addSigned, addFinite, not_special ha, not_special hb, hsb, h]⟩
  · exact .inl ⟨h, addSigned_eq_fl op ha hb h⟩

theorem fadd_roundedOnce {a b : F64} (ha : finite a = true) (hb : finite b = true) :
    RoundedOnce (fadd a b) (scaled a + scaled b) unit := by
  rw [scaled_eq b]
  exact addSigned_roundedOnce .add (sign b) ha hb

theorem fsub_roundedOnce {a b : F64} (ha : finite a = true) (hb : finite b = true) :
    RoundedOnce (fsub a b) (scaled a - scaled b) unit := by
  have hsub : scaled a - scaled b = scaled a + signFactor (!sign b) * mag b := by
    rw [scaled_eq b]
    cases sign b <;> simp [signFactor, sub_eq_add_neg]
  rw [hsub]
  exact addSigned_roundedOnce .sub (!sign b) ha hb

theorem fmul_roundedOnce {a b : F64} (ha : finite a = true) (hb : finite b = true) :
    RoundedOnce (fmul a b) (scaled a * scaled b) (unit * unit) := by
  by_cases h : scaled a * scaled b = 0
  · have hmag : mag a * mag b = 0 := by rw [← natAbs_scaled, ← natAbs_scaled, ← Int.natAbs_mul, h, Int.natAbs_zero]
    exact .inr ⟨h, sign a != sign b, by simp only [fmul, not_special ha, not_special hb, hmag, roundMag_zero]; rfl⟩
  · exact .inl ⟨h, fmul_eq_fl ha hb h⟩

theorem fdiv_roundedOnce {a b : F64} (ha : finite a = true) (hb : finite b = true) (hb0 : scaled b ≠ 0) :
    RoundedOnce (fdiv a b) (scaled a * (scaled b).sign) (scaled b).natAbs := by
  by_cases h : scaled a = 0
  · refine .inr ⟨by rw [h, zero_mul], sign a != sign b, ?_⟩
    simp [fdiv, not_special ha, not_special hb, isZero, mag_ne_zero hb0, mag_eq_zero h, roundMag_zero]
  · exact .inl ⟨mul_ne_zero h (by simpa using hb0), fdiv_eq_fl ha hb h hb0⟩

/-! ### Dyadic values -/

/-- An integer of magnitude at most `B` over `2 ^ j`. -/
def IsDyadic (j B : Nat) (q : ℚ) : Prop := ∃ k : Int, |k| ≤ B ∧ q = k / 2 ^ j

theorem IsDyadic.add {j A B : Nat} {p q : ℚ} (hp : IsDyadic j A p) (hq : IsDyadic j B q) :
    IsDyadic j (A + B) (p + q) := by
  obtain ⟨k, hk, rfl⟩ := hp
  obtain ⟨l, hl, rfl⟩ := hq
  exact ⟨k + l, by push_cast; exact (abs_add_le k l).trans (add_le_add hk hl), by push_cast; ring⟩

theorem IsDyadic.neg {j B : Nat} {q : ℚ} (hq : IsDyadic j B q) : IsDyadic j B (-q) := by
  obtain ⟨l, hl, rfl⟩ := hq
  exact ⟨-l, by rwa [abs_neg], by push_cast; ring⟩

theorem IsDyadic.mul {i j A B : Nat} {p q : ℚ} (hp : IsDyadic i A p) (hq : IsDyadic j B q) :
    IsDyadic (i + j) (A * B) (p * q) := by
  obtain ⟨k, hk, rfl⟩ := hp
  obtain ⟨l, hl, rfl⟩ := hq
  refine ⟨k * l, ?_, by push_cast; rw [pow_add, div_mul_div_comm]⟩
  rw [abs_mul]
  push_cast
  exact mul_le_mul hk hl (abs_nonneg l) (by positivity)

theorem IsDyadic.div_two_pow {j B : Nat} {q : ℚ} (hq : IsDyadic j B q) (i : Nat) : IsDyadic (j + i) B (q / 2 ^ i) := by
  obtain ⟨l, hl, rfl⟩ := hq
  exact ⟨l, hl, by rw [pow_add, div_div]⟩

/-- A finite binary64 with a dyadic value. -/
def Dyadic (j B : Nat) (x : F64) : Prop := finite x = true ∧ IsDyadic j B (Exact.value x)

/-- What is rounded once and has a dyadic value of fewer than 53 bits is exact. -/
theorem RoundedOnce.exact {x : F64} {n : Int} {d j B : Nat} {q : ℚ} (h : RoundedOnce x n d) (hd : 0 < d)
    (hn : (n : ℚ) / d = q) (hq : IsDyadic j B q) (hj : j ≤ 1074) (hB : B < 2 ^ 53) :
    Dyadic j B x ∧ Exact.value x = q := by
  suffices hx : finite x = true ∧ Exact.value x = q from ⟨⟨hx.1, hx.2 ▸ hq⟩, hx.2⟩
  subst hn
  rcases h with ⟨-, rfl⟩ | ⟨rfl, neg, rfl⟩
  · obtain ⟨k, hk, hkq⟩ := hq
    have hd' : (d : ℚ) ≠ 0 := by exact_mod_cast hd.ne'
    have hcross : n * 2 ^ j = k * d := by
      rw [div_eq_div_iff hd' (by positivity)] at hkq
      exact_mod_cast hkq
    have hmag : n.natAbs * unit = k.natAbs * 2 ^ (1074 - j) * d := by
      have hnat : n.natAbs * 2 ^ j = k.natAbs * d := by
        simpa [Int.natAbs_mul, Int.natAbs_pow] using congrArg Int.natAbs hcross
      have hunit : unit = 2 ^ j * 2 ^ (1074 - j) := by rw [unit, ← pow_add, Nat.add_sub_of_le hj]
      rw [hunit, ← mul_assoc, hnat]
      ring
    exact fl_exact hd hmag (by zify; exact hk.trans_lt (by exact_mod_cast hB)) (Nat.sub_le _ _)
  · rw [Int.cast_zero, zero_div]
    exact value_zero neg

section
variable {j A B : Nat} {a b : F64} (ha : Dyadic j A a) (hj : j ≤ 1074)
include ha hj

theorem Dyadic.fadd (hb : Dyadic j B b) (hAB : A + B < 2 ^ 53) :
    Dyadic j (A + B) (fadd a b) ∧ Exact.value (fadd a b) = Exact.value a + Exact.value b := by
  refine (fadd_roundedOnce ha.1 hb.1).exact unit_pos_nat ?_ (ha.2.add hb.2) hj hAB
  rw [Exact.value, Exact.value, Int.cast_add, add_div]

theorem Dyadic.fsub (hb : Dyadic j B b) (hAB : A + B < 2 ^ 53) :
    Dyadic j (A + B) (fsub a b) ∧ Exact.value (fsub a b) = Exact.value a - Exact.value b := by
  rw [sub_eq_add_neg]
  refine (fsub_roundedOnce ha.1 hb.1).exact unit_pos_nat ?_ (ha.2.add hb.2.neg) hj hAB
  rw [Exact.value, Exact.value, Int.cast_sub, sub_div, sub_eq_add_neg]

/-- A product with 0, 1 or -1. -/
theorem Dyadic.fmul_unit (hb : Dyadic 0 1 b) (hA : A < 2 ^ 53) :
    Dyadic j A (fmul a b) ∧ Exact.value (fmul a b) = Exact.value a * Exact.value b := by
  have hq := ha.2.mul hb.2
  rw [add_zero, mul_one] at hq
  refine (fmul_roundedOnce ha.1 hb.1).exact (Nat.mul_pos unit_pos_nat unit_pos_nat) ?_ hq hj hA
  rw [Exact.value, Exact.value, Int.cast_mul, Nat.cast_mul, div_mul_div_comm]

end

/-- A quotient by a power of two. -/
theorem Dyadic.fdiv_two_pow {j i B : Nat} {a b : F64} (ha : Dyadic j B a) (hb : finite b = true)
    (hbi : Exact.value b = 2 ^ i) (hj : j + i ≤ 1074) (hB : B < 2 ^ 53) :
    Dyadic (j + i) B (fdiv a b) ∧ Exact.value (fdiv a b) = Exact.value a / Exact.value b := by
  have hb0 : scaled b ≠ 0 := fun h => by
    rw [Exact.value, h, Int.cast_zero, zero_div] at hbi
    exact absurd hbi.symm (by positivity)
  have hq := ha.2.div_two_pow i
  rw [← hbi] at hq
  refine (fdiv_roundedOnce ha.1 hb hb0).exact (Int.natAbs_pos.mpr hb0) ?_ hq hj hB
  have hmag : ((scaled b).natAbs : ℚ) ≠ 0 := by simpa using hb0
  rw [Exact.value, Exact.value, div_div_div_cancel_right₀ unit_pos.ne', div_eq_div_iff hmag (by exact_mod_cast hb0)]
  have hcross : scaled a * (scaled b).sign * scaled b = scaled a * (scaled b).natAbs := by
    rw [mul_assoc, mul_comm (scaled b).sign, Int.mul_sign_self]
  rw [← Int.cast_natCast (R := ℚ) (scaled b).natAbs, ← Int.cast_mul, ← Int.cast_mul, hcross]

end Sys2Proof.Machine.Fp
end

section
/-! PROOFS. Under REF the small FFTs of integers are exactly the transforms over the reals (R100): one pass of length 2
or 4 on dyadic values rounds nothing, and a 2-D transform is two passes. -/

namespace Sys2Proof.Machine

open Finset Sys2Proof.Claims Sys2Proof.Machine.Fp

/-! ### Ordered sums -/

theorem orderedSum_succ (L : Nat) (term : Nat → F64) :
    orderedSum (L + 1) term = Fp.fadd (orderedSum L term) (term L) := by
  rw [orderedSum, List.range_succ, List.foldl_append]
  rfl

/-- A sum of dyadic values that stays below 2^53 is exact. -/
theorem orderedSum_exact {j B L : Nat} {term : Nat → F64} (h : ∀ n < L, Dyadic j B (term n)) (hj : j ≤ 1074)
    (hL : L * B < 2 ^ 53) :
    Dyadic j (L * B) (orderedSum L term) ∧ Exact.value (orderedSum L term) = ∑ n ∈ range L, Exact.value (term n) := by
  induction L with
  | zero =>
    have hzero : Exact.value (orderedSum 0 term) = 0 := (value_zero false).2
    refine ⟨⟨(value_zero false).1, 0, by simp, by simp [hzero]⟩, by rw [hzero]; rfl⟩
  | succ L ih =>
    rw [Nat.succ_mul] at hL ⊢
    obtain ⟨hsum, hval⟩ := ih (fun n hn => h n (by omega)) (by omega)
    obtain ⟨hsum', hval'⟩ := hsum.fadd hj (h L (by omega)) hL
    rw [orderedSum_succ, sum_range_succ, ← hval]
    exact ⟨hsum', hval'⟩

/-! ### One pass -/

/-- The complex number two patterns stand for. -/
noncomputable def complexOf (z : F64 × F64) : ℂ := ⟨((Exact.value z.1 : ℚ) : ℝ), ((Exact.value z.2 : ℚ) : ℝ)⟩

/-- A pair of dyadic values that stands for the complex number `w`. -/
def Represents (j B : Nat) (z : F64 × F64) (w : ℂ) : Prop := Dyadic j B z.1 ∧ Dyadic j B z.2 ∧ complexOf z = w

theorem complexOf_eq_iff {z : F64 × F64} {w : ℂ} :
    complexOf z = w ↔ ((Exact.value z.1 : ℚ) : ℝ) = w.re ∧ ((Exact.value z.2 : ℚ) : ℝ) = w.im := Complex.ext_iff

section
variable {j B : Nat} (hj : j ≤ 1074)
include hj

/-- A complex product with a twiddle of a quarter turn is exact. -/
theorem Represents.mul_unit {a b c t : F64} {z w : ℂ} (hz : Represents j B (a, b) z) (hw : Represents 0 1 (c, t) w)
    (hB : B + B < 2 ^ 53) :
    Represents j (B + B) (Fp.fsub (Fp.fmul a c) (Fp.fmul b t), Fp.fadd (Fp.fmul a t) (Fp.fmul b c)) (z * w) := by
  obtain ⟨ha, hb, rfl⟩ := hz
  obtain ⟨hc, ht, rfl⟩ := hw
  have hB' : B < 2 ^ 53 := by omega
  obtain ⟨hac, vac⟩ := ha.fmul_unit hj hc hB'
  obtain ⟨hbt, vbt⟩ := hb.fmul_unit hj ht hB'
  obtain ⟨hat, vat⟩ := ha.fmul_unit hj ht hB'
  obtain ⟨hbc, vbc⟩ := hb.fmul_unit hj hc hB'
  obtain ⟨hre, vre⟩ := hac.fsub hj hbt hB
  obtain ⟨him, vim⟩ := hat.fadd hj hbc hB
  refine ⟨hre, him, complexOf_eq_iff.mpr ⟨?_, ?_⟩⟩
  · simp only [vre, vac, vbt, Complex.mul_re, complexOf]
    push_cast
    rfl
  · simp only [vim, vat, vbc, Complex.mul_im, complexOf]
    push_cast
    rfl

theorem Represents.orderedSum {L : Nat} {f g : Nat → F64} {w : Nat → ℂ} (h : ∀ n < L, Represents j B (f n, g n) (w n))
    (hL : L * B < 2 ^ 53) : Represents j (L * B) (orderedSum L f, orderedSum L g) (∑ n ∈ range L, w n) := by
  obtain ⟨hf, vf⟩ := orderedSum_exact (fun n hn => (h n hn).1) hj hL
  obtain ⟨hg, vg⟩ := orderedSum_exact (fun n hn => (h n hn).2.1) hj hL
  have hw : ∑ n ∈ range L, w n = ∑ n ∈ range L, complexOf (f n, g n) :=
    sum_congr rfl fun n hn => (h n (mem_range.mp hn)).2.2.symm
  refine ⟨hf, hg, complexOf_eq_iff.mpr ⟨?_, ?_⟩⟩
  · rw [hw, Complex.re_sum, vf, Rat.cast_sum]
    rfl
  · rw [hw, Complex.im_sum, vg, Rat.cast_sum]
    rfl

end

theorem Represents.fdiv_two_pow {j i B : Nat} {x y d : F64} {w : ℂ} (h : Represents j B (x, y) w)
    (hd : Fp.finite d = true) (hdi : Exact.value d = 2 ^ i) (hj : j + i ≤ 1074) (hB : B < 2 ^ 53) :
    Represents (j + i) B (Fp.fdiv x d, Fp.fdiv y d) (w / 2 ^ i) := by
  obtain ⟨hx, hy, rfl⟩ := h
  obtain ⟨hx', vx⟩ := hx.fdiv_two_pow hd hdi hj hB
  obtain ⟨hy', vy⟩ := hy.fdiv_two_pow hd hdi hj hB
  have hreal : (2 : ℂ) ^ i = ((2 ^ i : ℝ) : ℂ) := by push_cast; rfl
  refine ⟨hx', hy', complexOf_eq_iff.mpr ⟨?_, ?_⟩⟩
  · rw [hreal, Complex.div_ofReal_re, vx, hdi]
    push_cast
    rfl
  · rw [hreal, Complex.div_ofReal_im, vy, hdi]
    push_cast
    rfl

/-! ### The twiddles -/

/-- The unit complex number of an angle, clockwise for the forward direction (R84, R85). -/
noncomputable def turn (dir : Direction) (θ : ℝ) : ℂ :=
  match dir with
  | .forward => ⟨Real.cos θ, -Real.sin θ⟩
  | .inverse => ⟨Real.cos θ, Real.sin θ⟩

/-- The twiddles depend on the product of the indices modulo the length. -/
theorem angle_mod {L : Nat} (hL : 0 < L) (k n : Nat) :
    Exact.angle L k n = 2 * Real.pi * (k * n % L : Nat) / L + (k * n / L : Nat) * (2 * Real.pi) := by
  have hL' : (L : ℝ) ≠ 0 := by exact_mod_cast hL.ne'
  have hsplit : (k : ℝ) * n = (k * n % L : Nat) + L * (k * n / L : Nat) := by
    exact_mod_cast (Nat.mod_add_div (k * n) L).symm
  rw [Exact.angle, mul_assoc, hsplit]
  field_simp

theorem twiddles_represent {L : Nat} (dir : Direction) (hL : L = 2 ∨ L = 4) (k n : Nat) :
    Represents 0 1 (Trig.twiddleCos L (k * n % L), Trig.twiddleSin dir L (k * n % L))
      (turn dir (Exact.angle L k n)) := by
  have hL0 : 0 < L := by omega
  have hm := Nat.mod_lt (k * n) hL0
  obtain ⟨hc, hf, hi⟩ := twiddles_eval L (by simpa using hL) _ hm
  obtain ⟨vc, vf, vi⟩ := twiddles_exact hL hm
  have hunit {x : F64} {q : Int} (hx : Fp.finite x = true) (hq : |q| ≤ 1) (h : Fp.scaled x = q * Fp.unit) :
      Dyadic 0 1 x := ⟨hx, q, hq, by rw [value_of_scaled h, pow_zero, div_one]⟩
  have hsin := abs_turnSin_le (k * n % L * (4 / L))
  refine ⟨hunit (Trig.twiddleCos_near L _ hL0).1 (abs_turnCos_le _) hc, ?_, complexOf_eq_iff.mpr ?_⟩
  · cases dir with
    | forward => exact hunit (Trig.twiddleSin_near L _ hL0).1.1 (by rwa [abs_neg]) hf
    | inverse => exact hunit (Trig.twiddleSin_near L _ hL0).2.1 hsin hi
  · rw [angle_mod hL0]
    cases dir with
    | forward => simpa only [turn, Real.cos_add_nat_mul_two_pi, Real.sin_add_nat_mul_two_pi] using ⟨vc, vf⟩
    | inverse => simpa only [turn, Real.cos_add_nat_mul_two_pi, Real.sin_add_nat_mul_two_pi] using ⟨vc, vi⟩

/-! ### One pass -/

/-- One 1-D transform over the reals, its divisor included (R84, R85). -/
noncomputable def exactPass (L : Nat) (dir : Direction) (z : ℕ → ℂ) (k : Nat) : ℂ :=
  match dir with
  | .forward => Exact.fft1dForward L z k
  | .inverse => Exact.fft1dInverse L z k

/-- The power of two a pass divides by. -/
def passShift (L : Nat) : Direction → Nat
  | .forward => 0
  | .inverse => L / 2

theorem length_eval : ∀ L ∈ ([2, 4] : List Nat), Fp.finite (Fp.fl L 1) = true ∧
    Fp.scaled (Fp.fl L 1) = (2 ^ (L / 2) : Nat) * Fp.unit ∧ 2 ^ (L / 2) = L := by
  decide +kernel

theorem exactPass_eq {L : Nat} (hL : L = 2 ∨ L = 4) (dir : Direction) (z : ℕ → ℂ) (k : Nat) :
    exactPass L dir z k = (∑ n ∈ range L, z n * turn dir (Exact.angle L k n)) / 2 ^ passShift L dir := by
  cases dir with
  | forward =>
    rw [passShift, pow_zero, div_one, exactPass, Exact.fft1dForward_eq]
    exact sum_congr rfl fun n _ => by rw [Exact.fourier_eq, mul_comm]; rfl
  | inverse =>
    have hpow : (2 : ℂ) ^ (L / 2) = L := by exact_mod_cast (length_eval L (by simpa using hL)).2.2
    rw [passShift, hpow, exactPass, Exact.fft1dInverse_eq, sum_div]
    refine sum_congr rfl fun n _ => ?_
    have hangle : Exact.angle L n k = Exact.angle L k n := by rw [Exact.angle, Exact.angle, mul_right_comm]
    rw [Exact.fourierInverse_eq, hangle, turn]
    push_cast
    ring

theorem passShift_le {L : Nat} (hL : L = 2 ∨ L = 4) (dir : Direction) : passShift L dir ≤ 2 := by
  rcases hL with rfl | rfl <;> cases dir <;> decide

/-- A pass of length 2 or 4 on dyadic values is exact in both directions (R100). -/
theorem dftEntry_represents {j B L : Nat} {a b : Nat → F64} {z : ℕ → ℂ} (dir : Direction) (hL : L = 2 ∨ L = 4)
    (h : ∀ n < L, Represents j B (a n, b n) (z n)) (hj : j + 2 ≤ 1074) (hB : 8 * B < 2 ^ 53) (k : Nat) :
    Represents (j + passShift L dir) (L * (B + B)) (dftEntry L dir a b k) (exactPass L dir z k) := by
  have hLB : L * (B + B) < 2 ^ 53 := by rcases hL with rfl | rfl <;> omega
  have hsum := Represents.orderedSum (j := j) (by omega) (fun n hn =>
    (h n hn).mul_unit (by omega) (twiddles_represent dir hL k n) (by omega)) hLB
  have hshift := passShift_le hL dir
  rw [exactPass_eq hL]
  cases dir with
  | forward =>
    rw [passShift, pow_zero, div_one]
    exact hsum
  | inverse =>
    obtain ⟨hfin, hscaled, -⟩ := length_eval L (by simpa using hL)
    have hvalue : Exact.value (Fp.fl L 1) = 2 ^ (L / 2) := by exact_mod_cast value_of_scaled hscaled
    exact hsum.fdiv_two_pow hfin hvalue (show j + passShift L .inverse ≤ 1074 by omega) hLB

/-! ### Two passes -/

/-- A 2-D FFT is a pass on each row and then one on each column (R86, R87). -/
theorem fft2d_eq_passes (dir : Direction) (S : Nat) (z : ℕ → ℂ) (e : Nat) :
    Exact.xform .fft2d dir S z e =
      exactPass S dir (fun r => exactPass S dir (fun c => z (r * S + c)) (e % S)) (e / S) := by
  cases dir with
  | forward =>
    show Exact.fft2dForward S z e = Exact.fft1dForward S (fun r => Exact.fft1dForward S _ _) _
    simp only [Exact.fft2dForward_eq, Exact.fft1dForward_eq, mul_sum, mul_assoc]
  | inverse =>
    show Exact.fft2dInverse S z e = Exact.fft1dInverse S (fun r => Exact.fft1dInverse S _ _) _
    simp only [Exact.fft2dInverse_eq, Exact.fft1dInverse_eq, mul_sum, mul_assoc]

/-- Settles O57: integers are dyadic, each pass adds at most three bits and two binary places, and entry `i` of the output
is that of the pass, or the two passes, of R99. -/
theorem smallTransformsExact : Obligations.SmallTransformsExact := by
  intro alg dir S x y hcase hx hy hin out z i hi
  have hinput (k : Nat) (hk : k < S * S) : Represents 0 (2 ^ 40) (x.getD k 0#64, y.getD k 0#64) (z k) := by
    have hentry {v : F64} (hv : v ∈ x ++ y) : Dyadic 0 (2 ^ 40) v := by
      obtain ⟨hfin, n, hn, hbound⟩ := hin v hv
      exact ⟨hfin, n, by exact_mod_cast hbound, by rw [hn, pow_zero, div_one]⟩
    refine ⟨hentry (v := x.getD k 0#64) ?_, hentry (v := y.getD k 0#64) ?_, rfl⟩
    · rw [List.getD_eq_getElem _ _ (by rwa [hx])]
      exact List.mem_append_left _ (List.getElem_mem _)
    · rw [List.getD_eq_getElem _ _ (by rwa [hy])]
      exact List.mem_append_right _ (List.getElem_mem _)
  obtain ⟨hfft1d, hfft2d, -⟩ := referenceEntries dir S x y i hx hy hi
  have hread {j B : Nat} {w : F64 × F64} (hre : out.1[i]? = some w.1) (him : out.2[i]? = some w.2)
      (hw : Represents j B w (Exact.xform alg dir S z i)) :
      Fp.finite (out.1.getD i 0#64) = true ∧ Fp.finite (out.2.getD i 0#64) = true ∧
        ((Exact.value (out.1.getD i 0#64) : ℚ) : ℝ) = (Exact.xform alg dir S z i).re ∧
        ((Exact.value (out.2.getD i 0#64) : ℚ) : ℝ) = (Exact.xform alg dir S z i).im := by
    rw [List.getD_eq_getElem?_getD, List.getD_eq_getElem?_getD, hre, him]
    exact ⟨hw.1.1, hw.2.1.1, complexOf_eq_iff.mp hw.2.2⟩
  rcases hcase with ⟨rfl, rfl⟩ | ⟨rfl, hS⟩
  · have hpass : Exact.xform .fft1d dir 2 z i = exactPass (2 * 2) dir z i := by cases dir <;> rfl
    exact hread hfft1d.1 hfft1d.2 (hpass ▸ dftEntry_represents dir (.inr rfl) hinput (by decide) (by decide) i)
  · have hshift := passShift_le hS dir
    have hrow (r : Nat) (hr : r < S) (c : Nat) := dftEntry_represents dir hS
      (fun n (hn : n < S) => hinput (r * S + n) (by nlinarith)) (by decide) (by decide) c
    refine hread hfft2d.1 hfft2d.2 (fft2d_eq_passes dir S z i ▸
      dftEntry_represents dir hS (fun r hr => hrow r hr (i % S)) (by omega) ?_ (i / S))
    rcases hS with rfl | rfl <;> decide

end Sys2Proof.Machine
end

section
/-! PROOFS. The numbers of the parity commands (R104, R105, R107, R111): the integers up to 2^53 are binary64 values, on
which `floor`, `v + 1` and `v - 1` are exact, and a finite product is off by half a unit in the last place. -/

namespace Sys2Proof.Machine.Fp

/-! ### Signs and absolute values -/

/-- A zero is its sign and nothing else. -/
theorem eq_pack_of_isZero {q : F64} (h : isZero q = true) : q = pack (sign q) 0 := by
  have hmag : mag q = 0 := by simpa [isZero] using h
  have hzero : expField q = 0 ∧ fraction q = 0 := by
    unfold mag at hmag
    split_ifs at hmag with he
    · exact ⟨he, hmag⟩
    · simp at hmag
  obtain ⟨hexp, hfrac⟩ := hzero
  have hsign : (sign q).toNat = bits q 63 1 := bit_toNat q 63
  have hq := q.isLt
  apply BitVec.eq_of_toNat_eq
  simp only [expField, fraction, bits] at hexp hfrac hsign
  rw [pack, BitVec.toNat_ofNat]
  omega

@[simp] theorem sign_pack_zero (neg : Bool) : sign (pack neg 0) = neg := (pack_fields neg 0 (by decide)).1

/-- `|x|` has the exponent and the fraction of `x` and no sign. -/
theorem abs_fields (x : F64) :
    sign (abs x) = false ∧ expField (abs x) = expField x ∧ fraction (abs x) = fraction x := by
  have hx := x.isLt
  have hnat : (abs x).toNat = x.toNat % 2 ^ 63 := by
    rw [abs, BitVec.toNat_ofNat]
    omega
  refine ⟨?_, ?_, ?_⟩
  · have hbit := bit_toNat (abs x) 63
    simp only [bits, hnat] at hbit
    rw [sign, ← Bool.toNat_eq_zero]
    omega
  · simp only [expField, bits, hnat]
    omega
  · simp only [fraction, bits, hnat]
    omega

theorem finite_abs (x : F64) : finite (abs x) = finite x := by rw [finite, finite, (abs_fields x).2.1]

theorem value_abs (x : F64) : Exact.value (abs x) = |Exact.value x| := by
  obtain ⟨hs, he, hf⟩ := abs_fields x
  have hmag : mag (abs x) = mag x := by rw [mag, mag, he, hf]
  rw [abs_value, value_eq, hs, hmag, if_neg Bool.false_ne_true, one_mul]

/-- A positive value has no sign. -/
theorem sign_of_value_pos {x : F64} (h : 0 < Exact.value x) : sign x = false := by
  by_contra hs
  rw [Bool.not_eq_false] at hs
  have hmag : (0 : ℚ) ≤ (mag x : ℚ) / unit := abs_value x ▸ abs_nonneg _
  rw [value_eq, hs, if_pos rfl] at h
  linarith

theorem isZero_of_value_zero {x : F64} (h : Exact.value x = 0) : isZero x = true := by
  have hmag : (mag x : ℚ) / unit = 0 := by rw [← abs_value, h, abs_zero]
  rw [div_eq_zero_iff, or_iff_left unit_pos.ne'] at hmag
  simpa [isZero] using hmag

theorem value_of_isZero {x : F64} (h : isZero x = true) : Exact.value x = 0 := by
  rw [eq_pack_of_isZero h]
  exact (value_zero _).2

/-! ### Integers -/

/-- Integers up to 2^53 in magnitude are binary64 values. -/
theorem fl_int {n : Int} (hn : |n| ≤ 2 ^ 53) : finite (fl n 1) = true ∧ Exact.value (fl n 1) = n := by
  rcases hn.lt_or_eq with hlt | heq
  · have hnat : n.natAbs < 2 ^ 53 := by zify; exact hlt
    simpa using fl_exact (n := n) (t := 1074) one_pos (mul_one _).symm hnat le_rfl
  · rcases abs_eq_abs.mp (heq.trans (abs_of_pos (by norm_num : (0 : Int) < 2 ^ 53)).symm) with rfl | rfl
    · exact ⟨by decide +kernel, value_of_scaled (by decide +kernel)⟩
    · exact ⟨by decide +kernel, value_of_scaled (by decide +kernel)⟩

/-- The binary64 of an integer, a zero having the given sign (R107). -/
def ofInt (neg : Bool) (n : Int) : F64 := if n = 0 then pack neg 0 else fl n 1

theorem ofInt_of_ne (neg : Bool) {n : Int} (h : n ≠ 0) : ofInt neg n = fl n 1 := if_neg h

theorem ofInt_zero (neg : Bool) : ofInt neg 0 = pack neg 0 := rfl

theorem ofInt_exact (neg : Bool) {n : Int} (hn : |n| ≤ 2 ^ 53) :
    finite (ofInt neg n) = true ∧ Exact.value (ofInt neg n) = n := by
  unfold ofInt
  split_ifs with h0
  · rw [h0, Int.cast_zero]
    exact value_zero neg
  · exact fl_int hn

theorem scaled_ofInt (neg : Bool) {n : Int} (hn : |n| ≤ 2 ^ 53) : scaled (ofInt neg n) = n * unit := by
  have hvalue := (ofInt_exact neg hn).2
  rw [Exact.value, div_eq_iff unit_pos.ne'] at hvalue
  exact_mod_cast hvalue

theorem odd_ofInt (neg : Bool) {n : Int} (hn : |n| ≤ 2 ^ 53) : odd (ofInt neg n) = decide (n % 2 = 1) := by
  rw [odd, floorInt_eq, (ofInt_exact neg hn).2, Int.floor_intCast]
  rfl

/-- Where the floor of a value below 2^53 in magnitude lies. -/
theorem floor_bounds {r : ℚ} (h : |r| < 2 ^ 53) : -2 ^ 53 ≤ ⌊r⌋ ∧ ⌊r⌋ < 2 ^ 53 := by
  obtain ⟨hlo, hhi⟩ := abs_lt.mp h
  exact ⟨Int.le_floor.mpr (by push_cast; exact hlo.le), Int.floor_lt.mpr (by push_cast; exact hhi)⟩

/-- `floor` (R14): the floor of a zero keeps its sign, and a positive value has none to keep (R107). -/
theorem floor_eq_ofInt (q : F64) : floor q = ofInt (sign q) ⌊Exact.value q⌋ := by
  unfold floor
  rw [floorInt_eq]
  split_ifs with hz
  · rw [value_of_isZero hz, Int.floor_zero, ofInt_zero]
    exact eq_pack_of_isZero hz
  · by_cases h0 : ⌊Exact.value q⌋ = 0
    · have hne : Exact.value q ≠ 0 := fun h => hz (isZero_of_value_zero h)
      have hpos : 0 < Exact.value q := (Int.floor_eq_zero_iff.mp h0).1.lt_of_ne' hne
      rw [h0, ofInt_zero, sign_of_value_pos hpos]
      decide +kernel
    · rw [ofInt_of_ne _ h0]

theorem one_exact : finite one = true ∧ scaled one = unit := by decide +kernel

/-- What is rounded once from a whole number of units is that integer. -/
theorem RoundedOnce.eq_fl_int {x : F64} {n k : Int} (h : RoundedOnce x k unit) (hk : k = n * unit) (hn : n ≠ 0) :
    x = fl n 1 := by
  rcases h with ⟨-, rfl⟩ | ⟨h0, -⟩
  · rw [hk, fl_unit, Int.natAbs_mul, Int.natAbs_natCast, fl]
    congr 2
    have hunit : (0 : Int) < unit := by exact_mod_cast unit_pos_nat
    simp only [mul_neg_iff, hunit, hunit.not_gt, and_true, and_false, false_or]
  · have hunit : (unit : Int) ≠ 0 := by exact_mod_cast unit_pos_nat.ne'
    exact absurd (hk.symm.trans h0) (mul_ne_zero hn hunit)

/-- `v + 1` for an even `v` (R105). -/
theorem fadd_ofInt_one (neg : Bool) {n : Int} (hn : |n| ≤ 2 ^ 53) (h0 : n + 1 ≠ 0) :
    fadd (ofInt neg n) one = fl (n + 1) 1 := by
  refine (fadd_roundedOnce (ofInt_exact neg hn).1 one_exact.1).eq_fl_int ?_ h0
  rw [scaled_ofInt neg hn, one_exact.2]
  ring

/-- `v - 1`, which for `v = 1` is +0.0 (R105, R107). -/
theorem fsub_ofInt_one (neg : Bool) {n : Int} (hn : |n| ≤ 2 ^ 53) : fsub (ofInt neg n) one = ofInt false (n - 1) := by
  rcases eq_or_ne n 1 with rfl | h1
  · exact (by decide +kernel : fsub (fl 1 1) one = pack false 0)
  · rw [ofInt_of_ne false (sub_ne_zero.mpr h1)]
    refine (fsub_roundedOnce (ofInt_exact neg hn).1 one_exact.1).eq_fl_int ?_ (sub_ne_zero.mpr h1)
    rw [scaled_ofInt neg hn, one_exact.2]
    ring

/-! ### Finite results -/

/-- The rounded magnitude is off by at most half a unit in the last place, relative or in units of 2^-1074. -/
theorem significand_close (n : Nat) {d : Nat} (hd : 0 < d) :
    2 ^ 53 * |(significand n d * 2 ^ ulpExp n d : Int) * d - n| ≤ n + 2 ^ 52 * d := by
  have hulp : 0 < d * 2 ^ ulpExp n d := Nat.mul_pos hd (Nat.two_pow_pos _)
  obtain ⟨hlo, hhi⟩ := roundDiv_close n (d * 2 ^ ulpExp n d) hulp
  have hsmall : d * 2 ^ ulpExp n d = d ∨ 2 ^ 52 * (d * 2 ^ ulpExp n d) ≤ n := by
    rcases eq_or_ne (ulpExp n d) 0 with he | he
    · exact .inl (by rw [he, pow_zero, mul_one])
    · exact .inr ((Nat.le_div_iff_mul_le hulp).mp (le_div_ulp he))
  have hassoc : (significand n d * 2 ^ ulpExp n d : Int) * d =
      significand n d * ((d * 2 ^ ulpExp n d : Nat) : Int) := by
    push_cast
    ring
  rw [hassoc]
  unfold significand
  generalize d * 2 ^ ulpExp n d = w at *
  generalize roundDiv n w = m at *
  zify at hlo hhi hsmall
  rcases abs_cases ((m : Int) * w - n) with ⟨h, -⟩ | ⟨h, -⟩ <;> rw [h] <;> rcases hsmall with hw | hw <;>
    linarith [Int.natCast_nonneg n, Int.natCast_nonneg d]

theorem finite_inf (neg : Bool) : finite (inf neg) = false := by cases neg <;> decide

/-- A result that has not overflowed is off by at most half a unit in the last place. -/
theorem fl_close_of_finite {n : Int} {d : Nat} (hd : 0 < d) (h : finite (fl n d) = true) : Close (fl n d) (n / d) := by
  refine ⟨h, ?_⟩
  have hmag : n.natAbs * unit < overflowMag * d := by
    rw [← not_le, ← overflow_iff n hd]
    intro hover
    rw [(roundsToNearestEven n d hd).2 hover, finite_inf] at h
    exact Bool.false_ne_true h
  obtain ⟨-, hscaled, -⟩ := pack_roundMag_of_lt (decide (n < 0)) hd hmag
  have hd' : (0 : ℚ) < d := by exact_mod_cast hd
  have hratio : |(n : ℚ) / d| = ((n.natAbs * unit : Nat) : ℚ) / (unit * d) := by
    rw [abs_div, abs_of_pos hd', ← Int.cast_abs, Int.abs_eq_natAbs, Int.cast_natCast, Nat.cast_mul, mul_comm (unit : ℚ),
      mul_div_mul_right _ _ unit_pos.ne']
  have hclose := significand_close (n.natAbs * unit) hd
  rw [abs_value_sub _ n hd, fl, hscaled, signFactor_mul_self_mul, hratio]
  generalize |(significand (n.natAbs * unit) d * 2 ^ ulpExp (n.natAbs * unit) d : Int) * d -
    (n.natAbs * unit : Nat)| = err at *
  generalize n.natAbs * unit = N at *
  have hclose : 2 ^ 53 * (err : ℚ) ≤ N + 2 ^ 52 * d := by exact_mod_cast hclose
  have hunit : (2 : ℚ) ^ 60 ≤ unit := by
    rw [unit]
    exact_mod_cast Nat.pow_le_pow_right (by decide) (by decide)
  have hu := unit_pos
  generalize (unit : ℚ) = u at *
  have hden : (0 : ℚ) < u * d := mul_pos hu hd'
  rw [div_le_iff₀ hden, add_mul, mul_assoc, div_mul_cancel₀ _ hden.ne']
  have hd60 := mul_le_mul_of_nonneg_right hunit hd'.le
  norm_num at hclose hd60 ⊢
  linarith

/-- A finite product (R105), however large its factors. -/
theorem fmul_close_of_finite {a b : F64} (ha : finite a = true) (hb : finite b = true)
    (h : finite (fmul a b) = true) : Close (fmul a b) (Exact.value a * Exact.value b) := by
  have hprod : Exact.value a * Exact.value b = ((scaled a * scaled b : Int) : ℚ) / ((unit * unit : Nat) : ℚ) := by
    rw [Exact.value, Exact.value, div_mul_div_comm, Int.cast_mul, Nat.cast_mul]
  rw [hprod]
  rcases fmul_roundedOnce ha hb with ⟨-, hfl⟩ | ⟨h0, neg, hz⟩
  · rw [hfl] at h ⊢
    exact fl_close_of_finite (Nat.mul_pos unit_pos_nat unit_pos_nat) h
  · rw [h0, hz, Int.cast_zero, zero_div]
    exact zero_close neg

end Sys2Proof.Machine.Fp
end

section
/-! PROOFS. What SETBIT writes and GETBIT reads, in the words of the claims (R104 to R108, R110 to R112). -/

namespace Sys2Proof.Machine

open Sys2Proof.Claims

/-! ### The quotient by a legal tolerance -/

theorem quotientInRange_iff {x t : F64} :
    QuotientInRange x t ↔ Fp.finite x = true ∧ Fp.huge (Fp.fdiv x t) = false := by
  rw [QuotientInRange, ← not_le, ← Fp.huge_iff, Bool.not_eq_true]

/-- `v` (R104). -/
theorem bucket_eq_some {x t : F64} (h : QuotientInRange x t) : bucket x t = some (Fp.floor (Fp.fdiv x t)) := by
  obtain ⟨hfin, hrange⟩ := quotientInRange_iff.mp h
  simp [bucket, hfin, hrange]

theorem bucket_eq_none {x t : F64} (h : ¬QuotientInRange x t) : bucket x t = none := by
  cases hfin : Fp.finite x with
  | false => simp [bucket, hfin]
  | true =>
    have hhuge : Fp.huge (Fp.fdiv x t) = true := by simpa [quotientInRange_iff, hfin] using h
    simp [bucket, hfin, hhuge]

theorem sign_of_legal {t : F64} (ht : LegalTolerance t) : Fp.sign t = false :=
  Fp.sign_of_value_pos (one_pos.trans_le ht.2)

theorem scaled_ne_zero_of_legal {t : F64} (ht : LegalTolerance t) : Fp.scaled t ≠ 0 := fun h => by
  have hvalue := ht.2
  rw [Exact.value, h, Int.cast_zero, zero_div] at hvalue
  exact absurd hvalue (by norm_num)

/-- A quotient by a tolerance has the sign of the coefficient, a zero quotient too (R107). -/
theorem sign_fdiv_of_legal {x t : F64} (ht : LegalTolerance t) (hx : Fp.finite x = true) :
    Fp.sign (Fp.fdiv x t) = Fp.sign x := by
  have hpattern : Fp.roundMag (Fp.mag x * Fp.unit) (Fp.mag t) < 2 ^ 63 := (min_le_right _ _).trans_lt (by decide)
  have hzero : Fp.isZero t = false := by simpa [Fp.isZero] using Fp.mag_ne_zero (scaled_ne_zero_of_legal ht)
  have hdiv : Fp.fdiv x t = Fp.pack (Fp.sign x) (Fp.roundMag (Fp.mag x * Fp.unit) (Fp.mag t)) := by
    simp [Fp.fdiv, Fp.not_special hx, Fp.not_special ht.1, hzero, sign_of_legal ht]
  rw [hdiv]
  exact (Fp.pack_fields _ _ hpattern).1

/-- A zero times a tolerance is that zero (R107). -/
theorem fmul_zero_of_legal {t : F64} (ht : LegalTolerance t) (neg : Bool) :
    Fp.fmul (Fp.pack neg 0) t = Fp.pack neg 0 := by
  have hmag : Fp.mag (Fp.pack neg 0) = 0 := by cases neg <;> decide
  simp [Fp.fmul, Fp.not_special (Fp.value_zero neg).1, Fp.not_special ht.1, hmag, Fp.roundMag_zero, sign_of_legal ht]

/-! ### The neighbour of parity BIT -/

/-- `v2` has parity BIT (R105). -/
theorem parityTarget_mod_two (b : Bool) (v : Int) : parityTarget b v % 2 = 1 ↔ b = true := by
  unfold parityTarget
  cases b <;> by_cases hv : v % 2 = 1 <;> simp only [hv, if_true, if_false, Bool.false_eq_true, iff_true, iff_false] <;>
    omega

/-- `v2` as a binary64 (R105): a zero is `v` itself, which is the zero, or 1 - 1 (R107). -/
theorem withParity_floor (b : Bool) {q : F64} (hq : |Exact.value q| < 2 ^ 53) :
    withParity b (Fp.floor q) =
      Fp.ofInt (Fp.sign q && decide (⌊Exact.value q⌋ = 0)) (parityTarget b ⌊Exact.value q⌋) := by
  obtain ⟨hlo, hhi⟩ := Fp.floor_bounds hq
  have hv : |⌊Exact.value q⌋| ≤ 2 ^ 53 := abs_le.mpr ⟨hlo, hhi.le⟩
  rw [Fp.floor_eq_ofInt]
  generalize ⌊Exact.value q⌋ = v at hv ⊢
  unfold withParity parityTarget
  rw [Fp.odd_ofInt _ hv]
  by_cases hodd : v % 2 = 1
  · have h0 : v ≠ 0 := by omega
    cases b with
    | true => simp [hodd, Fp.ofInt_of_ne _ h0]
    | false => simp [hodd, h0, Fp.fsub_ofInt_one _ hv]
  · have h1 : v + 1 ≠ 0 := by omega
    cases b with
    | true => simp [hodd, Fp.fadd_ofInt_one _ hv h1, Fp.ofInt_of_ne _ h1]
    | false =>
      by_cases h0 : v = 0
      · simp [h0]
      · simp [hodd, h0, Fp.ofInt_of_ne _ h0]

/-- `|v2|` is at most 2^53: `v2` lies above an even `v` and below an odd one. -/
theorem abs_parityTarget_le (b : Bool) {v : Int} (hlo : -2 ^ 53 ≤ v) (hhi : v < 2 ^ 53) :
    |parityTarget b v| ≤ 2 ^ 53 := by
  unfold parityTarget
  rw [abs_le]
  norm_num at hlo hhi ⊢
  split_ifs <;> omega

/-- `v2` is exact (R105). -/
theorem value_withParity_floor (b : Bool) {q : F64} (hq : |Exact.value q| < 2 ^ 53) :
    Fp.finite (withParity b (Fp.floor q)) = true ∧
      Exact.value (withParity b (Fp.floor q)) = parityTarget b ⌊Exact.value q⌋ := by
  obtain ⟨hlo, hhi⟩ := Fp.floor_bounds hq
  rw [withParity_floor b hq]
  exact Fp.ofInt_exact _ (abs_parityTarget_le b hlo hhi)

/-- Settles O40: `q` lies in [v, v + 1), and `v2` is exact as a binary64. -/
theorem setbitOutcomeTable : Obligations.SetbitOutcomeTable := by
  intro b x t q _ hrange hq v v2 change
  have hlo : (v : ℚ) ≤ q := hq ▸ Int.floor_le _
  have hhi : q < v + 1 := hq ▸ Int.lt_floor_add_one _
  have hcast {k : Int} (h : v2 = k) : change = k - q := by rw [← h]
  refine ⟨parityTarget_mod_two b v, fun hb hv => ?_, fun hb hv => ?_, fun hb hv => ?_, fun hb hv => ?_,
    (value_withParity_floor b hrange.2).2⟩
  · have h : v2 = v := by simp [v2, parityTarget, hb, hv]
    rw [hcast h]
    exact ⟨h, by linarith, by linarith⟩
  · have h : v2 = v + 1 := by simp [v2, parityTarget, hb, hv]
    rw [hcast h, Int.cast_add, Int.cast_one]
    exact ⟨h, by linarith, by linarith⟩
  · have h : v2 = v - 1 := by simp [v2, parityTarget, hb, hv]
    rw [hcast h, Int.cast_sub, Int.cast_one]
    exact ⟨h, by linarith, by linarith⟩
  · have h : v2 = v := by simp [v2, parityTarget, hb, hv]
    rw [hcast h]
    exact ⟨h, by linarith, by linarith⟩

/-! ### SETBIT's value -/

/-- The product SETBIT forms is the value of R105 and R107. -/
theorem fmul_withParity {b : Bool} {x t : F64} (ht : LegalTolerance t) (h : QuotientInRange x t) :
    Fp.fmul (withParity b (Fp.floor (Fp.fdiv x t))) t = setbitValue b x t := by
  rw [withParity_floor b h.2, sign_fdiv_of_legal ht h.1, setbitValue, bucketOf]
  split_ifs with h0
  · rw [h0, Fp.ofInt_zero, fmul_zero_of_legal ht]
  · rw [Fp.ofInt_of_ne _ h0]

theorem setParity_eq_some {b : Bool} {x t : F64} (ht : LegalTolerance t) (h : QuotientInRange x t)
    (hfin : Fp.finite (setbitValue b x t) = true) : setParity b x t = some (setbitValue b x t) := by
  rw [setParity, bucket_eq_some h]
  simp only [fmul_withParity ht h, hfin, if_true]

theorem setParity_eq_none {b : Bool} {x t : F64} (ht : LegalTolerance t)
    (h : ¬QuotientInRange x t ∨ Fp.finite (setbitValue b x t) = false) : setParity b x t = none := by
  by_cases hq : QuotientInRange x t
  · rw [setParity, bucket_eq_some hq]
    simp [fmul_withParity ht hq, h.resolve_left (not_not_intro hq)]
  · rw [setParity, bucket_eq_none hq]

/-! ### GETBIT's bit -/

theorem getParity_eq_some {x t : F64} (h : QuotientInRange (Fp.abs x) t) : getParity x t = some (getbitValue x t) := by
  obtain ⟨hfin, hrange⟩ := quotientInRange_iff.mp h
  rw [Fp.finite_abs] at hfin
  simp [getParity, hfin, hrange, getbitValue, Fp.roundHalfUp_eq, beq_eq_decide]

theorem getParity_eq_none {x t : F64} (h : ¬QuotientInRange (Fp.abs x) t) : getParity x t = none := by
  cases hfin : Fp.finite x with
  | false => simp [getParity, hfin]
  | true =>
    have hhuge : Fp.huge (Fp.fdiv (Fp.abs x) t) = true := by simpa [quotientInRange_iff, Fp.finite_abs, hfin] using h
    simp [getParity, hfin, hhuge]

/-! ### Reading what was written -/

/-- A magnitude within half of the integer `|w|` rounds to it (R112). -/
theorem getbitValue_of_near {y t : F64} {w : Int} (h : |Exact.value (Fp.fdiv (Fp.abs y) t) - (|(w : ℚ)|)| < 1 / 2) :
    getbitValue y t = decide (w % 2 = 1) := by
  obtain ⟨hlo, hhi⟩ := abs_lt.mp h
  have hfloor : ⌊Exact.value (Fp.fdiv (Fp.abs y) t) + 1 / 2⌋ = |w| :=
    Int.floor_eq_iff.mpr ⟨by rw [Int.cast_abs]; linarith, by rw [Int.cast_abs]; linarith⟩
  rw [getbitValue, hfloor, decide_eq_decide]
  rcases abs_choice w with h | h <;> rw [h]
  omega

/-- The value SETBIT writes is `v2` times the tolerance, rounded once. -/
theorem setbitValue_close {b : Bool} {x t : F64} (ht : LegalTolerance t) (h : QuotientInRange x t)
    (hfin : Fp.finite (setbitValue b x t) = true) :
    Fp.Close (setbitValue b x t) (parityTarget b (bucketOf x t) * Exact.value t) := by
  obtain ⟨hv2, hvalue⟩ := value_withParity_floor b h.2
  rw [← fmul_withParity ht h] at hfin ⊢
  rw [bucketOf, ← hvalue]
  exact Fp.fmul_close_of_finite hv2 ht.1 hfin

/-- The quotient GETBIT forms from such a value is within half of `|v2|`, as long as `|v2|` is below 2^50 (R108). -/
theorem fdiv_abs_near {y t : F64} {w : Int} (ht : LegalTolerance t) (hy : Fp.Close y (w * Exact.value t))
    (hw : |w| < 2 ^ 50) : |Exact.value (Fp.fdiv (Fp.abs y) t) - (|(w : ℚ)|)| < 1 / 2 := by
  obtain ⟨hfin, hclose⟩ := hy
  have hT : 1 ≤ Exact.value t := ht.2
  have hpos : 0 < Exact.value t := one_pos.trans_le hT
  have hwq : |(w : ℚ)| < 2 ^ 50 := by exact_mod_cast hw
  have hfirst : |(|Exact.value y|) / Exact.value t - (|(w : ℚ)|)| ≤ 3 / 16 := by
    have hprod : |(w : ℚ) * Exact.value t| = |(w : ℚ)| * Exact.value t := by rw [abs_mul, abs_of_pos hpos]
    have htri := (abs_abs_sub_abs_le (Exact.value y) (w * Exact.value t)).trans hclose
    rw [hprod] at htri
    rw [div_sub' hpos.ne', abs_div, abs_of_pos hpos, div_le_iff₀ hpos, mul_comm (Exact.value t)]
    have hbound : |(w : ℚ)| * Exact.value t ≤ 2 ^ 50 * Exact.value t := by gcongr
    norm_num at htri hbound ⊢
    linarith
  have hsmall : |(|Exact.value y| / Exact.value t)| ≤ 2 ^ 51 := by
    obtain ⟨hlo, hhi⟩ := abs_le.mp hfirst
    have h0 : 0 ≤ |(w : ℚ)| := abs_nonneg _
    rw [abs_of_nonneg (by positivity)]
    norm_num at hwq ⊢
    linarith
  have hbig : (2 : ℚ) ^ 51 < 2 ^ 1023 := pow_lt_pow_right₀ (by norm_num) (by norm_num)
  have hsecond := (Fp.fdiv_close (a := Fp.abs y) (b := t) ((Fp.finite_abs y).trans hfin) ht.1 hpos.ne'
    (by rw [Fp.value_abs]; exact hsmall.trans_lt hbig)).2
  rw [Fp.value_abs] at hsecond
  have htri := abs_sub_le (Exact.value (Fp.fdiv (Fp.abs y) t)) (|Exact.value y| / Exact.value t) |(w : ℚ)|
  norm_num at hsecond hsmall ⊢
  linarith

/-- Such a quotient is in range. -/
theorem quotientInRange_of_near {y t : F64} {w : Int} (hfin : Fp.finite y = true) (hw : |w| < 2 ^ 50)
    (h : |Exact.value (Fp.fdiv (Fp.abs y) t) - (|(w : ℚ)|)| < 1 / 2) : QuotientInRange (Fp.abs y) t := by
  refine ⟨(Fp.finite_abs y).trans hfin, ?_⟩
  have hwq : |(w : ℚ)| < 2 ^ 50 := by exact_mod_cast hw
  have htri := abs_sub_abs_le_abs_sub (Exact.value (Fp.fdiv (Fp.abs y) t)) |(w : ℚ)|
  rw [abs_abs] at htri
  norm_num at hwq ⊢
  linarith

end Sys2Proof.Machine
end

section
/-! PROOFS. The parity commands' acceptance (R102, R133), the completions and NUMERIC errors of SETBIT and GETBIT (R105,
R110 to R112), and that GETBIT reads the bit SETBIT wrote (R108). -/

namespace Sys2Proof.Machine

open Sys2Proof.Claims

/-! ### Acceptance -/

/-- The position that passes R102 is the selected one, if it lies in the block. -/
theorem effectivePosition_eq_some_iff {f : CmdFields} {pos : BitVec 16} {p : Nat} :
    effectivePosition f pos = some p ↔ SelectsPosition f pos p ∧ p < f.size * f.size := by
  have hselect : SelectsPosition f pos p ↔ selectedPosition f pos = some p := by
    obtain ⟨alg, b, possel, size⟩ := f
    cases possel <;> cases alg <;> simp [SelectsPosition, selectedPosition, staticPosition, eq_comm]
  rw [hselect, effectivePosition]
  cases selectedPosition f pos with
  | none => simp
  | some q =>
    by_cases hq : q < f.size * f.size
    · simp only [hq, if_true, Option.some.injEq]
      exact ⟨fun h => ⟨h, h ▸ hq⟩, And.left⟩
    · simp only [hq, if_false, Option.some.injEq]
      exact ⟨nofun, fun h => absurd (h.1 ▸ h.2) hq⟩

/-- In IDLE a command of the table is accepted as its operation (R133). -/
theorem exec_idle_block {i : Instr} {op : BlockOp} {f : CmdFields} {s : State}
    (hi : (i, op) ∈ transforms f ++ parityCommands f) (hidle : s.fsm = .idle) :
    exec i s = .next (s.acceptBlock op f) := by
  have hall : ∀ c ∈ transforms f ++ parityCommands f, exec c.1 s = .next (s.acceptBlock c.2 f) := by
    simp [transforms, parityCommands, exec, execFwd, execInv, execSetbit, execGetbit, execEmbed, execExtract,
      State.byPhase_idle hidle]
  exact hall _ hi

theorem usesParity_of_mem {i : Instr} {op : BlockOp} {f : CmdFields} (hi : (i, op) ∈ parityCommands f) :
    op.usesParity = true := by
  have hall : ∀ c ∈ parityCommands f, c.2.usesParity = true := by simp [parityCommands, BlockOp.usesParity]
  exact hall _ hi

/-- Acceptance without a position in the block (R102). -/
theorem State.acceptBlock_badPos {s : State} {op : BlockOp} {f : CmdFields} (hop : op.usesParity = true)
    (hs : sizeOk s.cfg.maxSize f.alg f.size = true) (hp : effectivePosition f s.pos = none) :
    s.acceptBlock op f = s.beginAcceptance.raiseError .badPos := by
  simp [State.acceptBlock, hs, hop, hp]

/-- Settles O23: the position the engine latches is the one R102 selects, and it is in the block. -/
theorem positionCheckedAndLatched : Obligations.PositionCheckedAndLatched := by
  intro s f i op hi hidle hc hsize
  have hop := usesParity_of_mem hi
  have hok := sizeOk_of_legalSize hc hsize
  rw [exec_idle_block (List.mem_append_right _ hi) hidle]
  refine ⟨fun hnone => ?_, fun p hp hlt ht => ?_⟩
  · have hpos : effectivePosition f s.pos = none :=
      Option.eq_none_iff_forall_ne_some.mpr fun p hp => hnone ⟨p, effectivePosition_eq_some_iff.mp hp⟩
    rw [State.acceptBlock_badPos hop hok hpos]
    simp [State.raiseError, State.beginAcceptance, hidle]
  · rw [State.acceptBlock_parity hop hok (effectivePosition_eq_some_iff.mpr ⟨hp, hlt⟩) ((toleranceOk_iff _).mpr ht)]
    rfl

/-! ### SETBIT and GETBIT -/

section
variable {s : State} {x : F64} (hx : s.reEntry s.cur.epos.toNat = some x)
include hx

theorem setbitBody_of_some {y : F64} (hy : setParity s.cur.bit x s.cur.tol = some y) :
    setbitBody s = .ok (s.setRe s.cur.epos.toNat y) := by simp only [setbitBody, hx, hy]

theorem setbitBody_of_none (hy : setParity s.cur.bit x s.cur.tol = none) : setbitBody s = .numeric s := by
  simp only [setbitBody, hx, hy]

theorem getbitBody_of_some {b : Bool} (hb : getParity x s.cur.tol = some b) :
    getbitBody s = .ok { s with rbit := b, rvalid := true } := by simp only [getbitBody, hx, hb]

theorem getbitBody_of_none (hb : getParity x s.cur.tol = none) : getbitBody s = .numeric s := by
  simp only [getbitBody, hx, hb]

end

/-- The whole outcome of a SETBIT that completes (R105). -/
theorem exec_setbit_completes {s : State} (f : CmdFields) {x : F64} (hb : s.fsm = .busy)
    (ht : LegalTolerance s.cur.tol) (hx : s.reEntry s.cur.epos.toNat = some x) (hq : QuotientInRange x s.cur.tol)
    (hfin : Fp.finite (setbitValue s.cur.bit x s.cur.tol) = true) :
    exec (.setbit f) s = .next (s.setRe s.cur.epos.toNat (setbitValue s.cur.bit x s.cur.tol)).finish :=
  (State.byPhase_busy hb _ _ _).trans
    (congrArg BodyResult.conclude (setbitBody_of_some hx (setParity_eq_some ht hq hfin)))

/-- Settles O30: the entry at epos is written, and only its eight bytes. -/
theorem setbitCompletes : Obligations.SetbitCompletes := by
  intro s f x hb ht hx hq hfin
  refine ⟨_, exec_setbit_completes f hb ht hx hq hfin, rfl, ?_⟩
  exact ⟨s.re.readEntry_writeEntry_same _ _, fun a ha => s.re.readByte_writeEntry_outside _ a _ ha⟩

/-- Settles O31: without a value to write SETBIT ends with NUMERIC in the state it found. -/
theorem setbitNumeric : Obligations.SetbitNumeric := by
  intro s f x hb ht hx h
  exact (State.byPhase_busy hb _ _ _).trans
    (congrArg BodyResult.conclude (setbitBody_of_none hx (setParity_eq_none ht h)))

/-- Settles O32: the parity GETBIT reads is that of the quotient rounded half up. -/
theorem getbitCompletes : Obligations.GetbitCompletes := by
  intro s f x hb _ hx hq
  exact (State.byPhase_busy hb _ _ _).trans
    (congrArg BodyResult.conclude (getbitBody_of_some hx (getParity_eq_some hq)))

/-- Settles O33: without a quotient in range GETBIT ends with NUMERIC in the state it found. -/
theorem getbitNumeric : Obligations.GetbitNumeric := by
  intro s f x hb _ hx hq
  exact (State.byPhase_busy hb _ _ _).trans
    (congrArg BodyResult.conclude (getbitBody_of_none hx (getParity_eq_none hq)))

/-- Settles O39: the value written is `v2` times the tolerance but for one rounding, so the quotient GETBIT forms from
it is within half of `|v2|`, which has parity BIT. -/
theorem readAfterSet : Obligations.ReadAfterSet := by
  intro s f g x t hb ht hx hq hfin hsmall hexec
  rw [exec_setbit_completes f hb ht hx hq hfin] at hexec
  cases hexec
  have hnear := fdiv_abs_near ht (setbitValue_close ht hq hfin) hsmall
  have hbit : getbitValue (setbitValue s.cur.bit x s.cur.tol) s.cur.tol = s.cur.bit := by
    rw [getbitValue_of_near hnear, Bool.eq_iff_iff, decide_eq_true_iff, parityTarget_mod_two]
  exact ⟨_, getbitCompletes _ g _ rfl ht (s.re.readEntry_writeEntry_same _ _)
    (quotientInRange_of_near hfin hsmall hnear), hbit, rfl⟩

end Sys2Proof.Machine
end

section
/-! PROOFS. EMBED and EXTRACT complete (R114 to R118): the block between the phases, and what the phases write
together. -/

namespace Sys2Proof.Machine

open Sys2Proof.Claims

/-! ### Blocks between the phases -/

/-- A DCT has no imaginary output (R94). -/
theorem xform_im_of_dct (num : Numerics) {alg : Alg} (dir : Direction) (S : Nat) (z : Block) (h : alg.usesIm = false) :
    (xform num alg dir S z).2 = [] := by
  cases num with
  | reference => cases alg <;> simp_all [xform, refXform, Alg.usesIm]
  | other k => exact List.length_eq_zero_iff.mp (by simp [xform, h])

/-- An entry of a block just written is that of the block. -/
theorem reEntry_of_blockWritten {s t : State} {z : Block} {p : Nat} {c : F64} (h : BlockWritten s t z)
    (hp : p < s.cur.entries) (hc : z.1[p]? = some c) : t.reEntry p = some c := by
  obtain ⟨v, hv, hread⟩ := h.1 p hp
  rw [hread, ← hv, hc]

/-- A block written in place is the block of the next phase. -/
theorem blockIs_of_blockWritten {s t : State} {z : Block} (h : BlockWritten s t z) (hcur : t.cur = s.cur)
    (hre : z.1.length = s.cur.entries)
    (him : if s.cur.alg.usesIm then z.2.length = s.cur.entries else z.2 = []) : BlockIs t z.1 z.2 := by
  obtain ⟨hreads, -, hims⟩ := h
  have known {o : Nat → Option F64} {l : List F64}
      (ho : ∀ i < s.cur.entries, ∃ v, l[i]? = some v ∧ o i = some v) : ∀ i < s.cur.entries, o i = l[i]? := by
    intro i hi
    obtain ⟨v, hl, hv⟩ := ho i hi
    rw [hv, hl]
  unfold BlockIs
  rw [hcur]
  refine ⟨hre, known hreads, ?_⟩
  split_ifs at him hims ⊢
  · exact ⟨him, known hims.1⟩
  · exact him

/-- A block with one entry of RE set anew. -/
theorem blockIs_setRe {s : State} {x y : List F64} {p : Nat} (h : BlockIs s x y) (hp : p < s.cur.entries) (v : F64) :
    BlockIs (s.setRe p v) (x.set p v) y := by
  obtain ⟨hx, hre, him⟩ := h
  refine ⟨by simpa using hx, fun i hi => ?_, him⟩
  rcases eq_or_ne p i with rfl | hne
  · rw [List.getElem?_set_self (hx ▸ hp)]
    exact s.re.readEntry_writeEntry_same _ v
  · rw [List.getElem?_set_ne hne, ← hre i hi]
    exact Memory.readEntry_writeEntry_other _ _ _ _ (by unfold entryOffset; omega)

/-- What is written over a state in which only the block has changed is written over the state before. -/
theorem blockWritten_of_keepsOutside {s u t : State} {z : Block} (h : KeepsOutside s u) (ht : BlockWritten u t z) :
    BlockWritten s t z := by
  obtain ⟨hreads, hre, him⟩ := ht
  rw [h.cur] at hreads hre him
  refine ⟨hreads, fun a ha => (hre a ha).trans (h.re a ha), ?_⟩
  split_ifs at him ⊢ with hu
  · exact ⟨him.1, fun a ha => (him.2 a ha).trans (h.im a ha)⟩
  · exact him.trans (h.dct (by simpa using hu))

/-! ### After phase F -/

/-- The forward transform of the block of the command in progress. -/
def State.coefficients (s : State) (x y : List F64) : Block :=
  xform s.cfg.numerics s.cur.alg .forward s.cur.size (x, y)

/-- The state between phase F and the next phase of EMBED or EXTRACT. -/
def State.transformed (s : State) (x y : List F64) : State := s.writeBlock s.cur.alg (s.coefficients x y)

theorem forwardBody_of_blockIs {s : State} {x y : List F64} (h : BlockIs s x y) :
    forwardBody s = .ok (s.transformed x y) := transformBody_of_readBlock (readBlock_of_blockIs h)

theorem blockWritten_transformed {s : State} (x y : List F64) (hl : s.LatchesLegal) :
    BlockWritten s (s.transformed x y) (s.coefficients x y) :=
  blockWritten_writeBlock (length_xform_re _ _ _ _ _ (sizeOk_algAllows hl.size)) (length_xform_im _ _ _ _ _)

theorem blockIs_transformed {s : State} (x y : List F64) (hl : s.LatchesLegal) :
    BlockIs (s.transformed x y) (s.coefficients x y).1 (s.coefficients x y).2 := by
  refine blockIs_of_blockWritten (blockWritten_transformed x y hl) rfl
    (length_xform_re _ _ _ _ _ (sizeOk_algAllows hl.size)) ?_
  split_ifs with hu
  · exact length_xform_im _ _ _ _ _ hu
  · exact xform_im_of_dct _ _ _ _ (by simpa using hu)

/-! ### EMBED and EXTRACT -/

/-- Settles O34: phase F leaves the coefficients, phase S sets the carrier among them, and phase I transforms that
block; the three together write nothing outside it. -/
theorem embedCompletes : Obligations.EmbedCompletes := by
  intro s f x y c hb hc hsize h ht hp hcarrier hq hfin z marked
  have hl : s.LatchesLegal := ⟨hc, sizeOk_of_legalSize hc hsize⟩
  have hF := forwardBody_of_blockIs h
  have hS := setbitBody_of_some (s := s.transformed x y)
    (reEntry_of_blockWritten (blockWritten_transformed x y hl) hp hcarrier) (setParity_eq_some ht hq hfin)
  have hkeeps := (transformBody_keepsOutside hl hF).trans (setbitBody_keepsOutside hp hS)
  obtain ⟨t, hI, hframe, hwritten⟩ := transformBody_completes .inverse (s := (s.transformed x y).setRe _ _) hc hsize
    (blockIs_setRe (blockIs_transformed x y hl) hp (setbitValue s.cur.bit c s.cur.tol))
  refine ⟨t, (State.byPhase_busy hb _ _ _).trans ?_, hframe, blockWritten_of_keepsOutside hkeeps hwritten⟩
  rw [embedBody, hF, BodyResult.andThen, hS]
  exact hI

/-- Settles O35: phase S raises NUMERIC in the state phase F left, and phase I does not run. -/
theorem embedNumericStopsAfterForward : Obligations.EmbedNumericStopsAfterForward := by
  intro s f x y c hb hdone hc hsize h ht hp hcarrier hnumeric
  have hwritten := blockWritten_transformed x y (s := s) ⟨hc, sizeOk_of_legalSize hc hsize⟩
  have hS := setbitBody_of_none (s := s.transformed x y) (reEntry_of_blockWritten hwritten hp hcarrier)
    (setParity_eq_none ht hnumeric)
  refine ⟨(s.transformed x y).raiseError .numeric, (State.byPhase_busy hb _ _ _).trans ?_, rfl, hdone, hwritten⟩
  rw [embedBody, forwardBody_of_blockIs h, BodyResult.andThen, hS]
  rfl

/-- Settles O36: phase G reads the carrier among the coefficients phase F left. -/
theorem extractCompletes : Obligations.ExtractCompletes := by
  intro s f x y c hb hc hsize h _ hp hcarrier hq
  have hwritten := blockWritten_transformed x y (s := s) ⟨hc, sizeOk_of_legalSize hc hsize⟩
  have hG := getbitBody_of_some (s := s.transformed x y) (reEntry_of_blockWritten hwritten hp hcarrier)
    (getParity_eq_some hq)
  refine ⟨({ s.transformed x y with rbit := getbitValue c s.cur.tol, rvalid := true } : State).finish,
    (State.byPhase_busy hb _ _ _).trans ?_, rfl, hwritten⟩
  rw [extractBody, forwardBody_of_blockIs h, BodyResult.andThen, hG]
  rfl

/-- Settles O37: phase G raises NUMERIC in the state phase F left. -/
theorem extractNumeric : Obligations.ExtractNumeric := by
  intro s f x y c hb hc hsize h _ hp hcarrier hq
  have hwritten := blockWritten_transformed x y (s := s) ⟨hc, sizeOk_of_legalSize hc hsize⟩
  have hG := getbitBody_of_none (s := s.transformed x y) (reEntry_of_blockWritten hwritten hp hcarrier)
    (getParity_eq_none hq)
  refine ⟨(s.transformed x y).raiseError .numeric, (State.byPhase_busy hb _ _ _).trans ?_, rfl, hwritten⟩
  rw [extractBody, forwardBody_of_blockIs h, BodyResult.andThen, hG]
  rfl

end Sys2Proof.Machine
end

section
/-! PROOFS. EMBED ends as FWD, SETBIT, INV do, and EXTRACT as FWD, GETBIT (R116): a command written to CMD and completed
in the ENGINE's next turn is one acceptance and one body, and each phase of a compound command is such a body. -/

namespace Sys2Proof.Machine

open Sys2Proof.Claims

/-! ### Acceptance, whatever is to come -/

/-- The state with other events to come and another answer. -/
def State.withPort (s : State) (es : List Event) (a : Option Answer) : State := { s with events := es, answer := a }

theorem State.acceptBlock_badSize {s : State} {op : BlockOp} {f : CmdFields}
    (hs : sizeOk s.cfg.maxSize f.alg f.size = false) :
    s.acceptBlock op f = s.beginAcceptance.raiseError .badSize := by simp [State.acceptBlock, hs]

theorem State.acceptBlock_badTol {s : State} {op : BlockOp} {f : CmdFields} {p : Nat} (hop : op.usesParity = true)
    (hs : sizeOk s.cfg.maxSize f.alg f.size = true) (hp : effectivePosition f s.pos = some p)
    (ht : toleranceOk s.tol = false) : s.acceptBlock op f = s.beginAcceptance.raiseError .badTol := by
  simp [State.acceptBlock, hs, hop, hp, ht]

/-- Acceptance looks neither at what is still to come nor at the answer. -/
theorem State.acceptBlock_withPort (s : State) (es : List Event) (a : Option Answer) (op : BlockOp) (f : CmdFields) :
    (s.withPort es a).acceptBlock op f = (s.acceptBlock op f).withPort es a := by
  rcases s.acceptBlock_cases op f with ⟨h1, e⟩ | ⟨h1, h2, e⟩ | ⟨h1, h2, ⟨h3, e⟩ | ⟨p, h3, ⟨h4, e⟩ | ⟨h4, e⟩⟩⟩ <;> rw [e]
  · exact State.acceptBlock_badSize (s := s.withPort es a) h1
  · exact State.acceptBlock_transform (s := s.withPort es a) h2 h1
  · exact State.acceptBlock_badPos (s := s.withPort es a) h2 h1 h3
  · exact State.acceptBlock_badTol (s := s.withPort es a) h2 h1 h3 h4
  · exact State.acceptBlock_parity (s := s.withPort es a) h2 h1 h3 h4

@[simp] theorem State.acceptBlock_done (s : State) (op : BlockOp) (f : CmdFields) :
    (s.acceptBlock op f).done = false := by
  rcases s.acceptBlock_cases op f with ⟨-, e⟩ | ⟨-, -, e⟩ | ⟨-, -, ⟨-, e⟩ | ⟨p, -, ⟨-, e⟩ | ⟨-, e⟩⟩⟩ <;> simp [e]

/-- A parity command that became BUSY passed every check of R133. -/
theorem State.passed_of_acceptBlock_busy {s : State} {op : BlockOp} {f : CmdFields} (hop : op.usesParity = true)
    (hb : (s.acceptBlock op f).fsm = .busy) : ∃ p, sizeOk s.cfg.maxSize f.alg f.size = true ∧
      effectivePosition f s.pos = some p ∧ toleranceOk s.tol = true := by
  rcases s.acceptBlock_cases op f with ⟨-, e⟩ | ⟨-, h, -⟩ | ⟨hs, -, ⟨-, e⟩ | ⟨p, hp, ⟨-, e⟩ | ⟨ht, -⟩⟩⟩
  · simp [e] at hb
  · simp [hop] at h
  · simp [e] at hb
  · simp [e] at hb
  · exact ⟨p, hs, hp, ht⟩

/-! ### A command written and completed -/

theorem run_succ {M : Host.Core} {s t : M.State} (k : Nat) (h : M.step s = .next t) : M.run (k + 1) s = M.run k t := by
  rw [Host.Core.run, h]

theorem step_of_run_one {M : Host.Core} {s t : M.State} (h : M.run 1 s = .next t) : M.step s = .next t := by
  rw [Host.Core.run] at h
  cases hstep : M.step s <;> rw [hstep] at h <;> cases h
  rfl

theorem fields_of_mem {i : Instr} {op : BlockOp} {f : CmdFields} (hi : (i, op) ∈ transforms f ++ parityCommands f) :
    i.fields = some f := by
  have hall : ∀ c ∈ transforms f ++ parityCommands f, c.1.fields = some f := by
    simp [transforms, parityCommands, Instr.fields]
  exact hall _ hi

/-- In IDLE the write of a command's own word is its acceptance (R33, R133). -/
theorem run_cmdWrite {s : State} {i : Instr} {op : BlockOp} {f : CmdFields} {rest : List Event} (k : Nat)
    (hi : (i, op) ∈ transforms f ++ parityCommands f) (hf : f.wellFormed = true) (hidle : s.fsm = .idle)
    (he : s.events = cmdWrite (encode i) :: rest) : Sys2Proof.core.run (k + 1) s =
      Sys2Proof.core.run k ((s.acceptBlock op f).withPort rest (some .okayWrite)) := by
  have hwf : i.wellFormed = true := (Instr.wellFormed_of_fields (fields_of_mem hi)).trans hf
  refine run_succ (M := Sys2Proof.core) k
    ((stepRunsCommandWrite s _ rest i hidle he (decodeInvertsEncode i hwf)).trans ?_)
  rw [exec_idle_block hi (s := { s with events := rest, answer := some .okayWrite }) hidle]
  exact congrArg Host.Outcome.next (s.acceptBlock_withPort rest _ op f)

theorem step_tick (s : State) (rest : List Event) (a : Option Answer) :
    step (s.withPort (.tick :: rest) a) = engineTurn (s.withPort rest none) := rfl

section
variable {s : State} {i : Instr} {op : BlockOp} {f : CmdFields} {rest : List Event}
  (hi : (i, op) ∈ transforms f ++ parityCommands f) (hf : f.wellFormed = true) (hidle : s.fsm = .idle)
include hi hf hidle

/-- A command accepted as `b`, whose body goes through, has completed in its turn (R164). -/
theorem run_command {k : Nat} {b u : State} (he : s.events = cmdWrite (encode i) :: .tick :: rest)
    (ha : s.acceptBlock op f = b) (hb : b.fsm = .busy) (hu : bodyOf b.cur.op (b.withPort rest none) = .ok u) :
    Sys2Proof.core.run (k + 2) s = Sys2Proof.core.run k u.finish := by
  rw [run_cmdWrite (k + 1) hi hf hidle he, ha]
  refine run_succ (M := Sys2Proof.core) k
    ((step_tick b rest _).trans ((engineTurn_busy (s := b.withPort rest none) hb).trans ?_))
  exact congrArg BodyResult.conclude hu

/-- A command that ends with DONE was accepted, and its body went through. -/
theorem run_command_done {t : State} (he : s.events = [cmdWrite (encode i), .tick])
    (hrun : Sys2Proof.core.run 2 s = .next t) (hdone : t.done = true) :
    (s.acceptBlock op f).fsm = .busy ∧
      ∃ u, bodyOf (s.acceptBlock op f).cur.op ((s.acceptBlock op f).withPort [] none) = .ok u ∧ t = u.finish := by
  rw [run_cmdWrite 1 hi hf hidle he] at hrun
  have hclear : (s.acceptBlock op f).done = false := s.acceptBlock_done op f
  generalize s.acceptBlock op f = b at *
  have hturn : engineTurn (b.withPort [] none) = .next t := step_of_run_one (M := Sys2Proof.core) hrun
  rcases engineTurn_next hturn with ⟨-, rfl⟩ | ⟨hb, ⟨u, hu, rfl⟩ | ⟨u, hu, rfl⟩⟩
  · exact absurd (hclear.symm.trans hdone) Bool.false_ne_true
  · exact ⟨hb, u, hu, rfl⟩
  · have hkept : u.done = b.done := by rw [bodyOf_frame (.inr hu)]; rfl
    exact absurd (hclear.symm.trans (hkept.symm.trans hdone)) Bool.false_ne_true

end

/-! ### Single commands in step with a compound one -/

/-- A parity command with the fields `f` is in progress and between its phases; `p` is its position (R23, R133). -/
structure State.Runs (w : State) (f : CmdFields) (p : Nat) : Prop where
  sizeLegal : sizeOk w.cfg.maxSize f.alg f.size = true
  position : effectivePosition f w.pos = some p
  tolerance : toleranceOk w.tol = true
  alg : w.cur.alg = f.alg
  bit : w.cur.bit = f.bit
  size : w.cur.size = f.size
  epos : w.cur.epos = BitVec.ofNat 16 p
  tol : w.cur.tol = w.tol
  result : w.epos = BitVec.ofNat 16 p

/-- No phase changes operands, latches or RESULT.EPOS. -/
theorem State.Runs.phase {w w' : State} {f : CmdFields} {p : Nat} {op : BlockOp} (h : w.Runs f p)
    (hbody : bodyOf op w = .ok w') : w'.Runs f p := by
  rw [bodyOf_frame (.inl hbody)]
  exact { h with }

/-- An IDLE state, with the events `es` to come, that has the operands and the buffers of the compound command
at `w`. -/
structure State.InStep (u w : State) (es : List Event) : Prop where
  idle : u.fsm = .idle
  events : u.events = es
  cfg : u.cfg = w.cfg
  pos : u.pos = w.pos
  tol : u.tol = w.tol
  re : u.re = w.re
  im : u.im = w.im

theorem State.readBlock_congr {s t : State} (hre : s.re = t.re) (him : s.im = t.im) (alg : Alg) (n : Nat) :
    s.readBlock alg n = t.readBlock alg n := by rw [State.readBlock, State.readBlock, hre, him]

theorem State.reEntry_congr {s t : State} (hre : s.re = t.re) (i : Nat) : s.reEntry i = t.reEntry i := by
  rw [State.reEntry, State.reEntry, hre]

section
variable {u w w' : State} {f : CmdFields} {p k : Nat} {rest : List Event} (hf : f.wellFormed = true) (hw : w.Runs f p)
include hf hw

/-- FWD or INV does what phase F or I does. -/
theorem run_transform {i : Instr} {op : BlockOp} {dir : Direction} (hi : (i, op) ∈ transforms f)
    (hop : op.usesParity = false) (hdir : bodyOf op = transformBody dir)
    (hu : u.InStep w (cmdWrite (encode i) :: .tick :: rest)) (hbody : transformBody dir w = .ok w') :
    ∃ u', Sys2Proof.core.run (k + 2) u = Sys2Proof.core.run k u' ∧ u'.InStep w' rest ∧ u'.done = true ∧
      u'.epos = u.epos := by
  obtain ⟨z, hz, rfl⟩ := transformBody_ok hbody
  have hread : u.readBlock f.alg (f.size * f.size) = some z := by
    rw [State.readBlock_congr hu.re hu.im, ← hw.alg, ← hw.size]
    exact hz
  have hrun := transformBody_of_readBlock (dir := dir) (s := (u.beginAcceptance.latch op f).withPort rest none) hread
  refine ⟨_, run_command (List.mem_append_left _ hi) hf hu.idle hu.events
    (State.acceptBlock_transform hop (by rw [hu.cfg]; exact hw.sizeLegal)) rfl ((congrFun hdir _).trans hrun),
    ⟨rfl, rfl, hu.cfg, hu.pos, hu.tol, ?_, ?_⟩, rfl, rfl⟩
  · rw [hw.alg, hw.size, ← hu.cfg]
    exact congrArg (Memory.writeEntries · _ _) hu.re
  · rw [hw.alg, hw.size, ← hu.cfg, State.writeBlock_im, ← hu.im]
    rfl

/-- SETBIT does what phase S does. -/
theorem run_setbit (hu : u.InStep w (cmdWrite (encode (.setbit f)) :: .tick :: rest)) (hbody : setbitBody w = .ok w') :
    ∃ u', Sys2Proof.core.run (k + 2) u = Sys2Proof.core.run k u' ∧ u'.InStep w' rest ∧
      u'.epos = BitVec.ofNat 16 p := by
  obtain ⟨x, y, hx, hy, rfl⟩ := setbitBody_ok hbody
  rw [hw.epos] at hx
  rw [hw.bit, hw.tol, ← hu.tol] at hy
  rw [← State.reEntry_congr hu.re] at hx
  refine ⟨_, run_command (op := .setbit) (List.mem_append_right _ (by simp [parityCommands])) hf hu.idle hu.events
    (State.acceptBlock_parity rfl (by rw [hu.cfg]; exact hw.sizeLegal) (by rw [hu.pos]; exact hw.position)
      (by rw [hu.tol]; exact hw.tolerance)) rfl
    (setbitBody_of_some (s := ((u.beginAcceptance.latchParity p).latch .setbit f).withPort rest none) hx hy),
    ⟨rfl, rfl, hu.cfg, hu.pos, hu.tol, ?_, hu.im⟩, rfl⟩
  rw [hw.epos]
  exact congrArg (Memory.writeEntry · _ _) hu.re

/-- GETBIT does what phase G does. -/
theorem run_getbit (hu : u.InStep w (cmdWrite (encode (.getbit f)) :: .tick :: rest)) (hbody : getbitBody w = .ok w') :
    ∃ u', Sys2Proof.core.run (k + 2) u = Sys2Proof.core.run k u' ∧ u'.InStep w' rest ∧ u'.done = true ∧
      u'.epos = BitVec.ofNat 16 p ∧ u'.rbit = w'.rbit ∧ u'.rvalid = w'.rvalid := by
  obtain ⟨x, b, hx, hb, rfl⟩ := getbitBody_ok hbody
  rw [hw.epos] at hx
  rw [hw.tol, ← hu.tol] at hb
  rw [← State.reEntry_congr hu.re] at hx
  exact ⟨_, run_command (op := .getbit) (List.mem_append_right _ (by simp [parityCommands])) hf hu.idle hu.events
    (State.acceptBlock_parity rfl (by rw [hu.cfg]; exact hw.sizeLegal) (by rw [hu.pos]; exact hw.position)
      (by rw [hu.tol]; exact hw.tolerance)) rfl
    (getbitBody_of_some (s := ((u.beginAcceptance.latchParity p).latch .getbit f).withPort rest none) hx hb),
    ⟨rfl, rfl, hu.cfg, hu.pos, hu.tol, hu.re, hu.im⟩, rfl, rfl, rfl, rfl⟩

end

/-! ### The claim -/

/-- A compound command that ends with DONE ran its body from the state its acceptance left, and single commands from the
same state start in step with it. -/
theorem compound_done {s t : State} {i : Instr} {op : BlockOp} {f : CmdFields} (hi : (i, op) ∈ parityCommands f)
    (hf : f.wellFormed = true) (hidle : s.fsm = .idle)
    (hrun : Sys2Proof.core.run 2 { s with events := [cmdWrite (encode i), .tick] } = .next t) (hdone : t.done = true) :
    ∃ w w' p, bodyOf op w = .ok w' ∧ t = w'.finish ∧ w.Runs f p ∧
      ∀ es, ({ s with events := es } : State).InStep w es := by
  obtain ⟨hbusy, w', hw', rfl⟩ := run_command_done (s := { s with events := [cmdWrite (encode i), .tick] })
    (List.mem_append_right _ hi) hf hidle rfl hrun hdone
  have hop := usesParity_of_mem hi
  obtain ⟨p, hs, hp, ht⟩ := State.passed_of_acceptBlock_busy hop hbusy
  rw [State.acceptBlock_parity hop hs hp ht] at hw'
  exact ⟨_, w', p, hw', rfl, ⟨hs, hp, ht, rfl, rfl, rfl, rfl, rfl, rfl⟩,
    fun es => ⟨hidle, rfl, rfl, rfl, rfl, rfl, rfl⟩⟩

/-- Settles O41: each phase of the compound command is the body of a single one, and the single commands stay in step
with the phases; SETBIT and GETBIT find POS and TOL as the compound command did. -/
theorem compoundCommandsEqualSteps : Obligations.CompoundCommandsEqualSteps := by
  intro s f hidle hf
  have hfwd : (Instr.fwd f, BlockOp.fwd) ∈ transforms f := by simp [transforms]
  have hinv : (Instr.inv f, BlockOp.inv) ∈ transforms f := by simp [transforms]
  refine ⟨fun t hrun hdone => ?_, fun t hrun hdone => ?_⟩
  · obtain ⟨w, w', p, hbody, rfl, hw, hstart⟩ :=
      compound_done (op := .embed) (by simp [parityCommands]) hf hidle hrun hdone
    obtain ⟨w₁, w₂, hF, hS, hI⟩ := embedBody_ok hbody
    have hw₁ := hw.phase (op := .fwd) hF
    have hw₂ := hw₁.phase (op := .setbit) hS
    obtain ⟨u₁, h₁, hu₁, -⟩ := run_transform (k := 4) hf hw hfwd rfl rfl (hstart _) hF
    obtain ⟨u₂, h₂, hu₂, hepos₂⟩ := run_setbit (k := 2) hf hw₁ hu₁ hS
    obtain ⟨u₃, h₃, hu₃, hdone₃, hepos₃⟩ := run_transform (k := 0) hf hw₂ hinv rfl rfl hu₂ hI
    exact ⟨u₃, h₁.trans (h₂.trans h₃), hdone₃, hu₃.re, hu₃.im,
      (hepos₃.trans hepos₂).trans (hw₂.phase (op := .inv) hI).result.symm⟩
  · obtain ⟨w, w', p, hbody, rfl, hw, hstart⟩ :=
      compound_done (op := .extract) (by simp [parityCommands]) hf hidle hrun hdone
    obtain ⟨w₁, hF, hG⟩ := extractBody_ok hbody
    have hw₁ := hw.phase (op := .fwd) hF
    obtain ⟨u₁, h₁, hu₁, -⟩ := run_transform (k := 2) hf hw hfwd rfl rfl (hstart _) hF
    obtain ⟨u₂, h₂, hu₂, hdone₂, hepos₂, hrbit, hrvalid⟩ := run_getbit (k := 0) hf hw₁ hu₁ hG
    exact ⟨u₂, h₁.trans h₂, hdone₂, hu₂.re, hu₂.im, hepos₂.trans (hw₁.phase (op := .getbit) hG).result.symm,
      hrbit, hrvalid⟩

end Sys2Proof.Machine
end

section
/-! PROOFS. NOP in every ENGINE state, and what writes to CTRL and STATUS do, the soft reset and its abort of a BUSY command
among them (R122 to R126, R152). -/

namespace Sys2Proof.Machine

open Sys2Proof.Claims

/-! ### CTRL and STATUS writes -/

/-- CTRL never stalls: its write is carried out in every ENGINE state (R123, R158). -/
theorem step_ctrlWrite {s : State} {v : Word} {rest : List Event} (he : NextWrite s 0x10 v rest) :
    step s = .next ((s.served rest .okayWrite).writeCtrl v) := step_write he (locate_ctrl _) (.inl rfl)

/-- STATUS never stalls either (R126, R158). -/
theorem step_statusWrite {s : State} {v : Word} {rest : List Event} (he : NextWrite s 0x18 v rest) :
    step s = .next ((s.served rest .okayWrite).statusW1C v) := step_write he (locate_status _) (.inl rfl)

theorem State.halted_eq_decide (s : State) : s.halted = decide (s.fsm = .halted) := by
  cases h : s.fsm <;> simp [State.halted, h]

/-- Settles O51: STATUS does not stall, and the write is the W1C of bits 1 and 2. -/
theorem statusWriteOneToClear : Obligations.StatusWriteOneToClear := by
  intro s v rest _ he
  rw [step_statusWrite he, State.statusW1C_eq]
  simp [State.served, State.halted_eq_decide, bit_eq_getLsbD, Bool.and_comm, and_comm]

/-- Settles O52: CTRL does not stall, and with bit 0 clear the write only sets IRQ_EN, which the IRQ line reads. -/
theorem interruptEnableWrite : Obligations.InterruptEnableWrite := by
  intro s v rest _ he hv
  refine ⟨_, step_ctrlWrite he, ?_⟩
  rw [State.writeCtrl, bit_eq_getLsbD, bit_eq_getLsbD, hv]
  exact ⟨rfl, rfl⟩

/-! ### Soft reset -/

/-- Outside BUSY a soft reset keeps both buffers (R125). -/
theorem State.softReset_keeps_buffers {s : State} (hb : s.fsm ≠ .busy) :
    s.softReset.re = s.re ∧ s.softReset.im = s.im := by simp [State.busy, hb]

/-- In BUSY the command's block becomes UNKNOWN, in IM only for an FFT (R125). -/
theorem State.softReset_erases_block {s : State} (hb : s.fsm = .busy) {j : Nat} (hj : j < s.cur.entries) :
    s.softReset.reEntry j = none ∧ (s.cur.alg.usesIm = true → s.softReset.imEntry j = none) := by
  refine ⟨?_, fun hu => ?_⟩
  · rw [State.reEntry, State.softReset_re, if_pos (by simp [State.busy, hb])]
    exact Memory.readEntry_eraseEntries _ _ _ _ hj
  · rw [State.imEntry, State.softReset_im, if_pos (by simp [State.busy, hb, hu])]
    exact Memory.readEntry_eraseEntries _ _ _ _ hj

/-- Whatever the ENGINE state, no byte of RE outside the block of the latched command changes (R125, R152). -/
theorem State.readByte_softReset_re {s : State} {a : Nat} (ha : a < reBase ∨ reBase + 8 * s.cur.entries ≤ a) :
    s.softReset.re.readByte a = s.re.readByte a := by
  rw [State.softReset_re]
  split_ifs
  · exact Memory.readByte_eraseEntries_outside _ _ _ _ ha
  · rfl

theorem State.readByte_softReset_im {s : State} {a : Nat} (ha : a < imBase ∨ imBase + 8 * s.cur.entries ≤ a) :
    s.softReset.im.readByte a = s.im.readByte a := by
  rw [State.softReset_im]
  split_ifs
  · exact Memory.readByte_eraseEntries_outside _ _ _ _ ha
  · rfl

theorem State.softReset_im_of_dct {s : State} (hu : s.cur.alg.usesIm = false) : s.softReset.im = s.im := by simp [hu]

/-- What the abort of a BUSY command does to the buffers: its block is erased and everything else kept (R125, R152). -/
theorem State.softReset_aborts {s : State} (hb : s.fsm = .busy) :
    (∀ j < s.cur.entries, s.softReset.reEntry j = none ∧ (s.cur.alg.usesIm = true → s.softReset.imEntry j = none)) ∧
      (∀ a, a < reBase ∨ reBase + 8 * s.cur.entries ≤ a → s.softReset.re.readByte a = s.re.readByte a) ∧
      (∀ a, a < imBase ∨ imBase + 8 * s.cur.entries ≤ a → s.softReset.im.readByte a = s.im.readByte a) ∧
      (s.cur.alg.usesIm = false → s.softReset.im = s.im) :=
  ⟨fun _ => State.softReset_erases_block hb, fun _ => State.readByte_softReset_re, fun _ => State.readByte_softReset_im,
    State.softReset_im_of_dct⟩

/-- A CTRL write with bit 0 set is the soft reset, in every ENGINE state (R124). -/
theorem step_softReset {s : State} {v : Word} {rest : List Event} (he : NextWrite s 0x10 v rest)
    (hv : v.getLsbD 0 = true) : step s = .next (s.served rest .okayWrite).softReset := by
  rw [step_ctrlWrite he, State.writeCtrl, bit_eq_getLsbD, if_pos hv]

/-- Settles O53: CTRL does not stall, and with bit 0 set the write is the soft reset: it erases exactly the block of a BUSY
command. -/
theorem softReset : Obligations.SoftReset := by
  intro s v rest _ he hv
  refine ⟨_, step_softReset he hv, ?_, rfl, State.softReset_keeps_buffers (s := s.served rest .okayWrite),
    State.softReset_aborts (s := s.served rest .okayWrite)⟩
  conv_lhs => rw [State.softReset_eq]
  simp [State.served]

/-! ### CMD writes -/

/-- Outside BUSY a CMD write is not held back (R133, R158). -/
theorem step_cmdWrite {s : State} {w : Word} {rest : List Event} (he : NextWrite s 0x30 w rest) (hb : s.fsm ≠ .busy) :
    step s = accept w (s.served rest .okayWrite) := step_write he (locate_cmd _) (.inr hb)

/-- In BUSY it waits, and the step is the ENGINE's turn (R158). -/
theorem step_cmdWrite_busy {s : State} {w : Word} {rest : List Event} (he : NextWrite s 0x30 w rest)
    (hb : s.fsm = .busy) : step s = engineTurn (s.answering none) :=
  step_stalled he (by simp [stalled, State.busy, hb, Request.target, Target.stalls])

/-- HALTED ignores every command word (R138). -/
theorem accept_halted {s : State} (w : Word) (h : s.fsm = .halted) : accept w s = .next s := by
  simp [accept, State.halted, h]

/-- In IDLE the decoder's fatal verdict halts the engine (R137). -/
theorem accept_fatal {s : State} {w : Word} {c : ErrCode} (h : s.fsm = .idle) (hd : decode w = .fatal c) :
    accept w s = .next (s.beginAcceptance.raiseFatal c) := by simp [accept, State.halted, h, hd]

theorem exec_nop_idle {s : State} (h : s.fsm = .idle) :
    exec .nop s = .next { s with done := true, rvalid := false } := by
  simp [exec, execNop, h, State.beginAcceptance]

/-! ### The reserved fields as a mask -/

/-- A field is 0 exactly if each of its bits is. -/
theorem bits_eq_zero_iff (w : Word) (lo width : Nat) :
    bits w lo width = 0 ↔ ∀ i, lo ≤ i → i < lo + width → w.getLsbD i = false := by
  have hfield : bits w lo width = 0 ↔ w.extractLsb' lo width = 0#width := by
    simp [bits_eq_extractLsb', BitVec.toNat_eq]
  rw [hfield]
  constructor
  · intro h i hlo hhi
    obtain ⟨k, rfl⟩ := Nat.exists_eq_add_of_le hlo
    simpa [Nat.add_lt_add_iff_left.mp hhi] using congrArg (BitVec.getLsbD · k) h
  · intro h
    refine BitVec.eq_of_getLsbD_eq fun k hk => ?_
    simp [hk, h (lo + k) (by omega) (by omega)]

theorem and_eq_zero_iff (w m : Word) :
    w &&& m = 0#64 ↔ ∀ i < 64, m.getLsbD i = true → w.getLsbD i = false := by
  constructor
  · intro h i _ hm
    simpa [hm] using congrArg (BitVec.getLsbD · i) h
  · intro h
    refine BitVec.eq_of_getLsbD_eq fun i hi => ?_
    cases hm : m.getLsbD i with
    | false => simp [hm]
    | true => simp [h i hi hm]

/-- The bits set in the mask are those of RSV2, RSV1 and RSV0 (R63). -/
theorem reservedMask_getLsbD : ∀ i < 64, ((0xFFFFFFFFFF00FE00#64).getLsbD i = true ↔
    (32 ≤ i ∧ i < 32 + 32) ∨ (24 ≤ i ∧ i < 24 + 8) ∨ (9 ≤ i ∧ i < 9 + 7)) := by decide

theorem reservedZero_iff_mask (w : Word) : reservedZero w = true ↔ w &&& 0xFFFFFFFFFF00FE00#64 = 0#64 := by
  rw [reservedZero_iff, bits_eq_zero_iff, bits_eq_zero_iff, bits_eq_zero_iff, and_eq_zero_iff]
  constructor
  · rintro ⟨h2, h1, h0⟩ i hi hm
    rcases (reservedMask_getLsbD i hi).mp hm with ⟨hlo, hhi⟩ | ⟨hlo, hhi⟩ | ⟨hlo, hhi⟩
    · exact h2 i hlo hhi
    · exact h1 i hlo hhi
    · exact h0 i hlo hhi
  · intro h
    have hclear (i : Nat) (hm : (32 ≤ i ∧ i < 32 + 32) ∨ (24 ≤ i ∧ i < 24 + 8) ∨ (9 ≤ i ∧ i < 9 + 7)) :
        w.getLsbD i = false :=
      have hi : i < 64 := by omega
      h i hi ((reservedMask_getLsbD i hi).mpr hm)
    exact ⟨fun i hlo hhi => hclear i (.inl ⟨hlo, hhi⟩), fun i hlo hhi => hclear i (.inr (.inl ⟨hlo, hhi⟩)),
      fun i hlo hhi => hclear i (.inr (.inr ⟨hlo, hhi⟩))⟩

/-- Settles O21: the word decodes to NOP or, with a reserved bit set, to ILLEGAL; a BUSY engine completes its command
instead, and a HALTED one ignores the word. -/
theorem nopEffect : Obligations.NopEffect := by
  intro s w rest he hop
  have hop0 : bits w 0 4 = 0 := by rw [bits_eq_extractLsb', hop]; rfl
  refine ⟨fun hr => ⟨fun hidle => ⟨exec_nop_idle hidle, ?_⟩, fun hbusy t h => ?_, fun hhalted => ?_⟩, fun hr hidle => ?_⟩
  · have hd : decode w = .cmd .nop := decode_eq_nop ((reservedZero_iff_mask w).mpr hr) hop0
    exact (stepRunsCommandWrite s w rest .nop hidle he hd).trans (exec_nop_idle hidle)
  · rw [step_cmdWrite_busy he hbusy] at h
    rcases engineTurn_effect (es := s.events) h with ⟨hne, -⟩ | ⟨-, e | e⟩
    · exact absurd hbusy hne
    · rw [e]; exact ⟨rfl, rfl, rfl⟩
    · rw [e]; exact ⟨rfl, rfl, rfl⟩
  · rw [step_cmdWrite he (by simp [hhalted])]
    exact accept_halted w hhalted
  · have hd : decode w = .fatal .illegal :=
      decode_eq_illegal (.inl (Bool.eq_false_iff.mpr fun hz => hr ((reservedZero_iff_mask w).mp hz)))
    exact ⟨_, (step_cmdWrite he (by simp [hidle])).trans (accept_fatal hidle hd), rfl, rfl⟩

end Sys2Proof.Machine
end

section
/-! PROOFS. Which commands IDLE accepts and with which error it turns away the others, and how a fatal word halts the
engine (R133 to R138). -/

namespace Sys2Proof.Machine

open Sys2Proof.Claims

/-! ### Commands and their operations -/

/-- Every command but NOP is one of the six of the tables. -/
theorem exists_mem_of_ne_nop {i : Instr} (hi : i ≠ .nop) : ∃ op f, (i, op) ∈ transforms f ++ parityCommands f := by
  cases i with
  | nop => exact absurd rfl hi
  | fwd f => exact ⟨.fwd, f, by simp [transforms]⟩
  | inv f => exact ⟨.inv, f, by simp [transforms]⟩
  | setbit f => exact ⟨.setbit, f, by simp [parityCommands]⟩
  | getbit f => exact ⟨.getbit, f, by simp [parityCommands]⟩
  | embed f => exact ⟨.embed, f, by simp [parityCommands]⟩
  | extract f => exact ⟨.extract, f, by simp [parityCommands]⟩

theorem not_usesParity_of_mem {i : Instr} {op : BlockOp} {f : CmdFields} (hi : (i, op) ∈ transforms f) :
    op.usesParity = false := by
  have hall : ∀ c ∈ transforms f, c.2.usesParity = false := by simp [transforms, BlockOp.usesParity]
  exact hall _ hi

/-! ### Acceptance in IDLE -/

/-- The size check lets through no size that R134 forbids. -/
theorem legalSize_of_sizeOk {maxSize : Nat} {alg : Alg} {size : Nat} (h : sizeOk maxSize alg size = true) :
    LegalSize maxSize alg size := by
  have hpow (hp : powerOfTwo size = true) : ∃ k, size = 2 ^ k := by
    simp only [powerOfTwo, Bool.or_eq_true, beq_iff_eq] at hp
    rcases hp with ((((rfl | rfl) | rfl) | rfl) | rfl) | rfl
    exacts [⟨1, rfl⟩, ⟨2, rfl⟩, ⟨3, rfl⟩, ⟨4, rfl⟩, ⟨5, rfl⟩, ⟨6, rfl⟩]
  simp only [sizeOk, Bool.and_eq_true, decide_eq_true_eq] at h
  obtain ⟨⟨h2, hmax⟩, hallows⟩ := h
  refine ⟨h2, hmax, ?_⟩
  cases alg with
  | fft1d | fft2d => exact hpow hallows
  | dct2d => trivial
  | fdct8 | fdctlee => exact beq_iff_eq.mp hallows

theorem sizeOk_eq_false {maxSize : Nat} {alg : Alg} {size : Nat} (h : ¬LegalSize maxSize alg size) :
    sizeOk maxSize alg size = false := Bool.eq_false_iff.mpr (mt legalSize_of_sizeOk h)

/-- In IDLE an error raised at acceptance changes STATUS and RVALID alone (R136). -/
theorem State.beginAcceptance_raiseError {s : State} (h : s.fsm = .idle) (c : ErrCode) :
    s.beginAcceptance.raiseError c = { s with done := false, rvalid := false, err := true, errCode := c } := by
  simp [State.raiseError, State.beginAcceptance, h]

/-- Acceptance of a block command raises one of the three errors or becomes BUSY (R133, R136). -/
theorem State.acceptBlock_fails_or_busy (s : State) (op : BlockOp) (f : CmdFields) :
    (∃ c, (c = .badSize ∨ c = .badPos ∨ c = .badTol) ∧ s.acceptBlock op f = s.beginAcceptance.raiseError c) ∨
      (s.acceptBlock op f).fsm = .busy := by
  rcases s.acceptBlock_cases op f with ⟨-, e⟩ | ⟨-, -, e⟩ | ⟨-, -, ⟨-, e⟩ | ⟨p, -, ⟨-, e⟩ | ⟨-, e⟩⟩⟩
  · exact .inl ⟨.badSize, by simp, e⟩
  · exact .inr (by simp [e])
  · exact .inl ⟨.badPos, by simp, e⟩
  · exact .inl ⟨.badTol, by simp, e⟩
  · exact .inr (by simp [e])

/-! ### The claims -/

/-- Settles O22: a transform has no check but that of its size. -/
theorem transformAccepted : Obligations.TransformAccepted := by
  intro s f i op hi hidle hc hsize
  rw [exec_idle_block (List.mem_append_left _ hi) hidle,
    State.acceptBlock_transform (not_usesParity_of_mem hi) (sizeOk_of_legalSize hc hsize)]
  rfl

/-- Settles O24: with size and position passed, the tolerance check alone decides, and it is the comparison of R135. -/
theorem toleranceChecked : Obligations.ToleranceChecked := by
  intro s f i op p hi hidle hc hsize hp hlt
  have hop := usesParity_of_mem hi
  have hok := sizeOk_of_legalSize hc hsize
  have hpos : effectivePosition f s.pos = some p := effectivePosition_eq_some_iff.mpr ⟨hp, hlt⟩
  rw [exec_idle_block (List.mem_append_right _ hi) hidle]
  refine ⟨fun hbad => ?_, fun hgood t ht => ?_⟩
  · have htol : toleranceOk s.tol = false := Bool.eq_false_iff.mpr (mt (toleranceOk_iff s.tol).mp hbad)
    rw [State.acceptBlock_badTol hop hok hpos htol, State.beginAcceptance_raiseError hidle]
  · rw [State.acceptBlock_parity hop hok hpos ((toleranceOk_iff _).mpr hgood)] at ht
    cases ht
    exact ⟨rfl, rfl, rfl⟩

/-- Settles O25: the size check comes first, and it is the one of R134; past it only the other two errors are left. -/
theorem sizeChecked : Obligations.SizeChecked := by
  intro s f i op hi hidle hc
  rw [exec_idle_block hi hidle]
  refine ⟨fun hbad => ?_, fun hgood => ⟨_, rfl, ?_⟩⟩
  · rw [State.acceptBlock_badSize (sizeOk_eq_false hbad), State.beginAcceptance_raiseError hidle]
  · have hok := sizeOk_of_legalSize hc hgood
    rcases s.acceptBlock_cases op f with ⟨hbad, -⟩ | ⟨-, -, e⟩ | ⟨-, -, ⟨-, e⟩ | ⟨p, -, ⟨-, e⟩ | ⟨-, e⟩⟩⟩
    · simp [hok] at hbad
    all_goals simp [e]

/-- Settles O26: an acceptance that does not become BUSY raised one of its three errors. -/
theorem failedCheckLeavesRest : Obligations.FailedCheckLeavesRest := by
  intro s i t hi hidle h hb
  obtain ⟨op, f, hmem⟩ := exists_mem_of_ne_nop hi
  rw [exec_idle_block hmem hidle] at h
  cases h
  obtain ⟨c, hc, e⟩ := (s.acceptBlock_fails_or_busy op f).resolve_right hb
  exact ⟨c, hc, e.trans (State.beginAcceptance_raiseError hidle c)⟩

/-- Settles O27: IDLE takes the decoder's fatal verdict and HALTED no word at all; reads go on as outside BUSY, and only a
reset leaves HALTED. -/
theorem fatalErrorHalts : Obligations.FatalErrorHalts := by
  refine ⟨fun s w rest c hidle he hd => ?_, fun s w rest hh he => ?_, fun s rest i v hh hc hi => ?_,
    fun s t hh h hleft => ?_⟩
  · exact (step_cmdWrite he (by simp [hidle])).trans (accept_fatal hidle hd)
  · exact (step_cmdWrite he (by simp [hh])).trans (accept_halted w hh)
  · have hb : s.fsm ≠ .busy := by simp [hh]
    obtain ⟨hre, him⟩ := entryReads s rest i hb hc hi
    obtain ⟨-, hpos, -, htol, -⟩ := operandRegisters s rest v hb hc
    exact ⟨fun he hv => by rw [hre he, hv], fun he hv => by rw [him he, hv], hpos, htol⟩
  · obtain ⟨-, -, -, -, hhalted⟩ := engineTransitions s t h
    exact (hhalted hh hleft).2

end Sys2Proof.Machine
end

section
/-! PROOFS. No step reads ERR or ERRCODE but to answer a STATUS read: from the bodies of the commands to the step, each layer
leaves them, or sets them to the newest error, whatever they were (R30, R139, R145). -/

namespace Sys2Proof.Machine

open Sys2Proof.Claims

/-! ### Bodies -/

/-- The state with any other ERR and ERRCODE. -/
def State.withError (s : State) (e : Bool) (c : ErrCode) : State := { s with err := e, errCode := c }

/-- A phase's end with any other ERR and ERRCODE. -/
def BodyResult.withError (e : Bool) (c : ErrCode) : BodyResult → BodyResult
  | .ok s => .ok (s.withError e c)
  | .numeric s => .numeric (s.withError e c)
  | .unknown => .unknown

/-- The phase does the same with any ERR and ERRCODE and leaves them as they are. -/
def IgnoresError (k : State → BodyResult) : Prop := ∀ s e c, k (s.withError e c) = (k s).withError e c

theorem IgnoresError.andThen {j k : State → BodyResult} (hj : IgnoresError j) (hk : IgnoresError k) :
    IgnoresError fun s => (j s).andThen k := by
  intro s e c
  show (j (s.withError e c)).andThen k = ((j s).andThen k).withError e c
  rw [hj s e c]
  cases j s with
  | ok u => exact hk u e c
  | numeric u => rfl
  | unknown => rfl

theorem transformBody_ignoresError (dir : Direction) : IgnoresError (transformBody dir) := by
  intro s e c
  have hread : (s.withError e c).readBlock s.cur.alg s.cur.entries = s.readBlock s.cur.alg s.cur.entries := rfl
  cases hz : s.readBlock s.cur.alg s.cur.entries with
  | none =>
    rw [transformBody_unknown.mpr hz]
    exact transformBody_unknown.mpr (hread.trans hz)
  | some z =>
    rw [transformBody_of_readBlock hz]
    exact transformBody_of_readBlock (hread.trans hz)

theorem setbitBody_ignoresError : IgnoresError setbitBody := by
  intro s e c
  have hread : (s.withError e c).reEntry s.cur.epos.toNat = s.reEntry s.cur.epos.toNat := rfl
  cases hx : s.reEntry s.cur.epos.toNat with
  | none =>
    rw [setbitBody_unknown.mpr hx]
    exact setbitBody_unknown.mpr (hread.trans hx)
  | some x =>
    cases hy : setParity s.cur.bit x s.cur.tol with
    | none => rw [setbitBody_of_none hx hy]; exact setbitBody_of_none (hread.trans hx) hy
    | some y => rw [setbitBody_of_some hx hy]; exact setbitBody_of_some (hread.trans hx) hy

theorem getbitBody_ignoresError : IgnoresError getbitBody := by
  intro s e c
  have hread : (s.withError e c).reEntry s.cur.epos.toNat = s.reEntry s.cur.epos.toNat := rfl
  cases hx : s.reEntry s.cur.epos.toNat with
  | none =>
    rw [getbitBody_unknown.mpr hx]
    exact getbitBody_unknown.mpr (hread.trans hx)
  | some x =>
    cases hb : getParity x s.cur.tol with
    | none => rw [getbitBody_of_none hx hb]; exact getbitBody_of_none (hread.trans hx) hb
    | some b => rw [getbitBody_of_some hx hb]; exact getbitBody_of_some (hread.trans hx) hb

theorem bodyOf_ignoresError (op : BlockOp) : IgnoresError (bodyOf op) := by
  have hforward := transformBody_ignoresError .forward
  have hinverse := transformBody_ignoresError .inverse
  cases op with
  | fwd => exact hforward
  | inv => exact hinverse
  | setbit => exact setbitBody_ignoresError
  | getbit => exact getbitBody_ignoresError
  | embed => exact (hforward.andThen setbitBody_ignoresError).andThen hinverse
  | extract => exact hforward.andThen getbitBody_ignoresError

/-! ### The two kinds of outcome -/

/-- How a part `k` of the step that takes `s` to `t` treats ERR and ERRCODE: it leaves them, and with any others does the
same but for the answer; or it raises an error, and ends in `t` whatever they were (R139, R145). -/
inductive ErrorOutcome (k : State → Host.Outcome State Fault Refusal) (s t : State) : Prop where
  | keeps (herr : t.err = s.err) (hcode : t.errCode = s.errCode)
      (h : ∀ e c, ∃ a, k (s.withError e c) = .next { t.withError e c with answer := a })
  | raises (herr : t.err = true) (hcode : t.errCode ≠ .none)
      (hdone : t.done = false ∨ (s.fsm = .busy ∧ t.errCode = .numeric ∧ t.done = s.done))
      (h : ∀ e c, k (s.withError e c) = .next t)

/-- What is still to come and the answer before have no part in it. -/
theorem ErrorOutcome.of_withPort {k k' : State → Host.Outcome State Fault Refusal} {s t : State} {es : List Event}
    {a : Option Answer} (h : ErrorOutcome k (s.withPort es a) t)
    (hk : ∀ e c, k' (s.withError e c) = k ((s.withPort es a).withError e c)) : ErrorOutcome k' s t := by
  cases h with
  | keeps herr hcode h => exact .keeps herr hcode fun e c => (h e c).imp fun _ ha => (hk e c).trans ha
  | raises herr hcode hdone h => exact .raises herr hcode hdone fun e c => (hk e c).trans (h e c)

/-- A part that does what another does from the same states is of the same kind. -/
theorem ErrorOutcome.congr {k k' : State → Host.Outcome State Fault Refusal} {s t : State} (h : ErrorOutcome k s t)
    (hk : ∀ e c, k' (s.withError e c) = k (s.withError e c)) : ErrorOutcome k' s t :=
  .of_withPort (es := s.events) (a := s.answer) h hk

/-! ### Completion and acceptance -/

/-- A completion sets DONE or raises NUMERIC (R164, R110). -/
theorem engineTurn_errorOutcome {s t : State} (h : engineTurn s = .next t) : ErrorOutcome engineTurn s t := by
  have hbusy (hb : s.fsm = .busy) (e : Bool) (c : ErrCode) :
      engineTurn (s.withError e c) = ((bodyOf s.cur.op s).withError e c).conclude :=
    (engineTurn_busy (s := s.withError e c) hb).trans (congrArg _ (bodyOf_ignoresError s.cur.op s e c))
  rcases engineTurn_next h with ⟨hb, rfl⟩ | ⟨hb, ⟨u, hu, rfl⟩ | ⟨u, hu, rfl⟩⟩
  · exact .keeps rfl rfl fun e c => ⟨_, engineTurn_not_busy (s := t.withError e c) hb⟩
  · have herr : u.err = s.err := by rw [bodyOf_frame (.inl hu)]
    have hcode : u.errCode = s.errCode := by rw [bodyOf_frame (.inl hu)]
    exact .keeps herr hcode fun e c => ⟨u.answer, by rw [hbusy hb, hu]; rfl⟩
  · have hdone : u.done = s.done := by rw [bodyOf_frame (.inr hu)]
    exact .raises rfl nofun (.inr ⟨hb, rfl, hdone⟩) fun e c => by rw [hbusy hb, hu]; rfl

/-- A check that fails at acceptance raises its error, and a command accepted leaves the old one (R133, R136). -/
theorem acceptBlock_errorOutcome (s : State) (op : BlockOp) (f : CmdFields) :
    ErrorOutcome (fun b => .next (b.acceptBlock op f)) s (s.acceptBlock op f) := by
  have failed (code : ErrCode) (hcode : code ≠ .none)
      (h : ∀ e c, (s.withError e c).acceptBlock op f = s.beginAcceptance.raiseError code) :
      ErrorOutcome (fun b => .next (b.acceptBlock op f)) s (s.beginAcceptance.raiseError code) :=
    .raises rfl hcode (.inl rfl) fun e c => congrArg _ (h e c)
  rcases s.acceptBlock_cases op f with ⟨h1, e⟩ | ⟨h1, h2, e⟩ | ⟨h1, h2, ⟨h3, e⟩ | ⟨p, h3, ⟨h4, e⟩ | ⟨h4, e⟩⟩⟩ <;> rw [e]
  · exact failed .badSize nofun fun e c => State.acceptBlock_badSize (s := s.withError e c) h1
  · exact .keeps rfl rfl fun e c => ⟨_, congrArg _ (State.acceptBlock_transform (s := s.withError e c) h2 h1)⟩
  · exact failed .badPos nofun fun e c => State.acceptBlock_badPos (s := s.withError e c) h2 h1 h3
  · exact failed .badTol nofun fun e c => State.acceptBlock_badTol (s := s.withError e c) h2 h1 h3 h4
  · exact .keeps rfl rfl fun e c => ⟨_, congrArg _ (State.acceptBlock_parity (s := s.withError e c) h2 h1 h3 h4)⟩

theorem accept_cmd {s : State} {w : Word} {i : Instr} (h : s.fsm = .idle) (hd : decode w = .cmd i) :
    accept w s = exec i s := by simp [accept, State.halted, h, hd]

/-- A CMD write served outside BUSY: nothing, a fatal error, NOP or the acceptance of a block command. -/
theorem accept_errorOutcome {w : Word} {s t : State} (hb : s.fsm ≠ .busy) (h : accept w s = .next t) :
    ErrorOutcome (accept w) s t := by
  rcases accept_cases (w := w) hb with ⟨hh, e⟩ | ⟨hidle, code, hd, e⟩ | ⟨hidle, i, hd, e⟩ <;> rw [e] at h
  · cases h
    exact .keeps rfl rfl fun e c => ⟨_, accept_halted (s := s.withError e c) w hh⟩
  · cases h
    have hcode : code ≠ .none := by rcases decode_fatal hd with rfl | rfl <;> simp
    exact .raises rfl hcode (.inl rfl) fun e c => accept_fatal (s := s.withError e c) hidle hd
  · have hcmd (e : Bool) (c : ErrCode) : accept w (s.withError e c) = exec i (s.withError e c) :=
      accept_cmd (s := s.withError e c) hidle hd
    by_cases hi : i = .nop
    · subst hi
      rw [exec_nop_idle hidle] at h
      cases h
      exact .keeps rfl rfl fun e c => ⟨_, (hcmd e c).trans (exec_nop_idle (s := s.withError e c) hidle)⟩
    · obtain ⟨op, f, hmem⟩ := exists_mem_of_ne_nop hi
      rw [exec_idle_block hmem hidle] at h
      cases h
      exact (acceptBlock_errorOutcome s op f).congr fun e c =>
        (hcmd e c).trans (exec_idle_block (s := s.withError e c) hmem hidle)

/-! ### Served accesses -/

/-- A read leaves ERR and ERRCODE; only the word it answers may show them (R30, R52). -/
theorem readTarget_errorOutcome {tgt : Target} {s t : State} (h : readTarget tgt s = .next t) :
    ErrorOutcome (readTarget tgt) s t := by
  have entry (v : Option Word) (k : State → Host.Outcome State Fault Refusal) (hv : answerEntry s v = .next t)
      (hk : ∀ e c, k (s.withError e c) = answerEntry (s.withError e c) v) : ErrorOutcome k s t := by
    cases v with
    | none => cases hv
    | some d => cases hv; exact .keeps rfl rfl fun e c => ⟨_, hk e c⟩
  cases tgt with
  | re i => exact entry (s.reEntry i) _ h fun _ _ => rfl
  | im i => exact entry (s.imEntry i) _ h fun _ _ => rfl
  | _ => cases h; exact .keeps rfl rfl fun e c => ⟨_, rfl⟩

theorem State.writeCtrl_of_clear {v : Word} (hv : v.getLsbD 0 = false) (s : State) :
    s.writeCtrl v = { s with irqEn := bit v 1 } := by
  rw [State.writeCtrl, bit_eq_getLsbD v 0, hv]
  rfl

theorem State.statusW1C_of_clear {v : Word} (hv : v.getLsbD 2 = false) (s : State) :
    s.statusW1C v = { s with done := !bit v 1 && s.done } := by
  rw [State.statusW1C_eq, bit_eq_getLsbD v 2, hv]
  simp

/-- A write other than a soft reset and a W1C of bit 2 leaves ERR and ERRCODE, a CMD write apart (R124, R126). -/
theorem writeTarget_errorOutcome {tgt : Target} {v : Word} {s t : State} (hb : tgt.stalls = false ∨ s.fsm ≠ .busy)
    (hctrl : tgt = .ctrl → v.getLsbD 0 = false) (hstatus : tgt = .status → v.getLsbD 2 = false)
    (h : writeTarget tgt v s = .next t) : ErrorOutcome (writeTarget tgt v) s t := by
  cases tgt with
  | cmd =>
    have hb : s.fsm ≠ .busy := hb.resolve_left (by simp [Target.stalls])
    exact (accept_errorOutcome (s := s.withPort s.events (some .okayWrite)) hb h).of_withPort fun _ _ => rfl
  | ctrl =>
    have hwrite (b : State) : writeTarget .ctrl v b = .next { b with answer := some .okayWrite, irqEn := bit v 1 } :=
      congrArg _ (State.writeCtrl_of_clear (hctrl rfl) _)
    rw [hwrite] at h
    cases h
    exact .keeps rfl rfl fun e c => ⟨_, hwrite _⟩
  | status =>
    have hwrite (b : State) :
        writeTarget .status v b = .next { b with answer := some .okayWrite, done := !bit v 1 && b.done } :=
      congrArg _ (State.statusW1C_of_clear (hstatus rfl) _)
    rw [hwrite] at h
    cases h
    exact .keeps rfl rfl fun e c => ⟨_, hwrite _⟩
  | _ => cases h; exact .keeps rfl rfl fun e c => ⟨_, rfl⟩

/-- The same for every request served that is not one of the two writes named. -/
theorem serve_errorOutcome {r : Request} {s t : State} (hst : stalled r s = false)
    (hctrl : ∀ v, r = .write 0x10 8 v → v.getLsbD 0 = false)
    (hstatus : ∀ v, r = .write 0x18 8 v → v.getLsbD 2 = false)
    (h : serve r s = .next t) : ErrorOutcome (serve r) s t := by
  rcases serve_cases r s with ⟨ht, e⟩ | ⟨off, size, tgt, rfl, ht, e⟩ | ⟨off, size, v, tgt, rfl, ht, e⟩ <;> rw [e] at h
  · cases h
    exact .keeps rfl rfl fun e c => ⟨some .error, by simp [serve, State.withError, State.answering, ht]⟩
  · exact (readTarget_errorOutcome h).congr fun e c => by simp [serve, State.withError, ht]
  · have hctrl' : tgt = .ctrl → v.getLsbD 0 = false := by
      rintro rfl
      obtain ⟨hsize, hoff⟩ : size = 8 ∧ off = 0x10 := locate_some ht
      exact hctrl v (by rw [hsize, hoff])
    have hstatus' : tgt = .status → v.getLsbD 2 = false := by
      rintro rfl
      obtain ⟨hsize, hoff⟩ : size = 8 ∧ off = 0x18 := locate_some ht
      exact hstatus v (by rw [hsize, hoff])
    exact (writeTarget_errorOutcome (stalls_of_not_stalled ht hst) hctrl' hstatus' h).congr fun e c => by
      simp [serve, State.withError, ht]

/-! ### The step -/

theorem step_of_engineNext {s : State} {es : List Event} (h : EngineNext s es) :
    step s = engineTurn { s with events := es, answer := none } := by
  rcases h with ⟨he, rfl⟩ | he | ⟨r, rest, he, hst, rfl⟩
  · simp [step, advance, he, State.answering]
  · simp [step, advance, he]
  · exact step_stalled he hst

/-- A step that is no reset and no W1C of bit 2 leaves the error there is, or raises the newest (R139). -/
theorem step_errorOutcome {s t : State} (hreset : ∀ rest, s.events ≠ .hardwareReset :: rest)
    (hctrl : ∀ v rest, NextWrite s 0x10 v rest → v.getLsbD 0 = false)
    (hstatus : ∀ v rest, NextWrite s 0x18 v rest → v.getLsbD 2 = false) (h : step s = .next t) :
    ErrorOutcome step s t := by
  rcases step_forms s with ⟨rest, he, -⟩ | ⟨es, he, e⟩ | ⟨r, rest, he, hst, e⟩
  · exact absurd he (hreset rest)
  · rw [e] at h
    exact (engineTurn_errorOutcome (s := s.withPort es none) h).of_withPort fun e c =>
      step_of_engineNext (s := s.withError e c) he
  · rw [e] at h
    refine (serve_errorOutcome (s := s.withPort rest none) hst ?_ ?_ h).of_withPort fun e c =>
      step_access (s := s.withError e c) he hst
    · rintro v rfl
      exact hctrl v rest he
    · rintro v rfl
      exact hstatus v rest he

/-- An error raised leaves DONE as it is or clears it, so a step that sets DONE is of the first kind (R139). -/
theorem ErrorOutcome.kept_of_done {k : State → Host.Outcome State Fault Refusal} {s t : State} (h : ErrorOutcome k s t)
    (hs : s.done = false) (ht : t.done = true) : t.err = s.err ∧ t.errCode = s.errCode := by
  cases h with
  | keeps herr hcode _ => exact ⟨herr, hcode⟩
  | raises _ _ hdone _ => rcases hdone with hd | ⟨-, -, hd⟩ <;> simp [hd, hs] at ht

/-- Settles O14: each layer of the step leaves ERR and ERRCODE or overwrites them, and reads them for an answer alone. -/
theorem newestErrorWins : Obligations.NewestErrorWins := by
  intro s t h hreset hctrl hstatus
  have hkind := step_errorOutcome hreset hctrl hstatus h
  refine ⟨?_, hkind.kept_of_done⟩
  cases hkind with
  | keeps herr hcode h =>
    refine .inl ⟨herr, hcode, fun e c => ?_⟩
    obtain ⟨a, ha⟩ := h e c
    exact ⟨_, ha, rfl⟩
  | raises herr hcode hdone h => exact .inr ⟨herr, hcode, hdone, h⟩

end Sys2Proof.Machine
end

section
/-! PROOFS. The hardware reset (R153), which accesses stall while BUSY (R158), and that a BUSY command ends (R164). -/

namespace Sys2Proof.Machine

open Sys2Proof.Claims

/-! ### The ENGINE's turn -/

theorem engineTurn_eq_exec {s : State} (hb : s.fsm = .busy) : engineTurn s = exec s.cur.instr s := by
  rw [engineTurn, hb]

/-- Settles O10: each of the three ways to the ENGINE's turn leaves `es` to come, and the turn completes the command. -/
theorem stepCompletesCommand : Obligations.StepCompletesCommand := fun s es hb he =>
  (step_of_engineNext he).trans (engineTurn_eq_exec (s := { s with events := es, answer := none }) hb)

/-- A completion leaves the ENGINE IDLE, what is still to come as it is, and nothing answered (R158, R164). -/
theorem engineTurn_completes {s t : State} {es : List Event} (hb : s.fsm = .busy)
    (h : engineTurn { s with events := es, answer := none } = .next t) :
    t.fsm = .idle ∧ t.events = es ∧ t.answer = none := by
  rcases engineTurn_effect h with ⟨hne, -⟩ | ⟨-, e | e⟩
  · exact absurd hb hne
  all_goals rw [e]; exact ⟨rfl, rfl, rfl⟩

/-! ### Hardware reset -/

@[simp] theorem Memory.readEntry_nil (off : Nat) : Memory.readEntry [] off = none := rfl

theorem step_hardwareReset {s : State} {rest : List Event} (he : s.events = .hardwareReset :: rest) :
    step s = .next { s with events := rest }.hardwareReset := by
  simp [step, advance, he]

@[simp] theorem State.hardwareReset_statusWord (s : State) : s.hardwareReset.statusWord = 0#64 := by
  have hbusy : s.hardwareReset.busy = false := rfl
  have hhalted : s.hardwareReset.halted = false := rfl
  simp [State.statusWord, hbusy, hhalted, ErrCode.code]

@[simp] theorem State.hardwareReset_resultWord (s : State) : s.hardwareReset.resultWord = 0#64 := by
  simp [State.resultWord]

/-- Settles O7: the fields are those of the reset state, whose buffers are empty, and an IDLE engine reads no latch. -/
theorem hardwareResetValues : Obligations.HardwareResetValues := by
  intro s rest he
  let t := { s with events := rest }.hardwareReset
  have hunknown (i : Nat) : t.reEntry i = none ∧ t.imEntry i = none :=
    ⟨Memory.readEntry_nil _, Memory.readEntry_nil _⟩
  have hunread (c : Current) (u : State) (hu : step { t with cur := c } = .next u) :
      ∃ v, step t = .next v ∧ u = { v with cur := u.cur } := by
    obtain ⟨hnext, -⟩ := latchesUnreadOutsideBusy t c nofun
    obtain ⟨v, hv, huv, -⟩ := hnext u hu
    exact ⟨v, hv, huv⟩
  exact ⟨t, step_hardwareReset he, rfl, rfl, t.cfgWord_fields, rfl, State.hardwareReset_statusWord _, rfl, rfl, rfl,
    State.hardwareReset_resultWord _, hunknown, rfl, rfl, rfl, hunread⟩

/-! ### The stall rule -/

/-- The targets that stall are those R158 lists by their offsets. -/
theorem stalls_iff_of_locate {maxN off size : Nat} {t : Target} (h : locate maxN off size = some t) :
    t.stalls = true ↔ off = 0x20 ∨ off = 0x28 ∨ off = 0x30 ∨ 0x8000 ≤ off := by
  obtain ⟨-, hoff⟩ := locate_some h
  cases t <;> simp only at hoff <;> simp [Target.stalls] <;> omega

@[simp] theorem State.writeCtrl_events (s : State) (v : Word) : (s.writeCtrl v).events = s.events := by
  rcases s.writeCtrl_cases v with ⟨-, e⟩ | ⟨-, e⟩ <;> simp [e]

/-- A read of a register that never stalls is answered at once. -/
theorem readTarget_answers {tgt : Target} (h : tgt.stalls = false) (s : State) :
    ∃ t, readTarget tgt s = .next t ∧ t.events = s.events ∧ t.answer ≠ none := by
  cases tgt with
  | pos | tol | cmd | re i | im i => cases h
  | id | cfg | ctrl | status | result => exact ⟨_, rfl, rfl, nofun⟩

/-- A write to a register that never stalls is answered at once. -/
theorem writeTarget_answers {tgt : Target} (h : tgt.stalls = false) (v : Word) (s : State) :
    ∃ t, writeTarget tgt v s = .next t ∧ t.events = s.events ∧ t.answer ≠ none := by
  cases tgt with
  | pos | tol | cmd | re i | im i => cases h
  | id | cfg | result => exact ⟨_, rfl, rfl, nofun⟩
  | ctrl | status => exact ⟨_, rfl, by simp, by simp⟩

/-- Settles O45: a mapped offset names a target, which stalls exactly at the offsets of R158; a request held back leaves
the ENGINE to complete, one to another target is served. -/
theorem stallRule : Obligations.StallRule := by
  intro s r rest off v hc hb he hr halign hmapped
  obtain ⟨tgt, htgt⟩ := (proper_iff_locate (Config.maxN_le hc).2).mp ⟨rfl, halign, hmapped⟩
  have htarget : r.target s.cfg.maxN = some tgt := by rcases hr with rfl | rfl <;> exact htgt
  have hstall : stalled r s = tgt.stalls := by simp [stalled, State.busy, hb, htarget]
  have hiff : Stalling s.cfg.maxN off ↔ tgt.stalls = true := by
    rw [stalls_iff_of_locate htgt, Stalling, and_iff_right hmapped]
  refine ⟨fun h => ?_, fun h => ?_⟩
  · have hnext : EngineNext s s.events := .inr (.inr ⟨r, rest, he, hstall.trans (hiff.mp h), rfl⟩)
    refine ⟨stepCompletesCommand s _ hb hnext, fun t ht => ?_⟩
    exact engineTurn_completes hb ((step_of_engineNext hnext).symm.trans ht)
  · have hfree : tgt.stalls = false := Bool.eq_false_iff.mpr (hiff.not.mp h)
    rcases hr with rfl | rfl
    · rw [step_read he htgt (.inl hfree)]
      exact readTarget_answers hfree _
    · rw [step_write he htgt (.inl hfree)]
      exact writeTarget_answers hfree v _

/-! ### The end of a BUSY command -/

theorem step_not_refused (s : State) (e : Refusal) : step s ≠ .refused e := by
  rcases step_forms s with ⟨rest, -, h⟩ | ⟨es, -, h⟩ | ⟨r, rest, -, hst, h⟩ <;> rw [h]
  · nofun
  · exact engineTurn_not_refused _ e
  · exact serve_not_refused (s := { s with events := rest, answer := none }) hst e

/-- A step that leaves a command BUSY has served the first of the events to come (R158). -/
theorem events_of_still_busy {s t : State} (hs : s.fsm = .busy) (h : step s = .next t) (ht : t.fsm = .busy) :
    ∃ e, s.events = e :: t.events := by
  cases step_effect h with
  | reset rest _ e => simp [e] at ht
  | turn es _ hturn => simp [(engineTurn_completes hs hturn).1] at ht
  | served r rest he e =>
    rw [e.while_busy hs ht]
    exact ⟨_, he⟩

theorem run_one_fault {M : Host.Core} {s : M.State} {r : M.Fault} (h : M.step s = .fault r) : M.run 1 s = .fault r := by
  rw [Host.Core.run, h]

/-- After `k` steps from `s` no command is BUSY, or the run has stopped with a fault. -/
def State.EndsIn (k : Nat) (s : State) : Prop :=
  (∃ t, Sys2Proof.core.run k s = .next t ∧ t.fsm ≠ .busy) ∨ (∃ r, Sys2Proof.core.run k s = .fault r)

theorem State.EndsIn.succ {k : Nat} {s t : State} (h : step s = .next t) (ht : t.EndsIn k) : s.EndsIn (k + 1) := by
  have hrun : Sys2Proof.core.run (k + 1) s = Sys2Proof.core.run k t := run_succ (M := Sys2Proof.core) k h
  rwa [State.EndsIn, hrun]

/-- A BUSY command ends in the next step, or that step uses up an event. -/
theorem endsIn_one_or_uses_event {s : State} (hs : s.fsm = .busy) :
    s.EndsIn 1 ∨ ∃ t e, step s = .next t ∧ t.fsm = .busy ∧ s.events = e :: t.events := by
  cases hstep : step s with
  | next t =>
    by_cases ht : t.fsm = .busy
    · obtain ⟨e, he⟩ := events_of_still_busy hs hstep ht
      exact .inr ⟨t, e, rfl, ht, he⟩
    · exact .inl (.succ hstep (.inl ⟨t, rfl, ht⟩))
  | fault r => exact .inl (.inr ⟨r, run_one_fault (M := Sys2Proof.core) hstep⟩)
  | refused r => exact absurd hstep (step_not_refused s r)

/-- Settles O18, by induction on the events to come: with none left the ENGINE completes. -/
theorem busyEnds : Obligations.BusyEnds := by
  intro s hs
  change ∃ k ≤ s.events.length + 1, s.EndsIn k
  induction hes : s.events generalizing s with
  | nil =>
    rcases endsIn_one_or_uses_event hs with hend | ⟨t, e, -, -, he⟩
    · exact ⟨1, by simp, hend⟩
    · simp [hes] at he
  | cons e rest ih =>
    rcases endsIn_one_or_uses_event hs with hend | ⟨t, e', hstep, ht, he⟩
    · exact ⟨1, by simp, hend⟩
    · obtain ⟨-, hrest⟩ := List.cons.inj (hes.symm.trans he)
      obtain ⟨k, hk, hend⟩ := ih t ht hrest.symm
      exact ⟨k + 1, by simpa using hk, hend.succ hstep⟩

end Sys2Proof.Machine
end
